-- ==== Sys2Proof/Word.lean ====
section
/-! DEFINITION. The machine's words and the type of a byte memory (00_scope.md R8, 20_memory.md R70, R79). -/

namespace Sys2Proof

/-- A host register or an argument register: 32 bits (10_state.md R31, section 2). -/
abbrev Word := BitVec 32

/-- A byte of the framebuffer, the source buffer or the glyph ROM (20_memory.md R71, R73, R74). -/
abbrev Byte := BitVec 8

/-- A 16-bit register field: a cursor coordinate or a corner of the dirty region (10_state.md R42, R45). -/
abbrev Half := BitVec 16

/-- A colour word 0xRRGGBB (30_encoding.md R105). -/
abbrev Colour := BitVec 24

/-- A byte memory: the (index, byte) pairs that differ from 0x00, indices strictly rising.
An index that is not listed reads as 0x00, the reset contents the spec gives (20_memory.md R71, R73). -/
abbrev Memory := List Host.Cell

end Sys2Proof
end

