-- ==== Sys2Proof/Machine/Memory.lean ====
section
/-! DEFINITION. Reading and writing one byte of a sparse byte memory (20_memory.md R70 to R73), and its canonical form. -/

namespace Sys2Proof

/-- The byte at index `i`; an index that is not listed reads as 0x00. -/
def Memory.read : Memory → Nat → Byte
  | [], _ => 0
  | (a, b) :: m, i => if a = i then b else Memory.read m i

/-- Put a byte in front of a memory unless it is what an unlisted index reads as. -/
def Memory.cons (i : Nat) (v : Byte) (m : Memory) : Memory :=
  if v = 0 then m else (i, v) :: m

/-- Store byte `v` at index `i`, keeping the canonical form: writing 0x00 takes the entry out. -/
def Memory.write : Memory → Nat → Byte → Memory
  | [], i, v => Memory.cons i v []
  | (a, b) :: m, i, v =>
    if i < a then Memory.cons i v ((a, b) :: m)
    else if i = a then Memory.cons i v m
    else (a, b) :: Memory.write m i v

/-- The canonical form: indices strictly rising, no entry equal to what an unlisted index reads as. -/
abbrev Memory.wf (m : Memory) : Prop :=
  m.Pairwise (fun c d => c.1 < d.1) ∧ ∀ c ∈ m, c.2 ≠ 0

/-- Every listed index is below `n`, the memory's size. -/
abbrev Memory.within (m : Memory) (n : Nat) : Prop :=
  ∀ c ∈ m, c.1 < n

end Sys2Proof
end

