-- ==== Sys2Proof/Config.lean ====
section
/-! DEFINITION. The implementation parameters (00_scope.md R6) as one record of plain data, and the free values:
opaque constants without a body, about which nothing can be proved. -/

namespace Sys2Proof

/-- One row of a SELECT_BYTES parameter given as a table: the command bytes for one (band, column). -/
structure SelectRow where
  band  : Nat
  col   : Nat
  bytes : List Byte
deriving DecidableEq, Repr

/-- The parameter SELECT_BYTES (00_scope.md R6, 40_driver.md R139), a function (band, column) → bytes, as plain data. -/
inductive SelectBytes where
  /-- the default of R139, the page-addressing commands -/
  | pageAddressing
  /-- any other function: the first row that names the (band, column), else `otherwise`; since bands and columns
  are finitely many, every function is such a table (log 7) -/
  | table (rows : List SelectRow) (otherwise : List Byte)
deriving DecidableEq, Repr

/-- The implementation parameters of 00_scope.md R6. No step changes them. Which records the block can be built
with is `Config.legal` (R7). -/
structure Config where
  /-- WIDTH, the column count -/
  width            : Nat
  /-- HEIGHT, the row count -/
  height           : Nat
  /-- SUPPORTED_HEIGHTS -/
  supportedHeights : List Nat
  /-- COL_OFFSET, added to the first column before it is sent to the panel -/
  colOffset        : Nat
  /-- BLOCK_SIZE, the most bytes one transaction carries -/
  blockSize        : Nat
  /-- HAS_RESET_LINE -/
  hasResetLine     : Bool
  /-- RESET_PULSE: a duration no rule reads, kept as a label (70_reset_and_hazards.md R328) -/
  resetPulse       : Nat
  /-- GLYPH_ROM: the bytes a build fixes, as (5*code + column, byte) pairs, the first of an index counting;
  a byte not listed is the free value `Config.openGlyph` (log 6) -/
  glyphs           : List Host.Cell
  /-- INIT_IMAGE, the framebuffer after reset; a byte not listed is 0x00 -/
  initImage        : Memory
  /-- SRCBUF_SIZE -/
  srcbufSize       : Nat
  /-- SELECT_BYTES -/
  selectBytes      : SelectBytes
deriving DecidableEq, Repr

/-- FB_BYTES = WIDTH*HEIGHT/8 (00_scope.md R6). -/
def Config.fbBytes (c : Config) : Nat := c.width * c.height / 8

/-- The configuration `State.reset` is built with: the conventions of 95_test_vectors.md (WIDTH = HEIGHT = 16) with
every default of R6, no glyph byte fixed. DESIGN CHOICE (log 1), unsafe: WIDTH, HEIGHT, SUPPORTED_HEIGHTS and
RESET_PULSE are OPEN. Statements quantify over every configuration. -/
def Config.standard : Config where
  width            := 16
  height           := 16
  supportedHeights := [8, 16, 24, 32, 40, 48, 56, 64, 72, 80, 88, 96, 104, 112, 120, 128]
  colOffset        := 2
  blockSize        := 16
  hasResetLine     := true
  resetPulse       := 1
  glyphs           := []
  initImage        := []
  srcbufSize       := 1024
  selectBytes      := .pageAddressing

/-- FREE VALUE: what a host read returns where the spec says "any value" (70_reset_and_hazards.md R325, R320;
93_implementation_defined.md S1, S2, S13), applied to the counter `State.freeCount` (log 5). -/
opaque Config.freeWord : Nat → Word

/-- FREE VALUE: the glyph ROM's byte for a character code and a column, where the configuration fixes none
(20_memory.md R74, 91_not_in_source.md N1; log 6). -/
opaque Config.openGlyph : Nat → Nat → Byte

end Sys2Proof
end

