-- ==== Sys2Proof/Syntax.lean ====
section
/-! DEFINITION. The commands (30_encoding.md R101) and what the outside world can do to the block
(70_reset_and_hazards.md R330). A command word holds no operand: operands are read from ARG0..ARG6 (R100, R107). -/

namespace Sys2Proof

/-- The 22 commands, one constructor per row of spec/opcode_table.json. -/
inductive Instr where
  | panelReset
  | clear
  | refresh
  | getPixel
  | fbRead
  | fbWrite
  | txRaw
  | pixel
  | line
  | vline
  | hline
  | rect
  | fillRect
  | roundRect
  | fillRoundRect
  | circle
  | fillCircle
  | triangle
  | fillTriangle
  | bitmap
  | writeChar
  | writeString
deriving DecidableEq, Repr

/-- The drawing commands, opcodes 0x10 to 0x21: they alone end with CommandEnd (40_driver.md R140). -/
def Instr.isDrawing : Instr → Bool
  | .panelReset | .clear | .refresh | .getPixel | .fbRead | .fbWrite | .txRaw => false
  | .pixel | .line | .vline | .hline | .rect | .fillRect | .roundRect | .fillRoundRect | .circle | .fillCircle
  | .triangle | .fillTriangle | .bitmap | .writeChar | .writeString => true

/-- The register select of a transaction (20_memory.md R85). -/
inductive TxSelect where
  | command
  | data
deriving DecidableEq, Repr

/-- A transaction the block issues on the transport port, before its answer (20_memory.md R85). -/
structure TxRequest where
  sel   : TxSelect
  bytes : List Byte
deriving DecidableEq, Repr

/-- An answered transaction, as the transaction history records it (20_memory.md R85). -/
structure Transaction where
  sel   : TxSelect
  bytes : List Byte
  ok    : Bool
deriving DecidableEq, Repr

/-- What the block drives on the panel-reset pin (40_driver.md R141). -/
inductive PinStep where
  | low
  | hold (pulse : Nat)
  | high
deriving DecidableEq, Repr

/-- One host access: a byte offset from the block's base and, for a write, a 32-bit value (20_memory.md R75, R76). -/
inductive Access where
  | read (off : Nat)
  | write (off : Nat) (v : Word)
deriving DecidableEq, Repr

/-- One thing the outside world does to the block (70_reset_and_hazards.md R330; log 2). -/
inductive Event where
  /-- A host access. `meanwhile` is what the host does next, WHILE the command that the access starts is running
  and before its first transaction; where the access starts no command these are just the host's next accesses. -/
  | host (a : Access) (meanwhile : List Access)
  /-- The transport answers the outstanding transaction (20_memory.md R85). -/
  | transport (ok : Bool)
  /-- `rst_n` goes low (70_reset_and_hazards.md R320). -/
  | rstLow
  /-- `rst_n` goes high. -/
  | rstHigh
deriving DecidableEq, Repr

/-- A location of the host register space (20_memory.md R75). -/
inductive HostReg where
  | cmd | status | result | ctrl | width | height | config
  | cursorX | cursorY | textInk | textBg | textScale
  | dirtyXMin | dirtyYMin | dirtyXMax | dirtyYMax
  | arg (n : Fin 8)
  | srcbuf (i : Nat)
  /-- an offset the map reserves -/
  | reserved
  /-- past the SRCBUF window: the platform's, not the block's -/
  | outside
deriving DecidableEq, Repr

end Sys2Proof
end

