-- ==== Sys2Proof/WellFormed.lean ====
section
/-! DEFINITION. Which configurations the block can be built with (00_scope.md R6, R7), check by check, and
well-formedness of commands: a command has no operand fields and every operand value is legal (30_encoding.md R100, R108). -/

namespace Sys2Proof

/-- 1 ≤ WIDTH ≤ 256 − COL_OFFSET with the default SELECT_BYTES, 1 ≤ WIDTH ≤ 32767 in general. -/
def Config.widthOk (c : Config) : Bool :=
  decide (1 ≤ c.width) && decide (c.width ≤ 32767) &&
    (match c.selectBytes with
     | .pageAddressing => decide (c.width + c.colOffset ≤ 256)
     | .table _ _ => true)

/-- HEIGHT is a multiple of 8, at least 8, at most 128 with the default SELECT_BYTES; with another one it must fit
the 16 bits of the HEIGHT and DIRTY registers (DEDUCED, log 8). -/
def Config.heightOk (c : Config) : Bool :=
  decide (c.height % 8 = 0) && decide (8 ≤ c.height) &&
    (match c.selectBytes with
     | .pageAddressing => decide (c.height ≤ 128)
     | .table _ _ => decide (c.height < 65536))

/-- SUPPORTED_HEIGHTS is a non-empty set of multiples of 8, and HEIGHT is a member. -/
def Config.heightSupported (c : Config) : Bool :=
  c.supportedHeights.all (fun h => decide (h % 8 = 0)) && c.supportedHeights.contains c.height

/-- 0 ≤ COL_OFFSET ≤ 255. -/
def Config.colOffsetOk (c : Config) : Bool := decide (c.colOffset ≤ 255)

/-- 3 ≤ BLOCK_SIZE ≤ 255. -/
def Config.blockSizeOk (c : Config) : Bool := decide (3 ≤ c.blockSize) && decide (c.blockSize ≤ 255)

/-- RESET_PULSE is any positive duration. -/
def Config.resetPulseOk (c : Config) : Bool := decide (0 < c.resetPulse)

/-- GLYPH_ROM holds 1280 bytes: no byte past them is fixed. -/
def Config.glyphsOk (c : Config) : Bool := c.glyphs.all (fun g => decide (g.1 < 1280))

/-- INIT_IMAGE is FB_BYTES bytes, here in the canonical form of a memory. -/
def Config.initImageOk (c : Config) : Bool :=
  decide (Memory.wf c.initImage) && decide (Memory.within c.initImage c.fbBytes)

/-- 1 ≤ SRCBUF_SIZE ≤ 65536. -/
def Config.srcbufSizeOk (c : Config) : Bool := decide (1 ≤ c.srcbufSize) && decide (c.srcbufSize ≤ 65536)

/-- FB_BYTES does not exceed 65536. -/
def Config.fbBytesOk (c : Config) : Bool := decide (c.fbBytes ≤ 65536)

/-- A transaction carries 1 to BLOCK_SIZE bytes (20_memory.md R85). -/
def Config.blockLength (c : Config) (bytes : List Byte) : Bool :=
  decide (1 ≤ bytes.length) && decide (bytes.length ≤ c.blockSize)

/-- SELECT_BYTES gives 1 to BLOCK_SIZE bytes. -/
def Config.selectBytesOk (c : Config) : Bool :=
  match c.selectBytes with
  | .pageAddressing => true
  | .table rows otherwise => rows.all (fun r => c.blockLength r.bytes) && c.blockLength otherwise

/-- The block can be built with these parameters (R6, R7). -/
def Config.legal (c : Config) : Bool :=
  c.widthOk && c.heightOk && c.heightSupported && c.colOffsetOk && c.blockSizeOk && c.resetPulseOk && c.glyphsOk &&
    c.initImageOk && c.srcbufSizeOk && c.fbBytesOk && c.selectBytesOk

/-- A command is well-formed as syntax, whichever it is: it has no fields, and whether its operands are in range is
asked nowhere but in TX_RAW's own rule (30_encoding.md R100, R108). -/
def Instr.wellFormed (_ : Instr) : Bool := true

end Sys2Proof
end

