-- ==== Sys2Proof/Decode.lean ====
section
/-! DEFINITION. Decoding a word written to CMD (30_encoding.md R100 to R103), total on every 32-bit word, and the
encoder. There are no bytes to order: a command is one 32-bit host write (20_memory.md R79). -/

namespace Sys2Proof

/-- Why a word is no command; either raises ILLEGAL_COMMAND (60_exceptions.md R291). -/
inductive DecodeError where
  /-- bits 31:8 are not all 0 (30_encoding.md R103) -/
  | reservedBits
  /-- bits 7:0 are no opcode of R101 (30_encoding.md R102) -/
  | illegalOpcode
deriving DecidableEq, Repr

/-- The opcode map (30_encoding.md R101). -/
def opcodeTable : List (Byte × Instr) :=
  [(0x01, .panelReset), (0x02, .clear), (0x03, .refresh), (0x04, .getPixel), (0x05, .fbRead), (0x06, .fbWrite),
   (0x07, .txRaw)] ++
  [(0x10, .pixel), (0x11, .line), (0x12, .vline), (0x13, .hline), (0x14, .rect), (0x15, .fillRect),
   (0x16, .roundRect), (0x17, .fillRoundRect)] ++
  [(0x18, .circle), (0x19, .fillCircle), (0x1A, .triangle), (0x1B, .fillTriangle), (0x1C, .bitmap)] ++
  [(0x20, .writeChar), (0x21, .writeString)]

/-- OPCODE, bits 7:0 of a command word (30_encoding.md R100). -/
def opcodeOf (v : Word) : Byte := v.extractLsb' 0 8

/-- RSVD, bits 31:8 of a command word (30_encoding.md R100). -/
def reservedOf (v : Word) : BitVec 24 := v.extractLsb' 8 24

/-- The command an opcode selects, if any. -/
def decodeOpcode (op : Byte) : Option Instr := opcodeTable.lookup op

/-- Decode a word written to CMD (30_encoding.md R102, R103). -/
def decode (v : Word) : Except DecodeError Instr :=
  if reservedOf v ≠ 0 then .error .reservedBits
  else match decodeOpcode (opcodeOf v) with
    | some i => .ok i
    | none => .error .illegalOpcode

/-- OPCODE of a command (30_encoding.md R101). -/
def Instr.opcode : Instr → Byte
  | .panelReset => 0x01
  | .clear => 0x02
  | .refresh => 0x03
  | .getPixel => 0x04
  | .fbRead => 0x05
  | .fbWrite => 0x06
  | .txRaw => 0x07
  | .pixel => 0x10
  | .line => 0x11
  | .vline => 0x12
  | .hline => 0x13
  | .rect => 0x14
  | .fillRect => 0x15
  | .roundRect => 0x16
  | .fillRoundRect => 0x17
  | .circle => 0x18
  | .fillCircle => 0x19
  | .triangle => 0x1A
  | .fillTriangle => 0x1B
  | .bitmap => 0x1C
  | .writeChar => 0x20
  | .writeString => 0x21

/-- The command word: zext_32(OPCODE), bits 31:8 zero (30_encoding.md R100, R109). -/
def encode (i : Instr) : Word := i.opcode.zeroExtend 32

/-- The command YOUR decoder reads from an instruction of `nbits` bits `w`, numbered as spec/opcode_table.json
numbers them; the bits above `nbits` are 0. -/
def decodeTableWord (nbits w : Nat) : Option Instr :=
  match decode (BitVec.ofNat 32 (w % 2 ^ nbits)) with
  | .ok i => some i
  | .error _ => none

end Sys2Proof
end

