-- ==== Sys2Proof/Machine/State.lean ====
section
/-! DEFINITION. The machine's state as plain data (10_state.md, 20_memory.md), the reasons a step can stop, and reset
(10_state.md R52, 70_reset_and_hazards.md R320 to R322). -/

namespace Sys2Proof.Machine

/-- The fields of CTRL (10_state.md R37). -/
structure Ctrl where
  autoRefresh   : Bool
  partialUpdate : Bool
  textWrap      : Bool
deriving DecidableEq, Repr

/-- The dirty region, inclusive corners, four 16-bit unsigned registers (10_state.md R45). -/
structure Region where
  xMin : Half
  yMin : Half
  xMax : Half
  yMax : Half
deriving DecidableEq, Repr

/-- What follows the last transaction of a running command. -/
inductive TxThen where
  /-- a refresh empties the dirty region (40_driver.md R138) -/
  | clearRegion
  /-- TX_RAW does nothing more (40_driver.md R146) -/
  | nothing
deriving DecidableEq, Repr

/-- The in-flight state of a command that waits for the transport's answer (10_state.md R49, 20_memory.md R85):
the head of `pending` is the outstanding transaction, the rest are still to be issued. -/
structure InFlight where
  pending : List TxRequest
  after   : TxThen
deriving DecidableEq, Repr

/-- What the host got back for one read (70_reset_and_hazards.md R330). -/
structure ReadResult where
  off   : Nat
  value : Word
deriving DecidableEq, Repr

/-- Everything the spec gives the block, and the model's own schedule and logs. -/
structure State where
  /-- the implementation parameters, constant (00_scope.md R6) -/
  cfg        : Config
  /-- ARG0..ARG7 (10_state.md R31) -/
  args       : Vector Word 8
  /-- STATUS.BUSY (R34, R35) -/
  busy       : Bool
  /-- STATUS.ERR (R34) -/
  err        : Bool
  /-- STATUS.ERR_CODE (R34) -/
  errCode    : BitVec 4
  /-- RESULT (R36) -/
  result     : Word
  /-- CTRL (R37) -/
  ctrl       : Ctrl
  /-- CURSOR_X (R42) -/
  cursorX    : Half
  /-- CURSOR_Y (R42) -/
  cursorY    : Half
  /-- TEXT_INK (R43) -/
  textInk    : Colour
  /-- TEXT_BG (R43) -/
  textBg     : Colour
  /-- TEXT_SCALE (R44) -/
  textScale  : Byte
  /-- DIRTY_XMIN, DIRTY_YMIN, DIRTY_XMAX, DIRTY_YMAX (R45) -/
  dirty      : Region
  /-- the framebuffer FB (20_memory.md R71) -/
  fb         : Memory
  /-- the source buffer SRCBUF (20_memory.md R73) -/
  srcbuf     : Memory
  /-- the level of the panel-reset pin (20_memory.md R86) -/
  panelRstN  : Bool
  /-- the level of the reset input (70_reset_and_hazards.md R320) -/
  rstN       : Bool
  /-- in-flight state of a command waiting on the transport (10_state.md R49) -/
  inflight   : Option InFlight
  /-- the transaction history since reset (20_memory.md R85, 70_reset_and_hazards.md R331) -/
  history    : List Transaction
  /-- what was driven on the panel-reset pin since reset (10_state.md R50, R86) -/
  pinHistory : List PinStep
  /-- MODEL: transport answers already drawn, the next first (log 4) -/
  answers    : List Bool
  /-- MODEL: what the outside world does, the next first (log 2) -/
  events     : List Event
  /-- MODEL: what the host's reads returned, the oldest first (log 12) -/
  readLog    : List ReadResult
  /-- MODEL: how many free values were drawn (log 5) -/
  freeCount  : Nat
deriving DecidableEq, Repr

/-- Why a step faults. -/
inductive Fault where
  /-- Raised by `step` on a state that holds a reserved STATUS.ERR_CODE (5 to 15): "a model that finds one latched
  must fault" (93_implementation_defined.md S11). Safe: no step reaches such a state from a reset. -/
  | reservedErrorCode
deriving DecidableEq, Repr

/-- Why a step is refused. -/
inductive Refusal where
  /-- Raised by an arm of `exec` whose instruction has no meaning yet; no arm is left so. Safe. -/
  | notModelled (mnemonic : String)
  /-- Raised by `step` on a configuration the block cannot be built with: "A model refuses the configuration"
  (00_scope.md R7). Safe. -/
  | illegalConfiguration
deriving DecidableEq, Repr

/-- The whole canvas, the dirty region after reset (70_reset_and_hazards.md R322). -/
def Region.canvas (c : Config) : Region :=
  ⟨0, 0, BitVec.ofNat 16 (c.width - 1), BitVec.ofNat 16 (c.height - 1)⟩

/-- The empty sentinel (10_state.md R46). -/
def Region.sentinel (c : Config) : Region :=
  ⟨BitVec.ofNat 16 c.width, BitVec.ofNat 16 c.height, 0, 0⟩

/-- The state right after reset of a block built with parameters `c` (10_state.md R52). The schedule and the model's
logs are empty (log 2, 4, 5, 12). -/
def State.resetWith (c : Config) : State where
  cfg        := c
  args       := Vector.replicate 8 0
  busy       := false
  err        := false
  errCode    := 0
  result     := 0
  ctrl       := ⟨false, true, true⟩
  cursorX    := 0
  cursorY    := 0
  textInk    := 0
  textBg     := 0
  textScale  := 1
  dirty      := Region.canvas c
  fb         := c.initImage
  srcbuf     := []
  panelRstN  := true
  rstN       := true
  inflight   := none
  history    := []
  pinHistory := []
  answers    := []
  events     := []
  readLog    := []
  freeCount  := 0

/-- The machine right after reset, with the configuration of log 1. -/
def State.reset : State := State.resetWith Config.standard

end Sys2Proof.Machine
end

