-- ==== Sys2Proof/Machine/Flags.lean ====
section
/-! DEFINITION. The status bits: BUSY, ERR and ERR_CODE are the block's only flags (10_state.md R34, R51), how errors
are latched and cleared (60_exceptions.md R290, R292, R300), and the words in which registers of several fields are read
and written (10_state.md R34, R37, R41). -/

namespace Sys2Proof.Machine

/-- The errors the block latches (60_exceptions.md R290). -/
inductive ErrorCode where
  | illegalCommand
  | transportError
  | argError
  | overrun
deriving DecidableEq, Repr

/-- The code held in STATUS.ERR_CODE (60_exceptions.md R290). -/
def ErrorCode.code : ErrorCode → BitVec 4
  | .illegalCommand => 1
  | .transportError => 2
  | .argError => 3
  | .overrun => 4

/-- Latch(code): the first error since the last clear is kept (60_exceptions.md R292). -/
def latch (e : ErrorCode) (s : State) : State :=
  if s.err then s else { s with err := true, errCode := e.code }

/-- Clear ERR and ERR_CODE (60_exceptions.md R300). -/
def clearError (s : State) : State := { s with err := false, errCode := 0 }

/-- One bit as a 32-bit word. -/
def bitWord (b : Bool) : Word := (BitVec.ofBool b).zeroExtend 32

/-- STATUS as the host reads it: BUSY in bit 0, ERR in bit 1, ERR_CODE in bits 11:8 (10_state.md R34). -/
def statusWord (s : State) : Word :=
  bitWord s.busy ||| bitWord s.err <<< 1 ||| s.errCode.zeroExtend 32 <<< 8

/-- CTRL as the host reads it (10_state.md R37). -/
def ctrlWord (c : Ctrl) : Word :=
  bitWord c.autoRefresh ||| bitWord c.partialUpdate <<< 1 ||| bitWord c.textWrap <<< 2

/-- What a host write of `v` stores in CTRL (10_state.md R37). -/
def ctrlOf (v : Word) : Ctrl := ⟨v.getLsbD 0, v.getLsbD 1, v.getLsbD 2⟩

/-- CONFIG as the host reads it (10_state.md R41). -/
def configWord (c : Config) : Word :=
  (BitVec.ofNat 8 c.colOffset).zeroExtend 32 ||| (BitVec.ofNat 8 c.blockSize).zeroExtend 32 <<< 8 |||
    bitWord c.hasResetLine <<< 16

/-- What a host write of `v` stores in TEXT_SCALE: 1 where bits 7:0 are 0 (10_state.md R44). -/
def textScaleOf (v : Word) : Byte := if v.extractLsb' 0 8 = 0 then 1 else v.extractLsb' 0 8

end Sys2Proof.Machine
end

