-- ==== Sys2Proof/Machine/Operands.lean ====
section
/-! DEFINITION. Reading an operand from an argument register (30_encoding.md R104 to R107), the source buffer and the
glyph ROM (20_memory.md R73, R74), and the exact arithmetic of 00_scope.md R9. -/

namespace Sys2Proof.Machine

/-- sext_16(w[15:0]): a coordinate or a size (30_encoding.md R104). -/
def s16 (w : Word) : Int := (w.extractLsb' 0 16).toInt

/-- w[23:0]: a colour word (30_encoding.md R105). -/
def colourOf (w : Word) : Colour := w.extractLsb' 0 24

/-- zext_16(w[15:0]): an index, offset or length (30_encoding.md R106). -/
def u16 (w : Word) : Nat := (w.extractLsb' 0 16).toNat

/-- w[7:0]: a byte or character code (30_encoding.md R106). -/
def u8 (w : Word) : Byte := w.extractLsb' 0 8

/-- w[0]: a one-bit selector (30_encoding.md R106). -/
def selector (w : Word) : Bool := w.getLsbD 0

/-- ARGn read as a coordinate or size. -/
def argS16 (s : State) (n : Fin 8) : Int := s16 s.args[n]

/-- ARGn read as a colour. -/
def argColour (s : State) (n : Fin 8) : Colour := colourOf s.args[n]

/-- ARGn read as an index, offset or length. -/
def argU16 (s : State) (n : Fin 8) : Nat := u16 s.args[n]

/-- ARGn read as a byte. -/
def argU8 (s : State) (n : Fin 8) : Byte := u8 s.args[n]

/-- ARGn read as a one-bit selector. -/
def argBit (s : State) (n : Fin 8) : Bool := selector s.args[n]

/-- SRC(i): SRCBUF[i], 0x00 at or past SRCBUF_SIZE (20_memory.md R73). -/
def src (s : State) (i : Nat) : Byte := if i < s.cfg.srcbufSize then s.srcbuf.read i else 0

/-- GLYPH(c, k): column byte k of glyph c, from the configuration's fixed bytes, else the free value (20_memory.md
R74; log 6). -/
def glyph (c : Config) (code k : Nat) : Byte := (c.glyphs.lookup (5 * code + k)).getD (Config.openGlyph code k)

/-- wrap16(v), held in a 16-bit register (00_scope.md R9). -/
def wrap16 (v : Int) : Half := BitVec.ofInt 16 v

/-- The integers a, a+1, ..., a+n−1: `for v in a .. a+n-1` (00_scope.md R10). -/
def upFrom (a : Int) (n : Nat) : List Int := (List.range n).map (fun (k : Nat) => a + (k : Int))

end Sys2Proof.Machine
end

