-- ==== Sys2Proof/Machine/Ops.lean ====
section
/-! DEFINITION. The shared operations: colour threshold, pixel set and get, Plot, Widen (40_driver.md R131 to R135),
transactions and the refresh engine (20_memory.md R85; 40_driver.md R136 to R140), the end of a command
and its error (60_exceptions.md R292). -/

namespace Sys2Proof.Machine

/-! ### The end of a command, and its error -/

/-- A command ends: BUSY becomes 0 and none of the in-flight state survives (10_state.md R35, R49). -/
def endCommand (s : State) : State := { s with busy := false, inflight := none }

/-- raise Error(code): THE exception of this block (60_exceptions.md R292, R299). It latches the code and ends the
command at once; there is no handler, vector or saved register, and nothing to return from. -/
def raiseError (e : ErrorCode) (s : State) : State := endCommand (latch e s)

/-! ### Pixels -/

/-- InkOf(c): true is ink, bit value 1 (40_driver.md R131). -/
def inkOf (c : Colour) : Bool :=
  decide (2 * ((c.extractLsb' 16 8).toNat + (c.extractLsb' 8 8).toNat + (c.extractLsb' 0 8).toNat) < 765)

/-- The pixel is in the canvas (00_scope.md R11). -/
abbrev inCanvas (c : Config) (x y : Int) : Prop := 0 ≤ x ∧ x < c.width ∧ 0 ≤ y ∧ y < c.height

/-- PixIndex(x, y) (20_memory.md R72). -/
def pixIndex (c : Config) (x y : Nat) : Nat := x + y / 8 * c.width

/-- PixBit(x, y) (20_memory.md R72). -/
def pixBit (y : Nat) : Nat := y % 8

/-- A byte with bit `j` replaced by `k`. -/
def setBit (b : Byte) (j : Nat) (k : Bool) : Byte :=
  if k then b ||| BitVec.twoPow 8 j else b &&& ~~~(BitVec.twoPow 8 j)

/-- PBSet(x, y, k) (40_driver.md R132). -/
def pbSet (c : Config) (fb : Memory) (x y : Int) (k : Bool) : Memory :=
  if inCanvas c x y then
    fb.write (pixIndex c x.toNat y.toNat) (setBit (fb.read (pixIndex c x.toNat y.toNat)) (pixBit y.toNat) k)
  else fb

/-- PBGet(x, y) (40_driver.md R132). -/
def pbGet (c : Config) (fb : Memory) (x y : Int) : Bool :=
  if inCanvas c x y then (fb.read (pixIndex c x.toNat y.toNat)).getLsbD (pixBit y.toNat) else false

/-- Widen(x0, y0, x1, y1) (40_driver.md R134). -/
def Region.widen (r : Region) (x0 y0 x1 y1 : Nat) : Region where
  xMin := BitVec.ofNat 16 (min r.xMin.toNat x0)
  yMin := BitVec.ofNat 16 (min r.yMin.toNat y0)
  xMax := BitVec.ofNat 16 (max r.xMax.toNat x1)
  yMax := BitVec.ofNat 16 (max r.yMax.toNat y1)

/-- Empty(): XMIN > XMAX (10_state.md R46). -/
def Region.isEmpty (r : Region) : Bool := decide (r.xMax.toNat < r.xMin.toNat)

/-- A point a shape passes to Plot. -/
structure Point where
  x : Int
  y : Int
deriving DecidableEq, Repr

/-- A point and the colour it is plotted in. -/
structure Pixel where
  pos : Point
  c   : Colour
deriving DecidableEq, Repr

/-- Plot's write to the framebuffer (40_driver.md R133). -/
def plotFb (c : Config) (fb : Memory) (p : Pixel) : Memory := pbSet c fb p.pos.x p.pos.y (inkOf p.c)

/-- Plot's widening of the dirty region: a clipped pixel does not widen it (40_driver.md R133). -/
def plotDirty (c : Config) (r : Region) (p : Pixel) : Region :=
  if inCanvas c p.pos.x p.pos.y then r.widen p.pos.x.toNat p.pos.y.toNat p.pos.x.toNat p.pos.y.toNat else r

/-- Plot(x, y, c) (40_driver.md R133). -/
def plot (p : Pixel) (s : State) : State :=
  { s with fb := plotFb s.cfg s.fb p, dirty := plotDirty s.cfg s.dirty p }

/-- A sequence of Plots, in order. -/
def plotAll : List Pixel → State → State
  | [], s => s
  | p :: ps, s => plotAll ps (plot p s)

/-- All the points in one colour. -/
def paint (c : Colour) (ps : List Point) : List Pixel := ps.map (fun p => ⟨p, c⟩)

/-! ### The refresh engine -/

/-- SELECT_BYTES(band, col) (40_driver.md R139). -/
def selectBytesOf (c : Config) (band col : Nat) : List Byte :=
  match c.selectBytes with
  | .pageAddressing =>
    [0xB0 ||| BitVec.ofNat 8 band,
     0x00 ||| (BitVec.ofNat 8 col &&& 0x0F),
     0x10 ||| ((BitVec.ofNat 8 col >>> 4) &&& 0x0F)]
  | .table rows otherwise =>
    match rows.find? (fun r => decide (r.band = band) && decide (r.col = col)) with
    | some r => r.bytes
    | none => otherwise

/-- The data transactions of one band, from column `col` to `x1`: blocks of BLOCK_SIZE bytes, the last cut at `x1`
(40_driver.md R138). The first argument bounds the number of blocks. -/
def dataBlocks (c : Config) (fb : Memory) (band x1 : Nat) : Nat → Nat → List TxRequest
  | 0, _ => []
  | fuel + 1, col =>
    if col ≤ x1 then
      let n := min c.blockSize (x1 - col + 1)
      ⟨.data, (List.range n).map (fun k => fb.read (band * c.width + col + k))⟩ ::
        dataBlocks c fb band x1 fuel (col + n)
    else []

/-- The transactions of one band: the select, then the data blocks (40_driver.md R138). -/
def bandTransactions (c : Config) (fb : Memory) (x0 x1 band : Nat) : List TxRequest :=
  ⟨.command, selectBytesOf c band (x0 + c.colOffset)⟩ :: dataBlocks c fb band x1 (x1 + 1 - x0) x0

/-- The box a refresh sends: the dirty box, or the whole canvas (40_driver.md R137). -/
def refreshBox (s : State) : Region := if s.ctrl.partialUpdate then s.dirty else Region.canvas s.cfg

/-- Every transaction of a refresh, in order, the bytes read from the framebuffer as it stands during the refresh,
which does not change it (40_driver.md R138). -/
def refreshPlan (s : State) : List TxRequest :=
  let b := refreshBox s
  let band0 := b.yMin.toNat / 8
  (List.range (b.yMax.toNat / 8 + 1 - band0)).flatMap
    (fun k => bandTransactions s.cfg s.fb b.xMin.toNat b.xMax.toNat (band0 + k))

/-- What follows the last transaction of a command. -/
def afterLast : TxThen → State → State
  | .clearRegion, s => { s with dirty := Region.sentinel s.cfg }
  | .nothing, s => s

/-- A transaction and its answer, as the history records it (20_memory.md R85). -/
def answered (ok : Bool) (t : TxRequest) : Transaction := ⟨t.sel, t.bytes, ok⟩

/-- Issue transactions one at a time as the LAST act of a command (20_memory.md R85, 60_exceptions.md R293). Each takes
the next answer the transport has for it. Success goes on to the next and, after the last, ends the command; failure
raises TRANSPORT_ERROR at once; where no answer is there, the command WAITS with BUSY = 1, the head outstanding. -/
def transmit (after : TxThen) : List TxRequest → State → State
  | [], s => endCommand (afterLast after s)
  | t :: ts, s =>
    match s.answers with
    | [] => { s with busy := true, inflight := some ⟨t :: ts, after⟩ }
    | true :: as => transmit after ts { s with answers := as, history := s.history ++ [answered true t] }
    | false :: as =>
      raiseError .transportError { s with answers := as, history := s.history ++ [answered false t] }

/-- Refresh(), always the last act of the command that calls it (40_driver.md R136, R138). -/
def refresh (s : State) : State :=
  if s.dirty.isEmpty then endCommand s else transmit .clearRegion (refreshPlan s) s

/-- CommandEnd() and the end of a drawing command (40_driver.md R130, R140). -/
def commandEnd (s : State) : State := if s.ctrl.autoRefresh then refresh s else endCommand s

/-- A drawing command that plots `ps`: the Plots, then CommandEnd. -/
def draw (ps : List Pixel) (s : State) : State := commandEnd (plotAll ps s)

end Sys2Proof.Machine
end

