-- ==== Sys2Proof/Machine/Lines.lean ====
section
/-! DEFINITION. The commands PIXEL, LINE, VLINE, HLINE, RECT and FILL_RECT and the helpers DrawLine, VRun and HRun
(41_lines_rects.md). A helper is the sequence of points it passes to Plot, in order. -/

namespace Sys2Proof.Machine

/-- The loop of DrawLine (41_lines_rects.md R181): `n` steps of the major axis from `x`. -/
def lineLoop (steep : Bool) (dx dy ystep : Int) : Nat → Int → Int → Int → List Point
  | 0, _, _, _ => []
  | n + 1, x, y, err =>
    let p : Point := if steep then ⟨y, x⟩ else ⟨x, y⟩
    let err := err - dy
    p :: (if err < 0 then lineLoop steep dx dy ystep n (x + 1) (y + ystep) (err + dx)
          else lineLoop steep dx dy ystep n (x + 1) y err)

/-- DrawLine once the swaps are done: from (x0, y0) to (x1, y1), x0 ≤ x1, x the major axis (R181). -/
def lineSwapped (steep : Bool) (x0 y0 x1 y1 : Int) : List Point :=
  lineLoop steep (x1 - x0) (y1 - y0).natAbs (if y0 < y1 then 1 else -1) (x1 - x0 + 1).toNat x0 y0
    (Int.tdiv (x1 - x0) 2)

/-- The second swap of DrawLine: the endpoint of smaller major coordinate comes first (R181). -/
def lineOrdered (steep : Bool) (x0 y0 x1 y1 : Int) : List Point :=
  if x0 > x1 then lineSwapped steep x1 y1 x0 y0 else lineSwapped steep x0 y0 x1 y1

/-- DrawLine(x0, y0, x1, y1) (R181). -/
def linePoints (x0 y0 x1 y1 : Int) : List Point :=
  if (y1 - y0).natAbs > (x1 - x0).natAbs then lineOrdered true y0 x0 y1 x1
  else lineOrdered false x0 y0 x1 y1

/-- VRun(x, y, h): nothing where h ≤ 0 (R183). -/
def vrun (x y h : Int) : List Point := (upFrom y h.toNat).map (fun j => ⟨x, j⟩)

/-- HRun(x, y, w): nothing where w ≤ 0 (R185). -/
def hrun (x y w : Int) : List Point := (upFrom x w.toNat).map (fun i => ⟨i, y⟩)

/-- The outline of a rectangle (R187). -/
def rectPoints (x y w h : Int) : List Point :=
  if w ≤ 0 ∨ h ≤ 0 then []
  else hrun x y w ++ hrun x (y + h - 1) w ++ vrun x y h ++ vrun (x + w - 1) y h

/-- FillRect(x, y, w, h) (R188). -/
def fillRectPoints (x y w h : Int) : List Point :=
  if w ≤ 0 ∨ h ≤ 0 then [] else (upFrom x w.toNat).flatMap (fun i => vrun i y h)

/-- PIXEL (R180). -/
def execPixel (s : State) : Host.Outcome State Fault Refusal :=
  .next (draw (paint (argColour s 2) [⟨argS16 s 0, argS16 s 1⟩]) s)

/-- LINE (R182). -/
def execLine (s : State) : Host.Outcome State Fault Refusal :=
  .next (draw (paint (argColour s 4) (linePoints (argS16 s 0) (argS16 s 1) (argS16 s 2) (argS16 s 3))) s)

/-- VLINE (R184). -/
def execVline (s : State) : Host.Outcome State Fault Refusal :=
  .next (draw (paint (argColour s 3) (vrun (argS16 s 0) (argS16 s 1) (argS16 s 2))) s)

/-- HLINE (R186). -/
def execHline (s : State) : Host.Outcome State Fault Refusal :=
  .next (draw (paint (argColour s 3) (hrun (argS16 s 0) (argS16 s 1) (argS16 s 2))) s)

/-- RECT (R187). -/
def execRect (s : State) : Host.Outcome State Fault Refusal :=
  .next (draw (paint (argColour s 4) (rectPoints (argS16 s 0) (argS16 s 1) (argS16 s 2) (argS16 s 3))) s)

/-- FILL_RECT (R188). -/
def execFillRect (s : State) : Host.Outcome State Fault Refusal :=
  .next (draw (paint (argColour s 4) (fillRectPoints (argS16 s 0) (argS16 s 1) (argS16 s 2) (argS16 s 3))) s)

end Sys2Proof.Machine
end

