-- ==== Sys2Proof/Machine/Circles.lean ====
section
/-! DEFINITION. The commands CIRCLE, FILL_CIRCLE, ROUND_RECT and FILL_ROUND_RECT and their arc helpers (42_circles.md).
A helper is the sequence of points it passes to Plot, in order. -/

namespace Sys2Proof.Machine

/-- The loop of CircleSteps (42_circles.md R210). The first argument bounds the steps: "the loop runs at most r times". -/
def circleLoop : Nat → Int → Int → Int → Int → Int → List (Int × Int)
  | 0, _, _, _, _, _ => []
  | fuel + 1, f, ddx, ddy, x, y =>
    if x < y then
      let down := decide (f ≥ 0)
      let y' := if down then y - 1 else y
      let ddy' := if down then ddy + 2 else ddy
      let f' := if down then f + ddy' else f
      (x + 1, y') :: circleLoop fuel (f' + (ddx + 2)) (ddx + 2) ddy' (x + 1) y'
    else []

/-- CircleSteps(r) (R210). -/
def circleSteps (r : Int) : List (Int × Int) := circleLoop r.toNat (1 - r) 1 (-2 * r) 0 r

/-- The points CIRCLE plots (R211). -/
def circlePoints (x0 y0 r : Int) : List Point :=
  if r < 0 then []
  else
    [⟨x0, y0 + r⟩, ⟨x0, y0 - r⟩, ⟨x0 + r, y0⟩, ⟨x0 - r, y0⟩] ++
    (circleSteps r).flatMap (fun q =>
      [⟨x0 + q.1, y0 + q.2⟩, ⟨x0 - q.1, y0 + q.2⟩, ⟨x0 + q.1, y0 - q.2⟩, ⟨x0 - q.1, y0 - q.2⟩,
       ⟨x0 + q.2, y0 + q.1⟩, ⟨x0 - q.2, y0 + q.1⟩, ⟨x0 + q.2, y0 - q.1⟩, ⟨x0 - q.2, y0 - q.1⟩])

/-- Points given under a mask bit. -/
def ifBit (b : Bool) (ps : List Point) : List Point := if b then ps else []

/-- ArcHelper(x0, y0, r, m): mask bits 4 lower right, 2 upper right, 8 lower left, 1 upper left (R212). -/
def arcPoints (x0 y0 r : Int) (m : BitVec 4) : List Point :=
  (circleSteps r).flatMap (fun q =>
    ifBit (m.getLsbD 2) [⟨x0 + q.1, y0 + q.2⟩, ⟨x0 + q.2, y0 + q.1⟩] ++
    ifBit (m.getLsbD 1) [⟨x0 + q.1, y0 - q.2⟩, ⟨x0 + q.2, y0 - q.1⟩] ++
    ifBit (m.getLsbD 3) [⟨x0 - q.2, y0 + q.1⟩, ⟨x0 - q.1, y0 + q.2⟩] ++
    ifBit (m.getLsbD 0) [⟨x0 - q.2, y0 - q.1⟩, ⟨x0 - q.1, y0 - q.2⟩])

/-- FillArcHelper(x0, y0, r, m, d): mask bits 1 right side, 2 left side; d stretches it downward (R213). -/
def fillArcPoints (x0 y0 r : Int) (m : BitVec 2) (d : Int) : List Point :=
  (circleSteps r).flatMap (fun q =>
    ifBit (m.getLsbD 0)
      (vrun (x0 + q.1) (y0 - q.2) (2 * q.2 + 1 + d) ++ vrun (x0 + q.2) (y0 - q.1) (2 * q.1 + 1 + d)) ++
    ifBit (m.getLsbD 1)
      (vrun (x0 - q.1) (y0 - q.2) (2 * q.2 + 1 + d) ++ vrun (x0 - q.2) (y0 - q.1) (2 * q.1 + 1 + d)))

/-- The points FILL_CIRCLE plots (R214). -/
def fillCirclePoints (x0 y0 r : Int) : List Point :=
  if r < 0 then [] else vrun x0 (y0 - r) (2 * r + 1) ++ fillArcPoints x0 y0 r 3 0

/-- RoundRadius(w, h, r) (R215). -/
def roundRadius (w h r : Int) : Int := max 0 (min r (Int.tdiv (min w h) 2))

/-- The outline of a round rectangle of clamped radius r (R216, R217). -/
def roundOutline (x y w h r : Int) : List Point :=
  hrun (x + r) y (w - 2 * r) ++ hrun (x + r) (y + h - 1) (w - 2 * r) ++
  vrun x (y + r) (h - 2 * r) ++ vrun (x + w - 1) (y + r) (h - 2 * r) ++
  arcPoints (x + r) (y + r) r 1 ++ arcPoints (x + w - r - 1) (y + r) r 2 ++
  arcPoints (x + w - r - 1) (y + h - r - 1) r 4 ++ arcPoints (x + r) (y + h - r - 1) r 8

/-- The points ROUND_RECT plots (R217). -/
def roundRectPoints (x y w h r : Int) : List Point :=
  if w ≤ 0 ∨ h ≤ 0 then [] else roundOutline x y w h (roundRadius w h r)

/-- The filled round rectangle of clamped radius r (R218). -/
def roundFill (x y w h r : Int) : List Point :=
  fillRectPoints (x + r) y (w - 2 * r) h ++
  fillArcPoints (x + w - r - 1) (y + r) r 1 (h - 2 * r - 1) ++ fillArcPoints (x + r) (y + r) r 2 (h - 2 * r - 1)

/-- The points FILL_ROUND_RECT plots (R218). -/
def fillRoundRectPoints (x y w h r : Int) : List Point :=
  if w ≤ 0 ∨ h ≤ 0 then [] else roundFill x y w h (roundRadius w h r)

/-- CIRCLE (R211). -/
def execCircle (s : State) : Host.Outcome State Fault Refusal :=
  .next (draw (paint (argColour s 3) (circlePoints (argS16 s 0) (argS16 s 1) (argS16 s 2))) s)

/-- FILL_CIRCLE (R214). -/
def execFillCircle (s : State) : Host.Outcome State Fault Refusal :=
  .next (draw (paint (argColour s 3) (fillCirclePoints (argS16 s 0) (argS16 s 1) (argS16 s 2))) s)

/-- ROUND_RECT (R217). -/
def execRoundRect (s : State) : Host.Outcome State Fault Refusal :=
  .next (draw (paint (argColour s 5)
    (roundRectPoints (argS16 s 0) (argS16 s 1) (argS16 s 2) (argS16 s 3) (argS16 s 4))) s)

/-- FILL_ROUND_RECT (R218). -/
def execFillRoundRect (s : State) : Host.Outcome State Fault Refusal :=
  .next (draw (paint (argColour s 5)
    (fillRoundRectPoints (argS16 s 0) (argS16 s 1) (argS16 s 2) (argS16 s 3) (argS16 s 4))) s)

end Sys2Proof.Machine
end

