-- ==== Sys2Proof/Machine/Driver.lean ====
section
/-! DEFINITION. The driver commands PANEL_RESET, CLEAR, REFRESH, GET_PIXEL, FB_READ, FB_WRITE and TX_RAW
(40_driver.md R141 to R147). None of them calls CommandEnd (R140). -/

namespace Sys2Proof.Machine

/-- `panel_rst_n <- level` (20_memory.md R86). -/
def drivePin (level : Bool) (s : State) : State :=
  { s with panelRstN := level, pinHistory := s.pinHistory ++ [if level then .high else .low] }

/-- `hold for RESET_PULSE` (40_driver.md R141, 70_reset_and_hazards.md R328). -/
def holdPin (s : State) : State := { s with pinHistory := s.pinHistory ++ [.hold s.cfg.resetPulse] }

/-- The pulse on the panel-reset pin, where the build has the line (40_driver.md R141). -/
def pulsePin (s : State) : State :=
  if s.cfg.hasResetLine then drivePin true (holdPin (drivePin false s)) else s

/-- PANEL_RESET (R141). -/
def execPanelReset (s : State) : Host.Outcome State Fault Refusal :=
  .next (endCommand (pulsePin s))

/-- FB all zero and the region widened to the whole canvas (R142). -/
def clearFb (s : State) : State :=
  { s with fb := [], dirty := s.dirty.widen 0 0 (s.cfg.width - 1) (s.cfg.height - 1) }

/-- CLEAR (R142). -/
def execClear (s : State) : Host.Outcome State Fault Refusal :=
  .next (endCommand (clearFb s))

/-- REFRESH (R143). -/
def execRefresh (s : State) : Host.Outcome State Fault Refusal :=
  .next (refresh s)

/-- The sentinel colour GET_PIXEL returns for a stored bit: ink is full black, background full white (R147). -/
def sentinelColour (bit : Bool) : Word := if bit then 0x000000 else 0xFFFFFF

/-- GET_PIXEL (R147). -/
def execGetPixel (s : State) : Host.Outcome State Fault Refusal :=
  .next (endCommand { s with result := sentinelColour (pbGet s.cfg s.fb (argS16 s 0) (argS16 s 1)) })

/-- The byte FB_READ returns: 0 at or past FB_BYTES (R144). -/
def fbByte (s : State) (i : Nat) : Byte := if i < s.cfg.fbBytes then s.fb.read i else 0

/-- FB_READ (R144). -/
def execFbRead (s : State) : Host.Outcome State Fault Refusal :=
  .next (endCommand { s with result := (fbByte s (argU16 s 0)).zeroExtend 32 })

/-- A byte stored in FB, widening by the 8 pixels it holds; nothing at or past FB_BYTES (R145). -/
def storeFbByte (i : Nat) (v : Byte) (s : State) : State :=
  if i < s.cfg.fbBytes then
    { s with
      fb := s.fb.write i v
      dirty := s.dirty.widen (i % s.cfg.width) (8 * (i / s.cfg.width)) (i % s.cfg.width) (8 * (i / s.cfg.width) + 7) }
  else s

/-- FB_WRITE (R145). -/
def execFbWrite (s : State) : Host.Outcome State Fault Refusal :=
  .next (endCommand (storeFbByte (argU16 s 0) (argU8 s 1) s))

/-- The transaction of TX_RAW (R146): `sel` 1 is DATA, 0 is COMMAND. -/
def rawTransaction (s : State) (sel : Bool) (off len : Nat) : TxRequest :=
  ⟨if sel then .data else .command, (List.range len).map (fun k => src s (off + k))⟩

/-- TX_RAW: the operand checks, then at most one transaction (R146, 60_exceptions.md R294). -/
def txRaw (sel : Bool) (off len : Nat) (s : State) : State :=
  if len > s.cfg.blockSize ∨ off + len > s.cfg.srcbufSize then raiseError .argError s
  else if len = 0 then endCommand s
  else transmit .nothing [rawTransaction s sel off len] s

/-- TX_RAW (R146). -/
def execTxRaw (s : State) : Host.Outcome State Fault Refusal :=
  .next (txRaw (argBit s 0) (argU16 s 1) (argU16 s 2) s)

end Sys2Proof.Machine
end

