-- ==== Sys2Proof/Machine/Text.lean ====
section
/-! DEFINITION. The commands BITMAP, WRITE_CHAR and WRITE_STRING, glyph rendering and the text cursor
(44_bitmap_text.md). -/

namespace Sys2Proof.Machine

/-- The points BITMAP plots: the set bits of the banded source bitmap (44_bitmap_text.md R260). -/
def bitmapPoints (s : State) (x y w h : Int) (off : Nat) : List Point :=
  if w ≤ 0 ∨ h ≤ 0 then []
  else (List.range h.toNat).flatMap (fun j => (List.range w.toNat).flatMap (fun i =>
    if (src s (off + i + j / 8 * w.toNat)).getLsbD (j % 8) then [⟨x + (i : Int), y + (j : Int)⟩] else []))

/-- ColumnBits(ch, k): five glyph columns and the blank spacing column (R261). -/
def columnBits (c : Config) (ch k : Nat) : Byte := if k < 5 then glyph c ch k else 0

/-- Cell(x, y, k, j, s) (R263). -/
def cellPoints (x y : Int) (k j sc : Nat) : List Point :=
  if sc = 1 then [⟨x + (k : Int), y + (j : Int)⟩]
  else fillRectPoints (x + (k : Int) * (sc : Int)) (y + (j : Int) * (sc : Int)) sc sc

/-- What DrawChar plots for cell pixel (k, j): ink, background, or nothing (R262). -/
def cellPixels (c : Config) (ink bg : Colour) (sc : Nat) (x y : Int) (ch k j : Nat) : List Pixel :=
  if (columnBits c ch k).getLsbD j then paint ink (cellPoints x y k j sc)
  else if bg ≠ ink then paint bg (cellPoints x y k j sc)
  else []

/-- DrawChar(x, y, ch) with the colours and the scale as arguments (R262). -/
def charPixels (c : Config) (ink bg : Colour) (sc : Nat) (x y : Int) (ch : Nat) : List Pixel :=
  (List.range 6).flatMap (fun k => (List.range 8).flatMap (fun j => cellPixels c ink bg sc x y ch k j))

/-- DrawChar(x, y, ch) at the current cursor (R262, R264). -/
def drawChar (ch : Byte) (s : State) : State :=
  plotAll (charPixels s.cfg s.textInk s.textBg s.textScale.toNat s.cursorX.toInt s.cursorY.toInt ch.toNat) s

/-- The newline of WriteChar (R264). -/
def newline (s : State) : State :=
  { s with cursorY := wrap16 (s.cursorY.toInt + 8 * (s.textScale.toNat : Int)), cursorX := 0 }

/-- The cursor's advance after a glyph, and the wrap test that follows it (R264). -/
def advance (s : State) : State :=
  let cx := wrap16 (s.cursorX.toInt + 6 * (s.textScale.toNat : Int))
  if s.ctrl.textWrap ∧ cx.toInt > (s.cfg.width : Int) - 6 * (s.textScale.toNat : Int) then newline { s with cursorX := cx }
  else { s with cursorX := cx }

/-- WriteChar(ch) (R264). -/
def writeChar (ch : Byte) (s : State) : State :=
  if ch = 0x0A then newline s
  else if ch = 0x0D then s
  else advance (drawChar ch s)

/-- The WriteChars of WRITE_STRING: `n` codes from SRC(i) on (R266). -/
def writeChars : Nat → Nat → State → State
  | 0, _, s => s
  | n + 1, i, s => writeChars n (i + 1) (writeChar (src s i) s)

/-- BITMAP (R260). -/
def execBitmap (s : State) : Host.Outcome State Fault Refusal :=
  .next (draw (paint (argColour s 4)
    (bitmapPoints s (argS16 s 0) (argS16 s 1) (argS16 s 2) (argS16 s 3) (argU16 s 5))) s)

/-- WRITE_CHAR (R265). -/
def execWriteChar (s : State) : Host.Outcome State Fault Refusal :=
  .next (commandEnd (writeChar (argU8 s 0) s))

/-- WRITE_STRING (R266). -/
def execWriteString (s : State) : Host.Outcome State Fault Refusal :=
  .next (commandEnd (writeChars (argU16 s 1) (argU16 s 0) s))

end Sys2Proof.Machine
end

