-- ==== Sys2Proof/Machine/Triangles.lean ====
section
/-! DEFINITION. The commands TRIANGLE and FILL_TRIANGLE (43_triangles.md). A helper is the sequence of points it passes
to Plot, in order. -/

namespace Sys2Proof.Machine

/-- The three lines of TRIANGLE (43_triangles.md R240). -/
def trianglePoints (x0 y0 x1 y1 x2 y2 : Int) : List Point :=
  linePoints x0 y0 x1 y1 ++ linePoints x1 y1 x2 y2 ++ linePoints x2 y2 x0 y0

/-- Exchange two vertices where the first lies lower: each conditional swap of the sort (R241). -/
def swapIf (p q : Point) : Point × Point := if p.y > q.y then (q, p) else (p, q)

/-- The vertex sort, by ascending y (R241). -/
def sortVertices (p0 p1 p2 : Point) : Point × Point × Point :=
  let s1 := swapIf p0 p1
  let s2 := swapIf s1.2 p2
  let s3 := swapIf s1.1 s2.1
  (s3.1, s3.2, s2.2)

/-- One more x value taken into the span of the flat case (R242). -/
def stretch (ab : Int × Int) (x : Int) : Int × Int :=
  if x < ab.1 then (x, ab.2) else if x > ab.2 then (ab.1, x) else ab

/-- The flat case: one span (R242). -/
def flatSpan (p0 p1 p2 : Point) : List Point :=
  let ab := stretch (stretch (p0.x, p0.x) p1.x) p2.x
  hrun ab.1 p0.y (ab.2 - ab.1 + 1)

/-- The span between two edge intercepts, swapped where a > b (R244, R245). -/
def spanPoints (a b y : Int) : List Point := if a > b then hrun b y (a - b + 1) else hrun a y (b - a + 1)

/-- The row loop of either sub-triangle (R244, R245): `n` rows from `y`, between the edges that start at x `xa` and `xb`,
with accumulators `sa` and `sb`. -/
def triRows (xa dxa dya xb dxb dyb : Int) : Nat → Int → Int → Int → List Point
  | 0, _, _, _ => []
  | n + 1, y, sa, sb =>
    spanPoints (xa + Int.tdiv sa dya) (xb + Int.tdiv sb dyb) y ++
      triRows xa dxa dya xb dxb dyb n (y + 1) (sa + dxa) (sb + dxb)

/-- `last`, the last row of the upper sub-triangle (R243). -/
def lastUpper (p1 p2 : Point) : Int := if p1.y = p2.y then p1.y else p1.y - 1

/-- The upper sub-triangle, edges 0-1 and 0-2, rows y0 .. last (R244). -/
def upperRows (p0 p1 p2 : Point) : List Point :=
  triRows p0.x (p1.x - p0.x) (p1.y - p0.y) p0.x (p2.x - p0.x) (p2.y - p0.y)
    (lastUpper p1 p2 - p0.y + 1).toNat p0.y 0 0

/-- The lower sub-triangle, edges 1-2 and 0-2, rows last + 1 .. y2 (R245). -/
def lowerRows (p0 p1 p2 : Point) : List Point :=
  let y := lastUpper p1 p2 + 1
  triRows p1.x (p2.x - p1.x) (p2.y - p1.y) p0.x (p2.x - p0.x) (p2.y - p0.y)
    (p2.y - y + 1).toNat y ((p2.x - p1.x) * (y - p1.y)) ((p2.x - p0.x) * (y - p0.y))

/-- FillTri once the vertices are sorted (R242 to R245). -/
def fillSorted (p0 p1 p2 : Point) : List Point :=
  if p0.y = p2.y then flatSpan p0 p1 p2 else upperRows p0 p1 p2 ++ lowerRows p0 p1 p2

/-- FillTri(x0, y0, x1, y1, x2, y2) (R247). -/
def fillTrianglePoints (x0 y0 x1 y1 x2 y2 : Int) : List Point :=
  let v := sortVertices ⟨x0, y0⟩ ⟨x1, y1⟩ ⟨x2, y2⟩
  fillSorted v.1 v.2.1 v.2.2

/-- TRIANGLE (R240). -/
def execTriangle (s : State) : Host.Outcome State Fault Refusal :=
  .next (draw (paint (argColour s 6)
    (trianglePoints (argS16 s 0) (argS16 s 1) (argS16 s 2) (argS16 s 3) (argS16 s 4) (argS16 s 5))) s)

/-- FILL_TRIANGLE (R247). -/
def execFillTriangle (s : State) : Host.Outcome State Fault Refusal :=
  .next (draw (paint (argColour s 6)
    (fillTrianglePoints (argS16 s 0) (argS16 s 1) (argS16 s 2) (argS16 s 3) (argS16 s 4) (argS16 s 5))) s)

end Sys2Proof.Machine
end

