-- ==== Sys2Proof/Machine/Dispatch.lean ====
section
/-! DEFINITION. One arm per command (30_encoding.md R101): the command's rule, CommandEnd where it is a drawing command,
and the end of the command (40_driver.md R130). -/

namespace Sys2Proof.Machine

def exec (i : Instr) (s : State) : Host.Outcome State Fault Refusal :=
  match i with
  -- driver
  | .panelReset => Sys2Proof.Machine.execPanelReset s
  | .clear => Sys2Proof.Machine.execClear s
  | .refresh => Sys2Proof.Machine.execRefresh s
  | .getPixel => Sys2Proof.Machine.execGetPixel s
  | .fbRead => Sys2Proof.Machine.execFbRead s
  | .fbWrite => Sys2Proof.Machine.execFbWrite s
  | .txRaw => Sys2Proof.Machine.execTxRaw s
  -- lines_rects
  | .pixel => Sys2Proof.Machine.execPixel s
  | .line => Sys2Proof.Machine.execLine s
  | .vline => Sys2Proof.Machine.execVline s
  | .hline => Sys2Proof.Machine.execHline s
  | .rect => Sys2Proof.Machine.execRect s
  | .fillRect => Sys2Proof.Machine.execFillRect s
  -- circles
  | .roundRect => Sys2Proof.Machine.execRoundRect s
  | .fillRoundRect => Sys2Proof.Machine.execFillRoundRect s
  | .circle => Sys2Proof.Machine.execCircle s
  | .fillCircle => Sys2Proof.Machine.execFillCircle s
  -- triangles
  | .triangle => Sys2Proof.Machine.execTriangle s
  | .fillTriangle => Sys2Proof.Machine.execFillTriangle s
  -- bitmap_text
  | .bitmap => Sys2Proof.Machine.execBitmap s
  | .writeChar => Sys2Proof.Machine.execWriteChar s
  | .writeString => Sys2Proof.Machine.execWriteString s

end Sys2Proof.Machine
end

