-- ==== Sys2Proof/Machine/HostPort.lean ====
section
/-! DEFINITION. The host register space (20_memory.md R75 to R78, R82; 10_state.md section 2): where an offset leads, what
a read returns and what a write does, idle and while BUSY (60_exceptions.md R295, 70_reset_and_hazards.md R325). Starting a
command stands in Events.lean. -/

namespace Sys2Proof.Machine

/-- The registers below the ARG registers, by byte offset (20_memory.md R75). -/
def registerMap : List (Nat × HostReg) :=
  [(0x000, .cmd), (0x004, .status), (0x008, .result), (0x00C, .ctrl), (0x010, .width), (0x014, .height),
   (0x018, .config), (0x020, .cursorX), (0x024, .cursorY)] ++
  [(0x028, .textInk), (0x02C, .textBg), (0x030, .textScale), (0x040, .dirtyXMin), (0x044, .dirtyYMin),
   (0x048, .dirtyXMax), (0x04C, .dirtyYMax)]

/-- What an offset that `registerMap` does not list leads to: ARG0..ARG7 at 0x080, the SRCBUF window at 0x1000, and
reserved offsets between; what lies past the window is the platform's (20_memory.md R75, R77, R78; log 9). -/
def windowReg (c : Config) (off : Nat) : HostReg :=
  if 0x080 ≤ off ∧ off < 0x0A0 then .arg (Fin.ofNat 8 ((off - 0x080) / 4))
  else if off < 0x1000 then .reserved
  else if (off - 0x1000) / 4 < c.srcbufSize then .srcbuf ((off - 0x1000) / 4)
  else .outside

/-- The location at a byte offset; address bits 1:0 are ignored (20_memory.md R75, R76). -/
def hostReg (c : Config) (off : Nat) : HostReg :=
  (registerMap.lookup (off / 4 * 4)).getD (windowReg c (off / 4 * 4))

/-- The value a register or window location holds, as a read returns it (10_state.md R33 to R45, 20_memory.md R77, R78).
The last row is never used: a read past the window is free. -/
def storedValue (s : State) : HostReg → Word
  | .cmd => 0
  | .status => statusWord s
  | .result => s.result
  | .ctrl => ctrlWord s.ctrl
  | .width => (BitVec.ofNat 16 s.cfg.width).zeroExtend 32
  | .height => (BitVec.ofNat 16 s.cfg.height).zeroExtend 32
  | .config => configWord s.cfg
  | .cursorX => s.cursorX.signExtend 32
  | .cursorY => s.cursorY.signExtend 32
  | .textInk => s.textInk.zeroExtend 32
  | .textBg => s.textBg.zeroExtend 32
  | .textScale => s.textScale.zeroExtend 32
  | .dirtyXMin => s.dirty.xMin.zeroExtend 32
  | .dirtyYMin => s.dirty.yMin.zeroExtend 32
  | .dirtyXMax => s.dirty.xMax.zeroExtend 32
  | .dirtyYMax => s.dirty.yMax.zeroExtend 32
  | .arg n => s.args[n]
  | .srcbuf i => (s.srcbuf.read i).zeroExtend 32
  | .reserved => 0
  | .outside => 0

/-- The registers a running command may be changing (10_state.md R49, 70_reset_and_hazards.md R325). -/
def inFlux : HostReg → Bool
  | .result | .cursorX | .cursorY | .dirtyXMin | .dirtyYMin | .dirtyXMax | .dirtyYMax => true
  | .cmd | .status | .ctrl | .width | .height | .config | .textInk | .textBg | .textScale | .arg _ | .srcbuf _
  | .reserved | .outside => false

/-- The read "returns any value": while `rst_n` is low (R320), past the window (93 S13), and, while BUSY, from a register
in flux (R325). -/
def readIsFree (s : State) (r : HostReg) : Bool :=
  !s.rstN || decide (r = .outside) || (s.busy && inFlux r)

/-- A host read: no side effect on the block (20_memory.md R82); what it returned goes to the host. -/
def hostRead (off : Nat) (s : State) : State :=
  if readIsFree s (hostReg s.cfg off) then
    { s with readLog := s.readLog ++ [⟨off, Config.freeWord s.freeCount⟩], freeCount := s.freeCount + 1 }
  else { s with readLog := s.readLog ++ [⟨off, storedValue s (hostReg s.cfg off)⟩] }

/-- A host write of `v` to a location, the block idle (10_state.md section 2, 20_memory.md R77, R78). A word written to CMD
that is no command latches ILLEGAL_COMMAND and does nothing else (60_exceptions.md R291); one that is a command starts it
(Events.lean). -/
def writeIdle (v : Word) (s : State) : HostReg → State
  | .cmd =>
    match decode v with
    | .ok _ => s
    | .error _ => latch .illegalCommand s
  | .status => if v.getLsbD 1 then clearError s else s
  | .ctrl => { s with ctrl := ctrlOf v }
  | .cursorX => { s with cursorX := v.extractLsb' 0 16 }
  | .cursorY => { s with cursorY := v.extractLsb' 0 16 }
  | .textInk => { s with textInk := v.extractLsb' 0 24 }
  | .textBg => { s with textBg := v.extractLsb' 0 24 }
  | .textScale => { s with textScale := textScaleOf v }
  | .arg n => { s with args := s.args.set n v }
  | .srcbuf i => { s with srcbuf := s.srcbuf.write i (v.extractLsb' 0 8) }
  | .result | .width | .height | .config | .dirtyXMin | .dirtyYMin | .dirtyXMax | .dirtyYMax => s
  | .reserved | .outside => s

/-- A host write of `v` to a location while BUSY: STATUS acts as at any other time, every other location of the block
latches OVERRUN and keeps its value (60_exceptions.md R295). What lies past the window is not the block's (log 9). -/
def writeBusy (v : Word) (s : State) : HostReg → State
  | .status => if v.getLsbD 1 then clearError s else s
  | .outside => s
  | .cmd | .result | .ctrl | .width | .height | .config | .cursorX | .cursorY | .textInk | .textBg | .textScale
  | .dirtyXMin | .dirtyYMin | .dirtyXMax | .dirtyYMax | .arg _ | .srcbuf _ | .reserved => latch .overrun s

/-- A host write: ignored while `rst_n` is low (70_reset_and_hazards.md R320). -/
def hostWrite (off : Nat) (v : Word) (s : State) : State :=
  if s.rstN then
    (if s.busy then writeBusy v s (hostReg s.cfg off) else writeIdle v s (hostReg s.cfg off))
  else s

/-- A host access that starts no command. -/
def access : Access → State → State
  | .read off, s => hostRead off s
  | .write off v, s => hostWrite off v s

/-- Host accesses in the order the host issues them (20_memory.md R87). -/
def accesses : List Access → State → State
  | [], s => s
  | a :: as, s => accesses as (access a s)

/-- The command a host access starts: a write to CMD, the block out of reset and idle, of a word that is a command
(40_driver.md R130, 60_exceptions.md R298). -/
def startedBy (a : Access) (s : State) : Option Instr :=
  match a with
  | .read _ => none
  | .write off v =>
    if s.rstN ∧ ¬ s.busy ∧ hostReg s.cfg off = .cmd then
      match decode v with
      | .ok i => some i
      | .error _ => none
    else none

end Sys2Proof.Machine
end

