-- ==== Sys2Proof/Machine/Events.lean ====
section
/-! DEFINITION. What each event of the outside world does (70_reset_and_hazards.md R330): a host access, with the commands
it starts (40_driver.md R130); the transport's answer to a waiting command (20_memory.md R85); the reset input (R320). -/

namespace Sys2Proof.Machine

/-- BUSY becomes 1 when a CMD write starts a command (10_state.md R35). -/
def startCommand (s : State) : State := { s with busy := true }

/-- The host's next accesses, put back at the head of the schedule. -/
def requeue (as : List Access) (s : State) : State :=
  { s with events := as.map (fun a => .host a []) ++ s.events }

/-- A host access and what the host does meanwhile (R330): where the access starts a command, BUSY becomes 1, the
accesses of `meanwhile` find the block BUSY, and the command runs, its operands being what ARG0..ARG6 held at the CMD
write, since no write changes them while BUSY (40_driver.md R130, R326; log 3). -/
def runHost (a : Access) (meanwhile : List Access) (s : State) : Host.Outcome State Fault Refusal :=
  match startedBy a s with
  | some i => exec i (accesses meanwhile (startCommand s))
  | none => .next (requeue meanwhile (access a s))

/-- The transport answers the outstanding transaction, and the command that waits on it goes on; where none is
outstanding there is nothing to answer (20_memory.md R85; log 4). -/
def runTransport (ok : Bool) (s : State) : State :=
  match s.inflight with
  | none => s
  | some f => transmit f.after f.pending { s with answers := ok :: s.answers }

/-- `rst_n` goes low: the running command is abandoned and the panel-reset pin held high (R320; log 11). -/
def rstFalls (s : State) : State :=
  { s with rstN := false, panelRstN := true, busy := false, inflight := none }

/-- `rst_n` goes high: every piece of state takes its reset value (R320, 10_state.md R52). The schedule, the answers, the
host's read log and the free-value counter are not the block's (log 2, 4, 5, 12). -/
def rstRises (s : State) : State :=
  if s.rstN then s
  else { State.resetWith s.cfg with
    events := s.events, answers := s.answers, readLog := s.readLog, freeCount := s.freeCount }

/-- One event. -/
def runEvent (e : Event) (s : State) : Host.Outcome State Fault Refusal :=
  match e with
  | .host a meanwhile => runHost a meanwhile s
  | .transport ok => .next (runTransport ok s)
  | .rstLow => .next (rstFalls s)
  | .rstHigh => .next (rstRises s)

/-- The next event of the schedule, if any; with none the block does nothing: idle, or waiting for the transport
(R327; log 2). -/
def runNext (s : State) : Host.Outcome State Fault Refusal :=
  match s.events with
  | [] => .next s
  | e :: es => runEvent e { s with events := es }

end Sys2Proof.Machine
end

