-- ==== Sys2Proof/Machine/Step.lean ====
section
/-! DEFINITION. One step of the machine: the next event of the schedule. The block fetches nothing (10_state.md R30): its
commands are the host's writes to CMD, which the schedule holds (log 2). -/

namespace Sys2Proof.Machine

/-- One step. A reserved error code found latched faults (93_implementation_defined.md S11); a configuration the block
cannot be built with has no step (00_scope.md R7). -/
def step (s : State) : Host.Outcome State Fault Refusal :=
  if 4 < s.errCode.toNat then .fault .reservedErrorCode
  else if s.cfg.legal then runNext s
  else .refused .illegalConfiguration

/-- `s` with the command word `w` as the host's next access: a write to CMD, the block out of reset and idle, so that the
very next step runs it (log 2). -/
def State.withFetchWord (s : State) (nbits w : Nat) : State :=
  { s with
    events := .host (.write 0x000 (BitVec.ofNat 32 (w % 2 ^ nbits))) [] :: s.events
    rstN := true
    busy := false
    inflight := none }

end Sys2Proof.Machine
end

