-- ==== Sys2Proof/Safety.lean ====
section
/-! DEFINITION. What a sound state is, in the terms statements use: the invariant of the machine (10_state.md R47 among
its clauses). `State.Sound` is what a running command may rely on; `State.Inv` adds how BUSY and the in-flight state go
together between steps. -/

namespace Sys2Proof.Machine

/-- The dirty region lies in the canvas: 0 ≤ XMIN ≤ XMAX ≤ WIDTH − 1 and 0 ≤ YMIN ≤ YMAX ≤ HEIGHT − 1 (10_state.md R47). -/
def Region.inside (c : Config) (r : Region) : Prop :=
  r.xMin.toNat ≤ r.xMax.toNat ∧ r.xMax.toNat < c.width ∧ r.yMin.toNat ≤ r.yMax.toNat ∧ r.yMax.toNat < c.height

/-- The pixel lies in the region, corners included (10_state.md R45). -/
def Region.contains (r : Region) (x y : Int) : Prop :=
  (r.xMin.toNat : Int) ≤ x ∧ x ≤ (r.xMax.toNat : Int) ∧ (r.yMin.toNat : Int) ≤ y ∧ y ≤ (r.yMax.toNat : Int)

/-- A transaction carries 1 to BLOCK_SIZE bytes (20_memory.md R85). -/
def blockSized (c : Config) (bytes : List Byte) : Prop := 1 ≤ bytes.length ∧ bytes.length ≤ c.blockSize

/-- What holds of the block's state between and during commands. -/
structure State.Sound (s : State) : Prop where
  /-- the block can be built (00_scope.md R7) -/
  cfgLegal   : s.cfg.legal = true
  /-- 10_state.md R47 -/
  region     : s.dirty = Region.sentinel s.cfg ∨ s.dirty.inside s.cfg
  /-- the memories keep their canonical form, the model's choice (log 14), and their size (20_memory.md R71, R73) -/
  fbForm     : s.fb.wf
  fbSize     : s.fb.within s.cfg.fbBytes
  srcForm    : s.srcbuf.wf
  srcSize    : s.srcbuf.within s.cfg.srcbufSize
  /-- the text scale is never 0 (10_state.md R44) -/
  scale      : s.textScale ≠ 0
  /-- ERR_CODE is 0 when ERR = 0 (10_state.md R34), and never a reserved code (60_exceptions.md R290) -/
  codeClear  : s.err = false → s.errCode = 0
  codeLatched : s.err = true → 1 ≤ s.errCode.toNat ∧ s.errCode.toNat ≤ 4
  /-- RESULT holds a colour word or a byte: bits 31:24 are zero (10_state.md R36) -/
  resultTop  : s.result.extractLsb' 24 8 = 0
  /-- the panel-reset pin is high: the model's choice, since a whole pulse is one step (log 10; 20_memory.md R86) -/
  pinHigh    : s.panelRstN = true
  /-- 20_memory.md R85 -/
  sizes      : ∀ t ∈ s.history, blockSized s.cfg t.bytes

/-- The invariant of the machine between steps. -/
structure State.Inv (s : State) : Prop extends State.Sound s where
  /-- between steps BUSY is 1 exactly while a command waits on a transaction: the model's choice, since a command without a
  wait is one step (log 3; 10_state.md R35, R49) -/
  waiting    : s.busy = s.inflight.isSome
  /-- in reset nothing runs (70_reset_and_hazards.md R320) -/
  inReset    : s.rstN = false → s.busy = false
  /-- a waiting command has an outstanding transaction, and each it has to send carries 1 to BLOCK_SIZE bytes -/
  pending    : ∀ f, s.inflight = some f → f.pending ≠ [] ∧ ∀ t ∈ f.pending, blockSized s.cfg t.bytes

end Sys2Proof.Machine
end

