-- ==== Sys2Proof/Certificates/Slice0/Obligations.lean ====
section
/-! DEFINITION. The statements for the provers, from the numbered rules of spec/. Each docstring names its rules. The
predicates of `Sys2Proof.Claims` say independently of the model's loops which pixels a command writes, and what it leaves
unchanged: `t = { s with fb := t.fb, … }` says that every field not named is unchanged. -/

namespace Sys2Proof.Claims

open Sys2Proof.Machine

/-! ### What a drawing command does -/

/-- The dirty region went from `r` to `r'` by covering every canvas pixel of `shape` and no more: each corner is the
extreme of the old corner and the pixels (40_driver.md R133, R134). -/
structure Grew (c : Config) (r r' : Region) (shape : Int → Int → Prop) : Prop where
  xMin : ∀ n : Nat, n ≤ r'.xMin.toNat ↔
    n ≤ r.xMin.toNat ∧ ∀ x y, inCanvas c x y → shape x y → (n : Int) ≤ x
  yMin : ∀ n : Nat, n ≤ r'.yMin.toNat ↔
    n ≤ r.yMin.toNat ∧ ∀ x y, inCanvas c x y → shape x y → (n : Int) ≤ y
  xMax : ∀ n : Nat, r'.xMax.toNat ≤ n ↔
    r.xMax.toNat ≤ n ∧ ∀ x y, inCanvas c x y → shape x y → x ≤ (n : Int)
  yMax : ∀ n : Nat, r'.yMax.toNat ≤ n ↔
    r.yMax.toNat ≤ n ∧ ∀ x y, inCanvas c x y → shape x y → y ≤ (n : Int)

/-- The framebuffer and the region went from those of `s` to those of `t` by writing the bits `paints x y k`: every canvas
pixel painted has its new bit, every other one its old bit; every framebuffer byte that holds no painted pixel reads as
before; the region grew by the painted canvas pixels. -/
structure Painted (s t : State) (paints : Int → Int → Bool → Prop) : Prop where
  written : ∀ x y k, inCanvas s.cfg x y → paints x y k → pbGet s.cfg t.fb x y = k
  kept    : ∀ x y, inCanvas s.cfg x y → (∀ k, ¬ paints x y k) → pbGet s.cfg t.fb x y = pbGet s.cfg s.fb x y
  bytes   : ∀ i, (∀ x y k, inCanvas s.cfg x y → paints x y k → pixIndex s.cfg x.toNat y.toNat ≠ i) →
    t.fb.read i = s.fb.read i
  box     : Grew s.cfg s.dirty t.dirty (fun x y => ∃ k, paints x y k)

/-- Command `i` started in `s` draws `shape` in colour `col`: it changes the framebuffer and the region as `Painted` says
and nothing else, then ends; with AUTO_REFRESH = 1 it goes on as one REFRESH of the drawn state (40_driver.md R140). -/
def Draws (i : Instr) (s : State) (col : Colour) (shape : Int → Int → Prop) : Prop :=
  ∃ t : State, t = { s with fb := t.fb, dirty := t.dirty, busy := false, inflight := none } ∧
    Painted s t (fun x y k => shape x y ∧ k = inkOf col) ∧
    (s.ctrl.autoRefresh = false → exec i s = .next t) ∧ (s.ctrl.autoRefresh = true → exec i s = exec .refresh t)

/-- The lattice points of a line of at most one minor step per major step, from (a0, b0) to (a1, b1), a the major axis and
a0 ≤ a1: in column a0 + k the minor coordinate has moved ⌊(k·d + D − 1 − ⌊D/2⌋) / D⌋ towards b1 (41_lines_rects.md R181,
the loop's accumulator in closed form). -/
def onSlope (a0 b0 a1 b1 a b : Int) : Prop :=
  a0 ≤ a ∧ a ≤ a1 ∧
    b = b0 + (if b0 < b1 then 1 else -1) *
      (((a - a0) * |b1 - b0| + (a1 - a0) - 1 - (a1 - a0) / 2) / (a1 - a0))

/-- The line starts from the endpoint of smaller major coordinate (R181). -/
def onMajor (a0 b0 a1 b1 a b : Int) : Prop :=
  if a0 > a1 then onSlope a1 b1 a0 b0 a b else onSlope a0 b0 a1 b1 a b

/-- The pixels of LINE x0, y0, x1, y1 (R181): the major axis is y exactly if |dy| > |dx|. -/
def onLine (x0 y0 x1 y1 x y : Int) : Prop :=
  if |y1 - y0| > |x1 - x0| then onMajor y0 x0 y1 x1 y x else onMajor x0 y0 x1 y1 x y

/-- (a, b) or (b, a) is a step of the circle of radius r (42_circles.md R210). -/
def stepOf (r a b : Int) : Prop := (a, b) ∈ circleSteps r ∨ (b, a) ∈ circleSteps r

/-- The pixels of CIRCLE x0, y0, r (42_circles.md R211). -/
def onCircle (x0 y0 r x y : Int) : Prop :=
  0 ≤ r ∧ (|x - x0| = 0 ∧ |y - y0| = r ∨ |x - x0| = r ∧ |y - y0| = 0 ∨ stepOf r |x - x0| |y - y0|)

/-- The pixels of FILL_CIRCLE x0, y0, r (R213, R214). -/
def inDisc (x0 y0 r x y : Int) : Prop :=
  0 ≤ r ∧ (x = x0 ∧ |y - y0| ≤ r ∨ ∃ b, stepOf r |x - x0| b ∧ |y - y0| ≤ b)

/-- The pixels of ROUND_RECT x, y, w, h with clamped radius r (R216, R217): foreshortened edges and four corner arcs. -/
def onRoundRect (x0 y0 w h r x y : Int) : Prop :=
  0 < w ∧ 0 < h ∧
    (x0 + r ≤ x ∧ x ≤ x0 + w - r - 1 ∧ (y = y0 ∨ y = y0 + h - 1) ∨
     y0 + r ≤ y ∧ y ≤ y0 + h - r - 1 ∧ (x = x0 ∨ x = x0 + w - 1) ∨
     ∃ a b, stepOf r a b ∧ (x = x0 + r - a ∨ x = x0 + w - r - 1 + a) ∧ (y = y0 + r - b ∨ y = y0 + h - r - 1 + b))

/-- The pixels of FILL_ROUND_RECT x, y, w, h with clamped radius r (R216, R218). -/
def inRoundRect (x0 y0 w h r x y : Int) : Prop :=
  0 < w ∧ 0 < h ∧
    (x0 + r ≤ x ∧ x ≤ x0 + w - r - 1 ∧ y0 ≤ y ∧ y ≤ y0 + h - 1 ∨
     ∃ a b, stepOf r a b ∧ (x = x0 + r - a ∨ x = x0 + w - r - 1 + a) ∧ y0 + r - b ≤ y ∧ y ≤ y0 + h - r - 1 + b)

/-- x lies between a and b, either way round. -/
def between (a b x : Int) : Prop := min a b ≤ x ∧ x ≤ max a b

/-- The x intercept in row y of the edge from p to q (43_triangles.md R244, R245, the accumulators as products). -/
def intercept (p q : Point) (y : Int) : Int := p.x + Int.tdiv ((y - p.y) * (q.x - p.x)) (q.y - p.y)

/-- The pixels of FILL_TRIANGLE for vertices ordered by ascending y (R242 to R247). -/
def inTriangle (p0 p1 p2 : Point) (x y : Int) : Prop :=
  p0.y ≤ y ∧ y ≤ p2.y ∧
    if p0.y = p2.y then min p0.x (min p1.x p2.x) ≤ x ∧ x ≤ max p0.x (max p1.x p2.x)
    else if y < p1.y ∨ p1.y = p2.y then between (intercept p0 p1 y) (intercept p0 p2 y) x
    else between (intercept p1 p2 y) (intercept p0 p2 y) x

/-- The pixels of BITMAP (44_bitmap_text.md R260): bit (j mod 8) of SRC(off + i + (j/8)·w), 0 past SRCBUF_SIZE. -/
def inBitmap (s : State) (x0 y0 w h : Int) (off : Nat) (x y : Int) : Prop :=
  x0 ≤ x ∧ x < x0 + w ∧ y0 ≤ y ∧ y < y0 + h ∧
    let i := off + (x - x0).toNat + (y - y0).toNat / 8 * w.toNat
    i < s.cfg.srcbufSize ∧ (s.srcbuf.read i).getLsbD ((y - y0).toNat % 8) = true

/-- What a character other than newline and carriage return paints at scale TEXT_SCALE (R261 to R263): cell pixel (k, j)
is a block of the scale's size, ink where bit j of glyph column k is set, background colour elsewhere unless equal. -/
def paintsChar (s : State) (ch : Byte) (x y : Int) (k : Bool) : Prop :=
  ch ≠ 0x0A ∧ ch ≠ 0x0D ∧
  let sc : Int := s.textScale.toNat
  let dx := x - s.cursorX.toInt
  let dy := y - s.cursorY.toInt
  0 ≤ dx ∧ dx < 6 * sc ∧ 0 ≤ dy ∧ dy < 8 * sc ∧
    if dx / sc < 5 ∧ (glyph s.cfg ch.toNat (dx / sc).toNat).getLsbD (dy / sc).toNat = true then k = inkOf s.textInk
    else s.textBg ≠ s.textInk ∧ k = inkOf s.textBg

/-- CURSOR_X and CURSOR_Y after character `ch` (R264). -/
def cursorAfter (s : State) (ch : Byte) : Half × Half :=
  let sc : Int := s.textScale.toNat
  let down : Half × Half := (0, BitVec.ofInt 16 (s.cursorY.toInt + 8 * sc))
  let right : Half := BitVec.ofInt 16 (s.cursorX.toInt + 6 * sc)
  if ch = 0x0A then down
  else if ch = 0x0D then (s.cursorX, s.cursorY)
  else if s.ctrl.textWrap = true ∧ right.toInt > (s.cfg.width : Int) - 6 * sc then down
  else (right, s.cursorY)

/-- How an argument register is read (30_encoding.md R107): as a coordinate or size, a colour, an index, offset or length, a
byte, a selector, or not at all. -/
inductive ArgKind where
  | s16 | col | u16 | u8 | bit | unread
deriving DecidableEq, Repr

/-- The operand kinds of ARG0, ARG1, … of a command, the dashes at the end left out (30_encoding.md R107). -/
def argKinds : Instr → List ArgKind
  | .panelReset | .clear | .refresh => []
  | .getPixel => [.s16, .s16]
  | .fbRead => [.u16]
  | .fbWrite => [.u16, .u8]
  | .txRaw => [.bit, .u16, .u16]
  | .pixel => [.s16, .s16, .col]
  | .line | .rect | .fillRect => [.s16, .s16, .s16, .s16, .col]
  | .vline | .hline | .circle | .fillCircle => [.s16, .s16, .s16, .col]
  | .roundRect | .fillRoundRect => [.s16, .s16, .s16, .s16, .s16, .col]
  | .triangle | .fillTriangle => [.s16, .s16, .s16, .s16, .s16, .s16, .col]
  | .bitmap => [.s16, .s16, .s16, .s16, .col, .u16]
  | .writeChar => [.u8]
  | .writeString => [.u16, .u16]

/-- How many low bits of a register a kind of operand has (30_encoding.md R104 to R106). -/
def ArgKind.width : ArgKind → Nat
  | .s16 => 16
  | .col => 24
  | .u16 => 16
  | .u8 => 8
  | .bit => 1
  | .unread => 0

/-- The two register values agree in the bits that command `i` reads of ARGn; all others are free. -/
def sameOperand (i : Instr) (n : Fin 8) (v w : Word) : Prop :=
  v.toNat % 2 ^ ((argKinds i).getD n.val .unread).width = w.toNat % 2 ^ ((argKinds i).getD n.val .unread).width

/-- `s` with ARG0 holding `v`. -/
def withArg0 (s : State) (v : Word) : State := { s with args := s.args.set 0 v }

/-- `s` with the operands of FB_WRITE. -/
def withFbWriteArgs (s : State) (i : Nat) (v : Byte) : State :=
  { s with args := (s.args.set 0 (BitVec.ofNat 32 i)).set 1 (v.zeroExtend 32) }

/-- `u` is what FB_WRITEs of `v 0`, …, `v (n − 1)` to the indices 0 … n − 1 make of `s`. -/
def Loads (v : Nat → Byte) : Nat → State → State → Prop
  | 0, s, u => u = s
  | n + 1, s, u => ∃ m, Loads v n s m ∧ exec .fbWrite (withFbWriteArgs m n (v n)) = .next u

/-! ### The refresh engine -/

/-- The transactions of one band for columns x0 … x1: the select, then the band's bytes in consecutive blocks of
BLOCK_SIZE, the last of which may be shorter (40_driver.md R138). -/
def BandPlan (c : Config) (fb : Memory) (x0 x1 band : Nat) (ts : List TxRequest) : Prop :=
  ∃ blocks : List (List Byte),
    ts = ⟨.command, selectBytesOf c band (x0 + c.colOffset)⟩ :: blocks.map (fun b => ⟨.data, b⟩) ∧
    blocks.flatten = (List.range (x1 - x0 + 1)).map (fun k => fb.read (band * c.width + x0 + k)) ∧
    (∀ b ∈ blocks.dropLast, b.length = c.blockSize) ∧ (∀ b ∈ blocks, 1 ≤ b.length ∧ b.length ≤ c.blockSize)

/-- The corners of the box a refresh sends (40_driver.md R137). -/
def boxOf (s : State) : Nat × Nat × Nat × Nat :=
  if s.ctrl.partialUpdate = true then (s.dirty.xMin.toNat, s.dirty.yMin.toNat, s.dirty.xMax.toNat, s.dirty.yMax.toNat)
  else (0, 0, s.cfg.width - 1, s.cfg.height - 1)

/-- The region is the empty sentinel (10_state.md R46). -/
def isSentinel (c : Config) (r : Region) : Prop :=
  r.xMin.toNat = c.width ∧ r.yMin.toNat = c.height ∧ r.xMax.toNat = 0 ∧ r.yMax.toNat = 0

/-- The region is the whole canvas (70_reset_and_hazards.md R322). -/
def isCanvas (c : Config) (r : Region) : Prop :=
  r.xMin.toNat = 0 ∧ r.yMin.toNat = 0 ∧ r.xMax.toNat = c.width - 1 ∧ r.yMax.toNat = c.height - 1

/-- What a panel of R148's assumption does with one byte: a data byte goes to the column pointer, which moves on by one; a
command byte of R139 sets the page or a nibble of the column pointer. The panel is (page, column, display RAM by page and
column); it is no part of the block (log 15). -/
def panelByte (sel : TxSelect) (p : Nat × Nat × (Nat → Nat → Byte)) (b : Byte) : Nat × Nat × (Nat → Nat → Byte) :=
  match sel with
  | .data => (p.1, p.2.1 + 1, fun page col => if page = p.1 ∧ col = p.2.1 then b else p.2.2 page col)
  | .command =>
    if 0xB0 ≤ b.toNat ∧ b.toNat ≤ 0xBF then (b.toNat - 0xB0, p.2.1, p.2.2)
    else if b.toNat < 0x10 then (p.1, p.2.1 / 16 * 16 + b.toNat, p.2.2)
    else if b.toNat < 0x20 then (p.1, (b.toNat - 0x10) * 16 + p.2.1 % 16, p.2.2)
    else p

/-- The panel after the delivered transactions `ts`. -/
def panelAfter (p : Nat × Nat × (Nat → Nat → Byte)) (ts : List TxRequest) : Nat × Nat × (Nat → Nat → Byte) :=
  ts.foldl (fun p t => t.bytes.foldl (panelByte t.sel) p) p

/-- `s` after Latch(code) (60_exceptions.md R292): the first code since the last clear is kept. -/
def latched (code : BitVec 4) (s : State) : State :=
  { s with err := true, errCode := if s.err then s.errCode else code }

/-! ### The host port -/

/-- The block is out of reset and idle, and its state sound. -/
def Ready (s : State) : Prop := s.Inv ∧ s.rstN = true ∧ s.busy = false

/-- The host's next access is `a`; `es` is what comes after. -/
def asked (s : State) (a : Access) (es : List Event) : State := { s with events := .host a [] :: es }

/-- The host's read of `off` returned `v` and changed nothing in the block (20_memory.md R82). -/
def gotBack (s : State) (es : List Event) (off : Nat) (v : Word) : State :=
  { s with events := es, readLog := s.readLog ++ [⟨off, v⟩] }

/-- A Bool as a number. -/
def bit (b : Bool) : Nat := if b then 1 else 0

/-- STATUS as a number (10_state.md R34). -/
def statusNumber (s : State) : Nat := bit s.busy + 2 * bit s.err + 256 * s.errCode.toNat

/-- Every canvas pixel in which the framebuffer differs from the image `m` lies in the dirty region. -/
def SoundSince (s : State) (m : Memory) : Prop :=
  ∀ x y, inCanvas s.cfg x y → pbGet s.cfg s.fb x y ≠ pbGet s.cfg m x y → s.dirty.contains x y

end Sys2Proof.Claims

open Sys2Proof Sys2Proof.Machine Sys2Proof.Claims

/-! ### Encoding -/

/-- 30_encoding.md R101: one word of each family of the opcode map decodes to its command. -/
def Obligations.OpcodeMapWordsDecode : Prop :=
  decode 0x00000001#32 = .ok .panelReset ∧ decode 0x00000007#32 = .ok .txRaw ∧ decode 0x00000011#32 = .ok .line ∧
  decode 0x00000015#32 = .ok .fillRect ∧ decode 0x00000018#32 = .ok .circle ∧
  decode 0x0000001B#32 = .ok .fillTriangle ∧ decode 0x0000001C#32 = .ok .bitmap ∧
  decode 0x00000021#32 = .ok .writeString

/-- 30_encoding.md R102, R103: each of the 2^32 words has one meaning. A word is command `i` exactly if it is `i`'s
encoding; every other word is refused, for its reserved bits or for its opcode; and the encoding of every command
decodes to it. -/
def Obligations.DecodeIsTheInverseOfEncode : Prop :=
  (∀ (v : Word) (i : Instr), decode v = .ok i ↔ v = encode i) ∧
  (∀ v : Word, decode v = .error .reservedBits ↔ 256 ≤ v.toNat) ∧
  (∀ v : Word, decode v = .error .illegalOpcode ↔
    v.toNat = 0 ∨ (0x08 ≤ v.toNat ∧ v.toNat ≤ 0x0F) ∨ (0x1D ≤ v.toNat ∧ v.toNat ≤ 0x1F) ∨
      (0x22 ≤ v.toNat ∧ v.toNat ≤ 0xFF))

/-! ### Steps, errors, reset -/

/-- 40_driver.md R130: a host write to CMD of a word that decodes to command `i`, the block idle, is one step, and that
step is `exec` of `i` with BUSY = 1, after what the host does meanwhile (`accesses`, which finds the block BUSY). The
schedule the write stands in, and where the host's meanwhile accesses fall, are the model's (log 2, 3). -/
def Obligations.StepRunsTheDecodedCommand : Prop :=
  ∀ (s : State) (v : Word) (i : Instr) (meanwhile : List Access) (es : List Event),
    Ready s → decode v = .ok i →
    step { s with events := .host (.write 0x000 v) meanwhile :: es } =
      exec i (accesses meanwhile { s with events := es, busy := true })

/-- 60_exceptions.md R291: a CMD write, BUSY = 0, of a word that is no command (30_encoding.md R102, R103: the opcodes that
are left, and every word with a bit of 31:8 set) latches ILLEGAL_COMMAND (code 1) and does nothing else, whatever
CTRL.AUTO_REFRESH says. -/
def Obligations.IllegalCommandOnlyLatches : Prop :=
  ∀ (s : State) (v : Word) (es : List Event), Ready s →
    (v.toNat = 0x00 ∨ (0x08 ≤ v.toNat ∧ v.toNat ≤ 0x0F) ∨ (0x1D ≤ v.toNat ∧ v.toNat ≤ 0x1F) ∨ 0x22 ≤ v.toNat) →
    step (asked s (.write 0x000 v) es) = .next (latched 1 { s with events := es })

/-- 60_exceptions.md R295: in every state in which BUSY = 1, out of reset, a host write to any offset of the block but STATUS
is ignored and latches OVERRUN (code 4), the running command is not disturbed, and a write to STATUS acts as at any other
time. That is what an access does before a running command's body (`accesses`, in the order of 20_memory.md R87(a)), and what a
step does whose event is an access, while a command waits for the transport. -/
def Obligations.WriteWhileBusyIsAnOverrun : Prop :=
  ∀ s : State, s.rstN = true → s.busy = true →
    (∀ off v, off / 4 ≠ 1 → off < 0x1000 + 4 * s.cfg.srcbufSize → access (.write off v) s = latched 4 s) ∧
    (∀ off v, off / 4 = 1 → access (.write off v) s =
      if v.getLsbD 1 = true then { s with err := false, errCode := 0 } else s) ∧
    accesses [] s = s ∧ (∀ a as, accesses (a :: as) s = accesses as (access a s)) ∧
    (s.Inv → ∀ a es, step (asked s a es) = .next (access a { s with events := es }))

/-- 60_exceptions.md R300, 10_state.md R34: a host write to STATUS with bit 1 set clears ERR and ERR_CODE at any time,
BUSY or not; with bit 1 clear it changes nothing. -/
def Obligations.StatusWriteClearsTheError : Prop :=
  ∀ (s : State) (v : Word) (es : List Event), s.Inv → s.rstN = true →
    step (asked s (.write 0x004 v) es) =
      .next (if v.getLsbD 1 = true then { s with events := es, err := false, errCode := 0 }
        else { s with events := es })

/-- 10_state.md R52, 70_reset_and_hazards.md R321, R322: the state after reset of a block of any parameters. -/
def Obligations.ResetValues : Prop :=
  ∀ c : Config, c.legal = true →
    let s := State.resetWith c
    (∀ n : Fin 8, s.args[n] = 0) ∧ s.busy = false ∧ s.err = false ∧ s.errCode = 0 ∧ s.result = 0 ∧
    s.ctrl.autoRefresh = false ∧ s.ctrl.partialUpdate = true ∧ s.ctrl.textWrap = true ∧
    s.cursorX = 0 ∧ s.cursorY = 0 ∧ s.textInk = 0 ∧ s.textBg = 0 ∧ s.textScale = 1 ∧
    isCanvas c s.dirty ∧ (∀ i, s.fb.read i = c.initImage.read i) ∧ (∀ i, s.srcbuf.read i = 0) ∧
    s.panelRstN = true ∧ s.inflight = none ∧ s.cfg = c

/-- 70_reset_and_hazards.md R320: when `rst_n` goes low the running command is abandoned and `panel_rst_n` is high; while
it is low host writes are ignored and no transaction is issued or answered; when it goes high every piece of state takes
its reset value (the schedule, the drawn answers, the host's read log and the counter are the model's own: log 2, 4, 5,
12; what the registers hold while it is low: log 11). -/
def Obligations.ResetAbandonsAndRestores : Prop :=
  ∀ (s : State) (es : List Event), s.Inv →
    (∃ t, step { s with events := .rstLow :: es } = .next t ∧ t.rstN = false ∧ t.panelRstN = true ∧ t.inflight = none ∧
      t.history = s.history ∧ t.events = es) ∧
    (s.rstN = false →
      (∀ off v, step (asked s (.write off v) es) = .next { s with events := es }) ∧
      (∀ ok, step { s with events := .transport ok :: es } = .next { s with events := es }) ∧
      step { s with events := .rstHigh :: es } = .next { State.resetWith s.cfg with
        events := es, answers := s.answers, readLog := s.readLog, freeCount := s.freeCount })

/-- 00_scope.md R7, 93_implementation_defined.md S11 (DERIVED): a configuration the block cannot be built with has no
step, and a reserved error code found latched faults (log 13). -/
def Obligations.IllegalBlocksHaveNoStep : Prop :=
  ∀ s : State,
    (s.errCode.toNat ≤ 4 → s.cfg.legal = false → step s = .refused .illegalConfiguration) ∧
    (5 ≤ s.errCode.toNat → step s = .fault .reservedErrorCode)

/-! ### The invariant -/

/-- The invariant holds right after reset, of every block that can be built. Its clauses on BUSY, on the pin and on the form of
the memories are the model's choice (log 3, 10, 14). -/
def Obligations.InvariantHoldsAtReset : Prop :=
  ∀ c : Config, c.legal = true → (State.resetWith c).Inv

/-- HEADLINE (10_state.md R47 among the clauses): every step of the machine keeps the invariant: the dirty region is the
sentinel or lies in the canvas, both memories keep their size, TEXT_SCALE is never 0, ERR_CODE is never reserved and is 0 while
ERR is, RESULT's top byte is 0, every transaction carries 1 to BLOCK_SIZE bytes, the parameters are legal. Three clauses are
the MODEL'S CHOICE and no rule of the spec: that BUSY is 1 between steps exactly while a transaction is outstanding (log 3: a
command without a wait is one step), that the panel-reset pin is high between steps (log 10: the whole pulse is one step), and
the canonical form of the memories (log 14). -/
def Obligations.EveryStepKeepsTheInvariant : Prop :=
  ∀ s t : State, s.Inv → step s = .next t → t.Inv

/-- 60_exceptions.md R299, 30_encoding.md R108: nothing stops. From every state that meets the invariant the machine has a
next state, whatever the outside world does, and goes on having one. -/
def Obligations.SoundMachinesNeverStop : Prop :=
  ∀ (s : State) (n : Nat), s.Inv → ∃ t : State, Sys2Proof.core.run n s = .next t ∧ t.Inv ∧ t.cfg = s.cfg

/-! ### Driver commands -/

/-- 40_driver.md R141: PANEL_RESET pulses the panel-reset pin low, holds it for RESET_PULSE and drives it high where the
build has the line, does nothing where it has none, and changes nothing else. The record of the pin's levels and of the
hold is the model's (log 10, 12). -/
def Obligations.PanelResetPulsesThePin : Prop :=
  decode 0x00000001#32 = .ok .panelReset ∧
  ∀ s : State, s.panelRstN = true → exec .panelReset s = .next { s with
    pinHistory := s.pinHistory ++ (if s.cfg.hasResetLine = true then [.low, .hold s.cfg.resetPulse, .high] else [])
    panelRstN := true, busy := false, inflight := none }

/-- 40_driver.md R142: CLEAR zeroes every framebuffer byte and makes the region the whole canvas, and changes nothing
else; it does not transmit, even with AUTO_REFRESH = 1. -/
def Obligations.ClearZeroesAndDirtiesTheCanvas : Prop :=
  decode 0x00000002#32 = .ok .clear ∧
  ∀ s : State, s.Sound → ∃ t, exec .clear s = .next t ∧
    t = { s with fb := t.fb, dirty := t.dirty, busy := false, inflight := none } ∧
    (∀ i, t.fb.read i = 0) ∧ isCanvas s.cfg t.dirty

/-- 40_driver.md R136, R143: a refresh of an empty region, in either mode, sends nothing and changes nothing. -/
def Obligations.RefreshOfAnEmptyRegionSendsNothing : Prop :=
  ∀ s : State, s.dirty.xMax.toNat < s.dirty.xMin.toNat →
    exec .refresh s = .next { s with busy := false, inflight := none }

/-- 40_driver.md R137, R138: what a refresh of a region that is not empty plans: band by band from y0 / 8 to y1 / 8, each
band's select and blocks. -/
def Obligations.RefreshPlansTheBoxBandByBand : Prop :=
  ∀ s : State, s.Sound → s.dirty.isEmpty = false →
    ∃ bands : List (List TxRequest), refreshPlan s = bands.flatten ∧
      bands.length = (boxOf s).2.2.2 / 8 - (boxOf s).2.1 / 8 + 1 ∧
      ∀ k (h : k < bands.length),
        BandPlan s.cfg s.fb (boxOf s).1 (boxOf s).2.2.1 ((boxOf s).2.1 / 8 + k) bands[k]

/-- 40_driver.md R138, R143: REFRESH whose every transaction succeeds sends exactly its plan, in order, empties the region
and changes nothing else; in particular not the framebuffer. `answers` is the model's input (log 4). -/
def Obligations.RefreshSucceedsAndEmptiesTheRegion : Prop :=
  decode 0x00000003#32 = .ok .refresh ∧
  ∀ (s : State) (as : List Bool), s.Sound → s.dirty.isEmpty = false →
    s.answers = List.replicate (refreshPlan s).length true ++ as →
    ∃ t, exec .refresh s = .next t ∧ isSentinel s.cfg t.dirty ∧
      t = { s with
        history := s.history ++ (refreshPlan s).map (fun r => ⟨r.sel, r.bytes, true⟩)
        answers := as, dirty := t.dirty, busy := false, inflight := none }

/-- 60_exceptions.md R293, 40_driver.md R149: REFRESH stops at the first transaction that answers false: those before it
are delivered, none after it is issued, TRANSPORT_ERROR (code 2) is latched, and the region, the framebuffer and every
other register keep their values. `answers` is the model's input (log 4). -/
def Obligations.RefreshStopsAtTheFirstFailure : Prop :=
  ∀ (s : State) (pre post : List TxRequest) (r : TxRequest) (as : List Bool), s.dirty.isEmpty = false →
    refreshPlan s = pre ++ r :: post → s.answers = List.replicate pre.length true ++ false :: as →
    exec .refresh s = .next { latched 2 s with
      history := s.history ++ (pre.map (fun r => ⟨r.sel, r.bytes, true⟩) ++ [⟨r.sel, r.bytes, false⟩])
      answers := as, busy := false, inflight := none }

/-- 70_reset_and_hazards.md R327, 20_memory.md R85: a refresh whose next transaction is not answered waits with BUSY = 1,
that transaction outstanding and none after it issued, and goes on waiting whatever the host does but a reset. `answers`
and `inflight` are how the model draws the answer and its delay (log 4). -/
def Obligations.RefreshWaitsForTheTransport : Prop :=
  ∀ (s : State) (pre post : List TxRequest) (r : TxRequest), s.Sound → s.rstN = true → s.dirty.isEmpty = false →
    refreshPlan s = pre ++ r :: post → s.answers = List.replicate pre.length true →
    ∃ t, exec .refresh s = .next t ∧ t = { s with
        history := s.history ++ pre.map (fun r => ⟨r.sel, r.bytes, true⟩)
        answers := [], busy := true, inflight := some ⟨r :: post, .clearRegion⟩ } ∧
      ∀ a es, ∃ u, step (asked t a es) = .next u ∧ u.busy = true ∧ u.inflight = t.inflight ∧ u.history = t.history

/-- 20_memory.md R85, R87, 40_driver.md R130: a command gives the same state whether the transport's answers are
there at once or come one by one, each a later event: only what is left of the drawn answers differs (log 4). -/
def Obligations.WaitingChangesNothingInTheEnd : Prop :=
  ∀ (s u u' : State) (v : Word) (i : Instr) (bs : List Bool), Ready s → s.answers = [] → decode v = .ok i →
    Sys2Proof.core.run (bs.length + 1) { s with events := .host (.write 0x000 v) [] :: bs.map Event.transport } = .next u →
    Sys2Proof.core.run 1 { s with answers := bs, events := [.host (.write 0x000 v) []] } = .next u' →
    u = { u' with answers := [] }

/-- 40_driver.md R148: partial and full mode leave the same panel. If a panel as R148 assumes it shows the
framebuffer outside the dirty box before a refresh, it shows the whole framebuffer after it, in either mode. The panel
(`panelByte`) is R148's assumption, not the block's. -/
def Obligations.PartialAndFullModesGiveTheSamePanel : Prop :=
  ∀ (s : State) (p : Nat × Nat × (Nat → Nat → Byte)) (mode : Bool), s.Sound → s.cfg.selectBytes = .pageAddressing →
    s.dirty.isEmpty = false →
    (∀ b x, b < s.cfg.height / 8 → x < s.cfg.width →
      ¬ (s.dirty.yMin.toNat / 8 ≤ b ∧ b ≤ s.dirty.yMax.toNat / 8 ∧ s.dirty.xMin.toNat ≤ x ∧ x ≤ s.dirty.xMax.toNat) →
      p.2.2 b (x + s.cfg.colOffset) = s.fb.read (b * s.cfg.width + x)) →
    ∀ b x, b < s.cfg.height / 8 → x < s.cfg.width →
      (panelAfter p (refreshPlan { s with ctrl := { s.ctrl with partialUpdate := mode } })).2.2 b (x + s.cfg.colOffset) =
        s.fb.read (b * s.cfg.width + x)

/-- 40_driver.md R139: the default SELECT_BYTES of a band up to 15 and a column up to 255. -/
def Obligations.DefaultSelectBytes : Prop :=
  ∀ (c : Config) (band col : Nat), c.selectBytes = .pageAddressing → band ≤ 15 → col ≤ 255 →
    (selectBytesOf c band col).map BitVec.toNat = [0xB0 + band, col % 16, 0x10 + col / 16]

/-- 40_driver.md R147: GET_PIXEL returns full black for ink, full white for background and outside the canvas, and changes
nothing but RESULT. -/
def Obligations.GetPixelReturnsTheStoredBit : Prop :=
  decode 0x00000004#32 = .ok .getPixel ∧
  ∀ s : State, exec .getPixel s = .next { s with
    result :=
      if inCanvas s.cfg (argS16 s 0) (argS16 s 1) ∧
        (s.fb.read ((argS16 s 0).toNat + (argS16 s 1).toNat / 8 * s.cfg.width)).getLsbD ((argS16 s 1).toNat % 8) = true
      then 0x00000000 else 0x00FFFFFF
    busy := false, inflight := none }

/-- 40_driver.md R144: FB_READ returns the byte at the index, 0 at or past FB_BYTES, and changes nothing but RESULT. -/
def Obligations.FbReadReturnsTheByte : Prop :=
  decode 0x00000005#32 = .ok .fbRead ∧
  ∀ s : State, exec .fbRead s = .next { s with
    result :=
      if argU16 s 0 < s.cfg.width * s.cfg.height / 8 then BitVec.ofNat 32 (s.fb.read (argU16 s 0)).toNat else 0
    busy := false, inflight := none }

/-- 40_driver.md R145, R135: FB_WRITE stores one byte and widens the region by its eight pixels, whatever the byte held;
at or past FB_BYTES it does nothing; it changes nothing else. -/
def Obligations.FbWriteStoresOneByte : Prop :=
  decode 0x00000006#32 = .ok .fbWrite ∧
  ∀ s : State, s.Sound → ∃ t, exec .fbWrite s = .next t ∧
    t = { s with fb := t.fb, dirty := t.dirty, busy := false, inflight := none } ∧
    (argU16 s 0 < s.cfg.fbBytes →
      (∀ j, t.fb.read j = if j = argU16 s 0 then argU8 s 1 else s.fb.read j) ∧
      Grew s.cfg s.dirty t.dirty
        (fun x y => x = ((argU16 s 0 % s.cfg.width : Nat) : Int) ∧ y / 8 = ((argU16 s 0 / s.cfg.width : Nat) : Int))) ∧
    (s.cfg.fbBytes ≤ argU16 s 0 → t.fb = s.fb ∧ t.dirty = s.dirty)

/-- 40_driver.md R146, 60_exceptions.md R294: TX_RAW. Too long a length latches ARG_ERROR (code 3) and nothing else;
length 0 does nothing; else one transaction of the SRCBUF bytes, COMMAND or DATA by bit 0 of ARG0, that succeeds, fails
with TRANSPORT_ERROR (code 2), or waits. `answers` is the model's input (log 4). -/
def Obligations.TxRawSendsOneTransaction : Prop :=
  decode 0x00000007#32 = .ok .txRaw ∧
  ∀ s : State,
    let off := argU16 s 1
    let len := argU16 s 2
    let bad := s.cfg.blockSize < len ∨ s.cfg.srcbufSize < off + len
    let sel := if s.args[0].getLsbD 0 = true then TxSelect.data else TxSelect.command
    let bytes := (List.range len).map (fun k => s.srcbuf.read (off + k))
    (bad → exec .txRaw s = .next { latched 3 s with busy := false, inflight := none }) ∧
    (¬ bad → len = 0 → exec .txRaw s = .next { s with busy := false, inflight := none }) ∧
    (¬ bad → 0 < len →
      (∀ as, s.answers = true :: as → exec .txRaw s = .next { s with
        history := s.history ++ [⟨sel, bytes, true⟩], answers := as, busy := false, inflight := none }) ∧
      (∀ as, s.answers = false :: as → exec .txRaw s = .next { latched 2 s with
        history := s.history ++ [⟨sel, bytes, false⟩], answers := as, busy := false, inflight := none }) ∧
      (s.answers = [] → exec .txRaw s = .next { s with
        busy := true, inflight := some ⟨[⟨sel, bytes⟩], .nothing⟩ }))

/-! ### Pixels and colours -/

/-- 40_driver.md R131: the colour threshold is on the exact sum of the three channels, at 382, and bits 31:24 of the
argument register play no part (30_encoding.md R105). -/
def Obligations.InkIsASumOfAtMost382 : Prop :=
  ∀ v : Word, inkOf (colourOf v) = true ↔
    v.toNat / 65536 % 256 + v.toNat / 256 % 256 + v.toNat % 256 ≤ 382

/-- 40_driver.md R132: PBGet after PBSet: the pixel set reads back, every other canvas pixel is as before, and a set outside
the canvas changes nothing. -/
def Obligations.PixelSetAndGetRoundTrip : Prop :=
  ∀ (c : Config) (fb : Memory) (x y : Int) (k : Bool), fb.wf →
    (inCanvas c x y → pbGet c (pbSet c fb x y k) x y = k) ∧
    (∀ x' y', ¬ (x' = x ∧ y' = y) → pbGet c (pbSet c fb x y k) x' y' = pbGet c fb x' y') ∧
    (¬ inCanvas c x y → pbSet c fb x y k = fb ∧ pbGet c fb x y = false)

/-- 40_driver.md R134, 10_state.md R46: Widen covers both boxes and no more, and from the empty sentinel it gives exactly
the rectangle. -/
def Obligations.WidenCoversTheRectangle : Prop :=
  ∀ (c : Config) (r : Region) (x0 y0 x1 y1 : Nat), c.legal = true →
    x0 ≤ x1 → y0 ≤ y1 → x1 < c.width → y1 < c.height →
    let r' := r.widen x0 y0 x1 y1
    r'.xMin.toNat = min r.xMin.toNat x0 ∧ r'.yMin.toNat = min r.yMin.toNat y0 ∧
    r'.xMax.toNat = max r.xMax.toNat x1 ∧ r'.yMax.toNat = max r.yMax.toNat y1 ∧
    (isSentinel c r → r'.xMin.toNat = x0 ∧ r'.yMin.toNat = y0 ∧ r'.xMax.toNat = x1 ∧ r'.yMax.toNat = y1)

/-! ### Drawing commands: what each draws, and that it completes -/

/-- 41_lines_rects.md R180: PIXEL draws the pixel (x, y), clipped to the canvas, and nothing else; it ends, or with
AUTO_REFRESH = 1 goes on as one REFRESH. -/
def Obligations.PixelDrawsOnePixel : Prop :=
  decode 0x00000010#32 = .ok .pixel ∧
  ∀ s : State, s.Sound →
    Draws .pixel s (argColour s 2) (fun x y => x = argS16 s 0 ∧ y = argS16 s 1)

/-- 41_lines_rects.md R181, R182: LINE draws the line's pixels, its accumulator in closed form. -/
def Obligations.LineDrawsTheLine : Prop :=
  decode 0x00000011#32 = .ok .line ∧
  ∀ s : State, s.Sound →
    Draws .line s (argColour s 4) (onLine (argS16 s 0) (argS16 s 1) (argS16 s 2) (argS16 s 3))

/-- 41_lines_rects.md R183, R184: VLINE draws the h pixels downward from (x, y), clipped to the canvas, none where h ≤ 0, and
nothing else; it ends, or with AUTO_REFRESH = 1 goes on as one REFRESH. -/
def Obligations.VlineDrawsTheRun : Prop :=
  decode 0x00000012#32 = .ok .vline ∧
  ∀ s : State, s.Sound →
    Draws .vline s (argColour s 3)
      (fun x y => x = argS16 s 0 ∧ argS16 s 1 ≤ y ∧ y < argS16 s 1 + argS16 s 2)

/-- 41_lines_rects.md R185, R186: HLINE draws the w pixels rightward from (x, y), clipped to the canvas, none where w ≤ 0, and
nothing else; it ends, or with AUTO_REFRESH = 1 goes on as one REFRESH. -/
def Obligations.HlineDrawsTheRun : Prop :=
  decode 0x00000013#32 = .ok .hline ∧
  ∀ s : State, s.Sound →
    Draws .hline s (argColour s 3)
      (fun x y => y = argS16 s 1 ∧ argS16 s 0 ≤ x ∧ x < argS16 s 0 + argS16 s 2)

/-- 41_lines_rects.md R187: RECT draws the outline; nothing where w ≤ 0 or h ≤ 0. -/
def Obligations.RectDrawsTheOutline : Prop :=
  decode 0x00000014#32 = .ok .rect ∧
  ∀ s : State, s.Sound →
    Draws .rect s (argColour s 4) (fun x y =>
      argS16 s 0 ≤ x ∧ x < argS16 s 0 + argS16 s 2 ∧ argS16 s 1 ≤ y ∧ y < argS16 s 1 + argS16 s 3 ∧
      (x = argS16 s 0 ∨ x = argS16 s 0 + argS16 s 2 - 1 ∨ y = argS16 s 1 ∨ y = argS16 s 1 + argS16 s 3 - 1))

/-- 41_lines_rects.md R188: FILL_RECT draws the w × h rectangle from (x, y), clipped to the canvas, nothing where w ≤ 0 or
h ≤ 0, and nothing else; it ends, or with AUTO_REFRESH = 1 goes on as one REFRESH. -/
def Obligations.FillRectDrawsTheRectangle : Prop :=
  decode 0x00000015#32 = .ok .fillRect ∧
  ∀ s : State, s.Sound →
    Draws .fillRect s (argColour s 4) (fun x y =>
      argS16 s 0 ≤ x ∧ x < argS16 s 0 + argS16 s 2 ∧ argS16 s 1 ≤ y ∧ y < argS16 s 1 + argS16 s 3)

/-- 42_circles.md R215, R216, R217, R212: ROUND_RECT draws the foreshortened edges and the four corner arcs of the clamped
radius, clipped to the canvas, nothing where w ≤ 0 or h ≤ 0, and nothing else; it ends, or goes on as one REFRESH. -/
def Obligations.RoundRectDrawsTheOutline : Prop :=
  decode 0x00000016#32 = .ok .roundRect ∧
  ∀ s : State, s.Sound →
    Draws .roundRect s (argColour s 5)
      (onRoundRect (argS16 s 0) (argS16 s 1) (argS16 s 2) (argS16 s 3)
        (max 0 (min (argS16 s 4) (Int.tdiv (min (argS16 s 2) (argS16 s 3)) 2))))

/-- 42_circles.md R213, R215, R216, R218: FILL_ROUND_RECT draws the central rectangle and the side fills of the clamped
radius, clipped to the canvas, nothing where w ≤ 0 or h ≤ 0, and nothing else; it ends, or goes on as one REFRESH. -/
def Obligations.FillRoundRectDrawsTheShape : Prop :=
  decode 0x00000017#32 = .ok .fillRoundRect ∧
  ∀ s : State, s.Sound →
    Draws .fillRoundRect s (argColour s 5)
      (inRoundRect (argS16 s 0) (argS16 s 1) (argS16 s 2) (argS16 s 3)
        (max 0 (min (argS16 s 4) (Int.tdiv (min (argS16 s 2) (argS16 s 3)) 2))))

/-- 42_circles.md R211: CIRCLE draws the four axis points and the eight images of every step, clipped to the canvas, nothing
where r < 0, and nothing else; it ends, or with AUTO_REFRESH = 1 goes on as one REFRESH. -/
def Obligations.CircleDrawsTheOutline : Prop :=
  decode 0x00000018#32 = .ok .circle ∧
  ∀ s : State, s.Sound →
    Draws .circle s (argColour s 3) (onCircle (argS16 s 0) (argS16 s 1) (argS16 s 2))

/-- 42_circles.md R213, R214: FILL_CIRCLE draws the central run and the runs of every step on both sides, clipped to the
canvas, nothing where r < 0, and nothing else; it ends, or with AUTO_REFRESH = 1 goes on as one REFRESH. -/
def Obligations.FillCircleDrawsTheDisc : Prop :=
  decode 0x00000019#32 = .ok .fillCircle ∧
  ∀ s : State, s.Sound →
    Draws .fillCircle s (argColour s 3) (inDisc (argS16 s 0) (argS16 s 1) (argS16 s 2))

/-- 43_triangles.md R240: TRIANGLE draws the three lines between its vertices, clipped to the canvas, and nothing else; it
ends, or with AUTO_REFRESH = 1 goes on as one REFRESH. -/
def Obligations.TriangleDrawsThreeLines : Prop :=
  decode 0x0000001A#32 = .ok .triangle ∧
  ∀ s : State, s.Sound →
    Draws .triangle s (argColour s 6) (fun x y =>
      onLine (argS16 s 0) (argS16 s 1) (argS16 s 2) (argS16 s 3) x y ∨
      onLine (argS16 s 2) (argS16 s 3) (argS16 s 4) (argS16 s 5) x y ∨
      onLine (argS16 s 4) (argS16 s 5) (argS16 s 0) (argS16 s 1) x y)

/-- 43_triangles.md R241 to R247: FILL_TRIANGLE draws one span per row, whichever order by ascending y the vertices are
put in. -/
def Obligations.FillTriangleDrawsOneSpanPerRow : Prop :=
  decode 0x0000001B#32 = .ok .fillTriangle ∧
  ∀ (s : State) (p0 p1 p2 : Point), s.Sound →
    [p0, p1, p2].Perm [⟨argS16 s 0, argS16 s 1⟩, ⟨argS16 s 2, argS16 s 3⟩, ⟨argS16 s 4, argS16 s 5⟩] →
    p0.y ≤ p1.y → p1.y ≤ p2.y →
    Draws .fillTriangle s (argColour s 6) (inTriangle p0 p1 p2)

/-- 44_bitmap_text.md R260: BITMAP draws the set bits of the banded source bitmap, bytes past SRCBUF_SIZE being 0, clipped to
the canvas, nothing where w ≤ 0 or h ≤ 0, and nothing else; it ends, or goes on as one REFRESH. -/
def Obligations.BitmapDrawsTheSetBits : Prop :=
  decode 0x0000001C#32 = .ok .bitmap ∧
  ∀ s : State, s.Sound →
    Draws .bitmap s (argColour s 4)
      (inBitmap s (argS16 s 0) (argS16 s 1) (argS16 s 2) (argS16 s 3) (argU16 s 5))

/-- 44_bitmap_text.md R261 to R265: WRITE_CHAR paints the glyph cell at the cursor and moves the cursor, and changes
nothing else; with AUTO_REFRESH = 1 it goes on as one REFRESH of that state. -/
def Obligations.WriteCharDrawsTheCell : Prop :=
  decode 0x00000020#32 = .ok .writeChar ∧
  ∀ s : State, s.Sound →
    let ch := s.args[0].extractLsb' 0 8
    ∃ t : State, t = { s with
        fb := t.fb, dirty := t.dirty, cursorX := (cursorAfter s ch).1, cursorY := (cursorAfter s ch).2
        busy := false, inflight := none } ∧
      Painted s t (paintsChar s ch) ∧
      (s.ctrl.autoRefresh = false → exec .writeChar s = .next t) ∧
      (s.ctrl.autoRefresh = true → exec .writeChar s = exec .refresh t)

/-- 44_bitmap_text.md R266: WRITE_STRING does what WRITE_CHARs of its codes SRC(off), SRC(off + 1), … do one after the
other, codes past SRCBUF_SIZE being 0x00, and then ends once: with AUTO_REFRESH = 1 it goes on as one REFRESH. -/
def Obligations.WriteStringWritesItsCharacters : Prop :=
  decode 0x00000021#32 = .ok .writeString ∧
  ∀ s : State,
    let off := argU16 s 0
    let off' := fun k => if off + k < s.cfg.srcbufSize then s.srcbuf.read (off + k) else 0
    ∃ u : Nat → State, u 0 = { s with ctrl := { s.ctrl with autoRefresh := false }, busy := false, inflight := none } ∧
      (∀ k, exec .writeChar (withArg0 (u k) ((off' k).zeroExtend 32)) =
        .next (withArg0 (u (k + 1)) ((off' k).zeroExtend 32)) ∧ (u (k + 1)).args = s.args) ∧
      (s.ctrl.autoRefresh = false → exec .writeString s = .next (u (argU16 s 1))) ∧
      (s.ctrl.autoRefresh = true → exec .writeString s = exec .refresh { u (argU16 s 1) with ctrl := s.ctrl })

/-- 40_driver.md R140: a drawing command with AUTO_REFRESH = 1 does what it does with AUTO_REFRESH = 0 and then one
REFRESH, and leaves CTRL as it was; a command that is not a drawing command does the same whatever AUTO_REFRESH is. -/
def Obligations.DrawingCommandsRefreshOnceAtTheEnd : Prop :=
  ∀ (i : Instr) (s t : State), s.ctrl.autoRefresh = true →
    exec i { s with ctrl := { s.ctrl with autoRefresh := false } } = .next t →
    (i.isDrawing = true → exec i s = exec .refresh { t with ctrl := s.ctrl }) ∧
    (i.isDrawing = false → exec i s = .next { t with ctrl := s.ctrl })

/-! ### The shapes -/

/-- 41_lines_rects.md R181: one point per major-axis step, both endpoints, each within half a pixel of the exact line,
minor steps of at most 1, and a line and its reverse have the same points. -/
def Obligations.LineGeometry : Prop :=
  ∀ x0 y0 x1 y1 : Int,
    (linePoints x0 y0 x1 y1).length = (max |x1 - x0| |y1 - y0|).toNat + 1 ∧
    ⟨x0, y0⟩ ∈ linePoints x0 y0 x1 y1 ∧ ⟨x1, y1⟩ ∈ linePoints x0 y0 x1 y1 ∧
    (∀ p ∈ linePoints x0 y0 x1 y1,
      2 * |(p.x - x0) * (y1 - y0) - (p.y - y0) * (x1 - x0)| ≤ max |x1 - x0| |y1 - y0| ∧
      min x0 x1 ≤ p.x ∧ p.x ≤ max x0 x1 ∧ min y0 y1 ≤ p.y ∧ p.y ≤ max y0 y1) ∧
    (linePoints x0 y0 x1 y1).IsChain (fun p q => |q.x - p.x| ≤ 1 ∧ |q.y - p.y| ≤ 1 ∧ (q.x ≠ p.x ∨ q.y ≠ p.y)) ∧
    (∀ p, p ∈ linePoints x1 y1 x0 y0 ↔ p ∈ linePoints x0 y0 x1 y1)

/-- 42_circles.md R210: the steps of a circle have x = 1, 2, …, at most r of them; y goes down by 0 or 1 a step; all but
the last have x < y and the last has x ≥ y; and each lies within half a pixel of the circle. -/
def Obligations.CircleStepsFollowTheCircle : Prop :=
  ∀ r : Int, 0 ≤ r →
    (circleSteps r).length ≤ r.toNat ∧
    (circleSteps r).map Prod.fst = (List.range (circleSteps r).length).map (fun (k : Nat) => (k : Int) + 1) ∧
    ((0, r) :: circleSteps r).IsChain (fun p q => p.1 < p.2 ∧ (q.2 = p.2 ∨ q.2 = p.2 - 1)) ∧
    (∀ q, ((0, r) :: circleSteps r).getLast? = some q → q.2 ≤ q.1) ∧
    ∀ q ∈ circleSteps r, 0 ≤ q.2 ∧ q.1 * q.1 + q.2 * q.2 - q.2 ≤ r * r ∧ r * r ≤ q.1 * q.1 + q.2 * q.2 + q.2

/-- 42_circles.md R219: CIRCLE's points are closed under all eight reflections about the centre, FILL_CIRCLE's under the two
axis reflections. -/
def Obligations.CircleSymmetry : Prop :=
  ∀ x0 y0 r dx dy : Int,
    (⟨x0 + dx, y0 + dy⟩ ∈ circlePoints x0 y0 r →
      ⟨x0 - dx, y0 + dy⟩ ∈ circlePoints x0 y0 r ∧ ⟨x0 + dx, y0 - dy⟩ ∈ circlePoints x0 y0 r ∧
      ⟨x0 + dy, y0 + dx⟩ ∈ circlePoints x0 y0 r) ∧
    (⟨x0 + dx, y0 + dy⟩ ∈ fillCirclePoints x0 y0 r →
      ⟨x0 - dx, y0 + dy⟩ ∈ fillCirclePoints x0 y0 r ∧ ⟨x0 + dx, y0 - dy⟩ ∈ fillCirclePoints x0 y0 r)

/-- 42_circles.md R215, R217, R218: a round rectangle of radius 0 or less is the rectangle, hollow or filled; and whatever
the radius, no point lies outside the rectangle. -/
def Obligations.RoundRectanglesStayInTheRectangle : Prop :=
  ∀ x y w h r : Int,
    (r ≤ 0 → ∀ p, (p ∈ roundRectPoints x y w h r ↔ p ∈ rectPoints x y w h) ∧
      (p ∈ fillRoundRectPoints x y w h r ↔ p ∈ fillRectPoints x y w h)) ∧
    ∀ p, p ∈ roundRectPoints x y w h r ∨ p ∈ fillRoundRectPoints x y w h r →
      x ≤ p.x ∧ p.x < x + w ∧ y ≤ p.y ∧ p.y < y + h

/-- 43_triangles.md R246, R248: every point of FILL_TRIANGLE lies in the vertices' bounding box, every row of the box has a
point, a row's points are one run of columns, and every vertex is a point. -/
def Obligations.FilledTriangleContainment : Prop :=
  ∀ x0 y0 x1 y1 x2 y2 : Int,
    let ps := fillTrianglePoints x0 y0 x1 y1 x2 y2
    (∀ p ∈ ps, min x0 (min x1 x2) ≤ p.x ∧ p.x ≤ max x0 (max x1 x2) ∧
      min y0 (min y1 y2) ≤ p.y ∧ p.y ≤ max y0 (max y1 y2)) ∧
    (∀ y, min y0 (min y1 y2) ≤ y → y ≤ max y0 (max y1 y2) → ∃ x, ⟨x, y⟩ ∈ ps) ∧
    (∀ a b x y, ⟨a, y⟩ ∈ ps → ⟨b, y⟩ ∈ ps → a ≤ x → x ≤ b → ⟨x, y⟩ ∈ ps) ∧
    ⟨x0, y0⟩ ∈ ps ∧ ⟨x1, y1⟩ ∈ ps ∧ ⟨x2, y2⟩ ∈ ps

/-! ### Whole-machine rules -/

/-- 10_state.md R32, R37, R43, R44, 20_memory.md R73, R74: no command writes an argument register, CTRL, the text colours,
the text scale, SRCBUF or a parameter, or touches the host's side. -/
def Obligations.CommandsLeaveTheHostsRegisters : Prop :=
  ∀ (i : Instr) (s t : State), exec i s = .next t →
    t.args = s.args ∧ t.ctrl = s.ctrl ∧ t.textInk = s.textInk ∧ t.textBg = s.textBg ∧ t.textScale = s.textScale ∧
    t.srcbuf = s.srcbuf ∧ t.cfg = s.cfg ∧ t.rstN = s.rstN ∧ t.events = s.events ∧ t.readLog = s.readLog ∧
    t.freeCount = s.freeCount

/-- 10_state.md R36, R42, R34, 20_memory.md R86, 40_driver.md R138, 60_exceptions.md R290, R292: only GET_PIXEL and FB_READ
write RESULT, only the text commands move the cursor, only PANEL_RESET touches the pin, only CLEAR, FB_WRITE and the drawing
commands write the framebuffer, and the history only grows. A latched error stays as it is. ERR rises only in TX_RAW, with
TRANSPORT_ERROR or ARG_ERROR, and in REFRESH and a drawing command with AUTO_REFRESH = 1, with TRANSPORT_ERROR; whatever else
a command does, it leaves ERR and ERR_CODE as they were. -/
def Obligations.OnlyTheNamedCommandsWrite : Prop :=
  ∀ (i : Instr) (s t : State), exec i s = .next t →
    (i ≠ .getPixel → i ≠ .fbRead → t.result = s.result) ∧
    (i ≠ .writeChar → i ≠ .writeString → t.cursorX = s.cursorX ∧ t.cursorY = s.cursorY) ∧
    (i ≠ .panelReset → t.pinHistory = s.pinHistory ∧ t.panelRstN = s.panelRstN) ∧
    (i ≠ .clear → i ≠ .fbWrite → i.isDrawing = false → t.fb = s.fb) ∧
    (s.err = true → t.err = true ∧ t.errCode = s.errCode) ∧
    (t.err = s.err ∧ t.errCode = s.errCode ∨
      s.err = false ∧ t.err = true ∧
        (i = .txRaw ∧ (t.errCode = 2 ∨ t.errCode = 3) ∨
         (i = .refresh ∨ i.isDrawing = true ∧ s.ctrl.autoRefresh = true) ∧ t.errCode = 2)) ∧
    ∃ new, t.history = s.history ++ new ∧ ∀ x ∈ new.dropLast, x.ok = true

/-- 60_exceptions.md R301: no command reads ERR or ERR_CODE: with any other value latched it goes the same way,
and only the latch differs in the end. -/
def Obligations.ErrorsDoNotBlock : Prop :=
  ∀ (i : Instr) (s t : State) (e : Bool) (code : BitVec 4), exec i s = .next t →
    ∃ e' code', exec i { s with err := e, errCode := code } = .next { t with err := e', errCode := code' }

/-- 30_encoding.md R104 to R107: how operands are read. A coordinate or size is bits 15:0 in two's complement, an index, offset
or length bits 15:0, a byte bits 7:0, a colour bits 23:0, a selector bit 0; and each command reads of each argument register
the bits of the kind R107's table gives it and nothing else: where two sets of registers agree in those bits the command does
the same, whatever the other bits, the registers the table marks with a dash, and ARG7 hold. -/
def Obligations.UnusedArgumentBitsPlayNoPart : Prop :=
  (∀ (s : State) (n : Fin 8),
    argS16 s n = (if s.args[n].toNat % 65536 < 32768 then ((s.args[n].toNat % 65536 : Nat) : Int)
      else ((s.args[n].toNat % 65536 : Nat) : Int) - 65536) ∧
    argU16 s n = s.args[n].toNat % 65536 ∧ (argU8 s n).toNat = s.args[n].toNat % 256 ∧
    (argColour s n).toNat = s.args[n].toNat % 16777216 ∧ (argBit s n = true ↔ s.args[n].toNat % 2 = 1)) ∧
  ∀ (i : Instr) (s t : State) (args : Vector Word 8), exec i s = .next t →
    (∀ n : Fin 8, sameOperand i n args[n] s.args[n]) → exec i { s with args := args } = .next { t with args := args }

/-- HEADLINE, 10_state.md R48: the dirty region always contains every pixel changed since the last successful refresh. If
every pixel in which the framebuffer differs from an image `m` (the one last sent) lies in the region, a step keeps that
true, but for a step that completes a refresh: then the region is empty and every transaction of the step succeeded. -/
def Obligations.DirtyRegionSoundness : Prop :=
  ∀ (s t : State) (m : Memory), s.Inv → SoundSince s m → step s = .next t →
    SoundSince t m ∨
    (isSentinel t.cfg t.dirty ∧ ∃ new, new ≠ [] ∧ t.history = s.history ++ new ∧ ∀ x ∈ new, x.ok = true)

/-- 20_memory.md R91: after FB_WRITE of every index, FB_READ of every index returns the value written, and GET_PIXEL of every
pixel, whatever ARG0 and ARG1 name it, agrees with the image: full black where its bit is set, full white where it is clear or
the pixel lies outside the canvas. -/
def Obligations.SnapshotRoundTrip : Prop :=
  ∀ (s u : State) (v : Nat → Byte), s.Sound → Loads v s.cfg.fbBytes s u →
    u.cfg = s.cfg ∧ isCanvas u.cfg u.dirty ∧
    (∀ i, i < s.cfg.fbBytes → ∃ t, exec .fbRead (withArg0 u (BitVec.ofNat 32 i)) = .next t ∧
      t.result = (v i).zeroExtend 32) ∧
    ∀ args : Vector Word 8, ∃ t, exec .getPixel { u with args := args } = .next t ∧
      t.result =
        if inCanvas s.cfg (s16 args[0]) (s16 args[1]) ∧
          (v ((s16 args[0]).toNat + (s16 args[1]).toNat / 8 * s.cfg.width)).getLsbD ((s16 args[1]).toNat % 8) = true
        then 0x00000000 else 0x00FFFFFF

/-! ### The host port -/

/-- 20_memory.md R75, R77, R78, R82, 10_state.md R33 to R45: what a host read of each location returns, the block idle; no
read has a side effect. -/
def Obligations.HostReadsReturnTheRegisters : Prop :=
  ∀ (s : State) (es : List Event), Ready s →
    (∀ p ∈ ([(0x000, 0), (0x004, BitVec.ofNat 32 (statusNumber s)), (0x008, s.result),
        (0x00C, BitVec.ofNat 32 (bit s.ctrl.autoRefresh + 2 * bit s.ctrl.partialUpdate + 4 * bit s.ctrl.textWrap)),
        (0x010, BitVec.ofNat 32 s.cfg.width), (0x014, BitVec.ofNat 32 s.cfg.height),
        (0x018, BitVec.ofNat 32 (s.cfg.colOffset + 256 * s.cfg.blockSize + 65536 * bit s.cfg.hasResetLine)),
        (0x020, BitVec.ofInt 32 s.cursorX.toInt), (0x024, BitVec.ofInt 32 s.cursorY.toInt),
        (0x028, BitVec.ofNat 32 s.textInk.toNat), (0x02C, BitVec.ofNat 32 s.textBg.toNat),
        (0x030, BitVec.ofNat 32 s.textScale.toNat),
        (0x040, BitVec.ofNat 32 s.dirty.xMin.toNat), (0x044, BitVec.ofNat 32 s.dirty.yMin.toNat),
        (0x048, BitVec.ofNat 32 s.dirty.xMax.toNat), (0x04C, BitVec.ofNat 32 s.dirty.yMax.toNat)] : List (Nat × Word)),
      step (asked s (.read p.1) es) = .next (gotBack s es p.1 p.2)) ∧
    (∀ n : Fin 8, step (asked s (.read (0x080 + 4 * n.val)) es) = .next (gotBack s es (0x080 + 4 * n.val) s.args[n])) ∧
    (∀ i, i < s.cfg.srcbufSize → step (asked s (.read (0x1000 + 4 * i)) es) =
      .next (gotBack s es (0x1000 + 4 * i) (BitVec.ofNat 32 (s.srcbuf.read i).toNat))) ∧
    (∀ off, off = 0x01C ∨ (0x034 ≤ off ∧ off < 0x040) ∨ (0x050 ≤ off ∧ off < 0x080) ∨ (0x0A0 ≤ off ∧ off < 0x1000) →
      step (asked s (.read off) es) = .next (gotBack s es off 0))

/-- 20_memory.md R75, R77, R78, 10_state.md R31, R37, R42 to R44: what a host write stores in each RW location, the block
idle, that it changes nothing else, and that a write to a read-only register or a reserved offset changes nothing. -/
def Obligations.HostWritesStoreTheirFields : Prop :=
  ∀ (s : State) (v : Word) (es : List Event), Ready s →
    step (asked s (.write 0x00C v) es) =
      .next { s with events := es, ctrl := ⟨v.getLsbD 0, v.getLsbD 1, v.getLsbD 2⟩ } ∧
    step (asked s (.write 0x020 v) es) = .next { s with events := es, cursorX := BitVec.ofNat 16 v.toNat } ∧
    step (asked s (.write 0x024 v) es) = .next { s with events := es, cursorY := BitVec.ofNat 16 v.toNat } ∧
    step (asked s (.write 0x028 v) es) = .next { s with events := es, textInk := BitVec.ofNat 24 v.toNat } ∧
    step (asked s (.write 0x02C v) es) = .next { s with events := es, textBg := BitVec.ofNat 24 v.toNat } ∧
    step (asked s (.write 0x030 v) es) =
      .next { s with events := es, textScale := if v.toNat % 256 = 0 then 1 else BitVec.ofNat 8 v.toNat } ∧
    (∀ n : Fin 8, step (asked s (.write (0x080 + 4 * n.val) v) es) =
      .next { s with events := es, args := s.args.set n v }) ∧
    (∀ i, i < s.cfg.srcbufSize → ∃ t, step (asked s (.write (0x1000 + 4 * i) v) es) = .next t ∧
      t = { s with events := es, srcbuf := t.srcbuf } ∧
      ∀ j, t.srcbuf.read j = if j = i then BitVec.ofNat 8 v.toNat else s.srcbuf.read j) ∧
    ∀ off, off = 0x008 ∨ (0x010 ≤ off ∧ off < 0x020) ∨ (0x034 ≤ off ∧ off < 0x080) ∨ (0x0A0 ≤ off ∧ off < 0x1000) →
      step (asked s (.write off v) es) = .next { s with events := es }

/-- 20_memory.md R76: address bits 1:0 of a host access are ignored, whatever the state: a write to any offset is a write to
its word, and a read differs only in the offset the host's log shows. -/
def Obligations.AddressBitsOneAndZeroAreIgnored : Prop :=
  ∀ (s : State) (off : Nat) (v : Word) (es : List Event), s.Inv →
    step (asked s (.write off v) es) = step (asked s (.write (off / 4 * 4) v) es) ∧
    ∃ t w, step (asked s (.read (off / 4 * 4)) es) = .next t ∧ t.readLog = s.readLog ++ [⟨off / 4 * 4, w⟩] ∧
      step (asked s (.read off) es) = .next { t with readLog := s.readLog ++ [⟨off, w⟩] }

/-- 70_reset_and_hazards.md R325, 10_state.md R33, R49: in every sound state in which BUSY = 1, out of reset, a read of RESULT,
a cursor or a DIRTY register returns a free value (`Config.freeWord`, log 5), and a read of any other location of the block
its stored value: CMD 0, STATUS with BUSY = 1, CTRL, WIDTH, HEIGHT, CONFIG, TEXT_INK, TEXT_BG, TEXT_SCALE, ARG0 to ARG7, the
SRCBUF window, the reserved offsets 0. That is what a read returns before a running command's body (`access`), and in a step
whose event is the read, while a command waits for the transport. -/
def Obligations.ReadsWhileBusy : Prop :=
  ∀ s : State, s.Sound → s.rstN = true → s.busy = true →
    (∀ off ∈ [0x008, 0x020, 0x024, 0x040, 0x044, 0x048, 0x04C], access (.read off) s =
      { gotBack s s.events off (Config.freeWord s.freeCount) with freeCount := s.freeCount + 1 }) ∧
    (∀ p ∈ ([(0x000, 0), (0x004, BitVec.ofNat 32 (statusNumber s)),
        (0x00C, BitVec.ofNat 32 (bit s.ctrl.autoRefresh + 2 * bit s.ctrl.partialUpdate + 4 * bit s.ctrl.textWrap)),
        (0x010, BitVec.ofNat 32 s.cfg.width), (0x014, BitVec.ofNat 32 s.cfg.height),
        (0x018, BitVec.ofNat 32 (s.cfg.colOffset + 256 * s.cfg.blockSize + 65536 * bit s.cfg.hasResetLine)),
        (0x028, BitVec.ofNat 32 s.textInk.toNat), (0x02C, BitVec.ofNat 32 s.textBg.toNat),
        (0x030, BitVec.ofNat 32 s.textScale.toNat)] : List (Nat × Word)),
      access (.read p.1) s = gotBack s s.events p.1 p.2) ∧
    statusNumber s % 2 = 1 ∧
    (∀ n : Fin 8, access (.read (0x080 + 4 * n.val)) s = gotBack s s.events (0x080 + 4 * n.val) s.args[n]) ∧
    (∀ i, i < s.cfg.srcbufSize → access (.read (0x1000 + 4 * i)) s =
      gotBack s s.events (0x1000 + 4 * i) (BitVec.ofNat 32 (s.srcbuf.read i).toNat)) ∧
    (∀ off, off = 0x01C ∨ (0x034 ≤ off ∧ off < 0x040) ∨ (0x050 ≤ off ∧ off < 0x080) ∨ (0x0A0 ≤ off ∧ off < 0x1000) →
      access (.read off) s = gotBack s s.events off 0) ∧
    (s.Inv → ∀ off es, step (asked s (.read off) es) = .next (access (.read off) { s with events := es }))
end

