-- ==== Sys2Proof/Laws/Memory.lean ====
section
/-! SUPPORT. The laws of a byte memory: what a read returns after a write, and that a write keeps the canonical form. -/

namespace Sys2Proof

theorem Memory.read_cons_entry (i : Nat) (v : Byte) (m : Memory) (j : Nat) :
    Memory.read ((i, v) :: m) j = if i = j then v else m.read j := rfl

/-- An index below every listed one reads as 0x00. -/
theorem Memory.read_eq_zero_of_lt {m : Memory} {i : Nat} (h : ∀ c ∈ m, i < c.1) : m.read i = 0 := by
  induction m with
  | nil => rfl
  | cons c m ih =>
    obtain ⟨a, b⟩ := c
    have ha : i < a := h (a, b) (by simp)
    rw [Memory.read_cons_entry, if_neg (by omega)]
    exact ih (fun c hc => h c (by simp [hc]))

/-- An index at or past the memory's size reads as 0x00. -/
theorem Memory.read_eq_zero_of_within {m : Memory} {n i : Nat} (h : m.within n) (hi : n ≤ i) : m.read i = 0 := by
  induction m with
  | nil => rfl
  | cons c m ih =>
    obtain ⟨a, b⟩ := c
    have ha : a < n := h (a, b) (by simp)
    rw [Memory.read_cons_entry, if_neg (by omega)]
    exact ih (fun c hc => h c (by simp [hc]))

/-- Putting a byte in front changes what its own index reads, where no listed index is that low. -/
theorem Memory.read_cons {m : Memory} {i : Nat} (h : ∀ c ∈ m, i < c.1) (v : Byte) (j : Nat) :
    (Memory.cons i v m).read j = if i = j then v else m.read j := by
  unfold Memory.cons
  split
  · next hv =>
    split
    · next hij => subst hij; rw [Memory.read_eq_zero_of_lt h, hv]
    · rfl
  · rfl

theorem Memory.lt_of_wf_cons {a : Nat} {b : Byte} {m : Memory} (h : Memory.wf ((a, b) :: m)) : ∀ c ∈ m, a < c.1 := by
  have := (List.pairwise_cons.mp h.1).1
  exact fun c hc => this c hc

theorem Memory.wf_tail {c : Host.Cell} {m : Memory} (h : Memory.wf (c :: m)) : m.wf :=
  ⟨(List.pairwise_cons.mp h.1).2, fun d hd => h.2 d (by simp [hd])⟩

/-- THE law of a write: it changes what its own index reads and no other. -/
theorem Memory.read_write {m : Memory} (h : m.wf) (i : Nat) (v : Byte) (j : Nat) :
    (m.write i v).read j = if i = j then v else m.read j := by
  induction m with
  | nil => exact Memory.read_cons (by simp) v j
  | cons c m ih =>
    obtain ⟨a, b⟩ := c
    have hlt := Memory.lt_of_wf_cons h
    simp only [Memory.write]
    split
    · next hia =>
      refine Memory.read_cons (fun c hc => ?_) v j
      rcases List.mem_cons.mp hc with rfl | hc
      · exact hia
      · exact lt_trans hia (hlt c hc)
    · split
      · next hia =>
        subst hia
        rw [Memory.read_cons hlt, Memory.read_cons_entry]
        split <;> simp_all
      · rw [Memory.read_cons_entry, ih (Memory.wf_tail h), Memory.read_cons_entry]
        split <;> split <;> simp_all

theorem Memory.read_write_same {m : Memory} (h : m.wf) (i : Nat) (v : Byte) : (m.write i v).read i = v := by
  rw [Memory.read_write h, if_pos rfl]

theorem Memory.read_write_other {m : Memory} (h : m.wf) {i j : Nat} (hij : i ≠ j) (v : Byte) :
    (m.write i v).read j = m.read j := by
  rw [Memory.read_write h, if_neg hij]

theorem Memory.mem_cons_of {i : Nat} {v : Byte} {m : Memory} {c : Host.Cell} (h : c ∈ Memory.cons i v m) :
    c = (i, v) ∧ v ≠ 0 ∨ c ∈ m := by
  unfold Memory.cons at h
  split at h
  · exact .inr h
  · next hv => rcases List.mem_cons.mp h with h | h
               · exact .inl ⟨h, hv⟩
               · exact .inr h

/-- Whatever is listed after a write was listed before, or is the written byte. -/
theorem Memory.mem_write_of {m : Memory} {i : Nat} {v : Byte} {c : Host.Cell} (h : c ∈ m.write i v) :
    c = (i, v) ∧ v ≠ 0 ∨ c ∈ m := by
  induction m with
  | nil => exact Memory.mem_cons_of h
  | cons d m ih =>
    obtain ⟨a, b⟩ := d
    simp only [Memory.write] at h
    split at h
    · exact Memory.mem_cons_of h
    · split at h
      · exact (Memory.mem_cons_of h).imp_right (by simp +contextual)
      · rcases List.mem_cons.mp h with h | h
        · exact .inr (by simp [h])
        · exact (ih h).imp_right (by simp +contextual)

theorem Memory.wf_cons {i : Nat} {v : Byte} {m : Memory} (h : m.wf) (hi : ∀ c ∈ m, i < c.1) :
    (Memory.cons i v m).wf := by
  unfold Memory.cons
  split
  · exact h
  · next hv =>
    refine ⟨List.pairwise_cons.mpr ⟨hi, h.1⟩, fun c hc => ?_⟩
    rcases List.mem_cons.mp hc with rfl | hc
    · exact hv
    · exact h.2 c hc

/-- A write keeps the canonical form. -/
theorem Memory.wf_write {m : Memory} (h : m.wf) (i : Nat) (v : Byte) : (m.write i v).wf := by
  induction m with
  | nil => exact Memory.wf_cons h (by simp)
  | cons c m ih =>
    obtain ⟨a, b⟩ := c
    have hlt := Memory.lt_of_wf_cons h
    simp only [Memory.write]
    split
    · next hia =>
      refine Memory.wf_cons h (fun c hc => ?_)
      rcases List.mem_cons.mp hc with rfl | hc
      · exact hia
      · exact lt_trans hia (hlt c hc)
    · split
      · next hia => exact Memory.wf_cons (Memory.wf_tail h) (hia ▸ hlt)
      · next h1 h2 =>
        have hw := ih (Memory.wf_tail h)
        refine ⟨List.pairwise_cons.mpr ⟨fun c hc => ?_, hw.1⟩, fun c hc => ?_⟩
        · rcases Memory.mem_write_of hc with ⟨rfl, -⟩ | hc
          · show a < i; omega
          · exact hlt c hc
        · rcases List.mem_cons.mp hc with rfl | hc
          · exact h.2 _ (by simp)
          · exact hw.2 c hc

/-- A write inside the memory's size keeps it. -/
theorem Memory.within_write {m : Memory} {n : Nat} (h : m.within n) {i : Nat} (hi : i < n) (v : Byte) :
    (m.write i v).within n := by
  intro c hc
  rcases Memory.mem_write_of hc with ⟨rfl, -⟩ | hc
  · exact hi
  · exact h c hc

/-- Writing 0x00 leaves no entry: equal memories are equal data. -/
theorem Memory.ext_read {m m' : Memory} (h : m.wf) (h' : m'.wf) (hr : ∀ i, m.read i = m'.read i) : m = m' := by
  induction m generalizing m' with
  | nil =>
    cases m' with
    | nil => rfl
    | cons c m' =>
      obtain ⟨a, b⟩ := c
      have := hr a
      simp only [Memory.read, if_true] at this
      exact absurd this.symm (h'.2 (a, b) (by simp))
  | cons c m ih =>
    obtain ⟨a, b⟩ := c
    have hb : b ≠ 0 := h.2 (a, b) (by simp)
    have hlt := Memory.lt_of_wf_cons h
    cases m' with
    | nil =>
      have := hr a
      simp only [Memory.read, if_true] at this
      exact absurd this hb
    | cons c' m' =>
      obtain ⟨a', b'⟩ := c'
      have hb' : b' ≠ 0 := h'.2 (a', b') (by simp)
      have hlt' := Memory.lt_of_wf_cons h'
      have haa : a = a' := by
        rcases Nat.lt_trichotomy a a' with hl | he | hl
        · have := hr a
          rw [Memory.read_cons_entry, if_pos rfl, Memory.read_cons_entry, if_neg (by omega),
            Memory.read_eq_zero_of_lt (fun c hc => lt_trans hl (hlt' c hc))] at this
          exact absurd this hb
        · exact he
        · have := hr a'
          rw [Memory.read_cons_entry, if_neg (by omega), Memory.read_cons_entry, if_pos rfl,
            Memory.read_eq_zero_of_lt (fun c hc => lt_trans hl (hlt c hc))] at this
          exact absurd this.symm hb'
      subst haa
      have hbb : b = b' := by simpa [Memory.read_cons_entry] using hr a
      subst hbb
      refine congrArg _ (ih (Memory.wf_tail h) (Memory.wf_tail h') (fun i => ?_))
      by_cases hi : a = i
      · subst hi
        rw [Memory.read_eq_zero_of_lt hlt, Memory.read_eq_zero_of_lt hlt']
      · simpa [Memory.read_cons_entry, hi] using hr i

end Sys2Proof
end

