-- ==== Sys2Proof/Laws/State.lean ====
section
/-! SUPPORT. One lemma per field per shared update of the state, so that no later proof unfolds an update. -/

namespace Sys2Proof.Machine

variable (s : State)

/-! ### The end of a command -/

@[simp] theorem endCommand_cfg : (endCommand s).cfg = s.cfg := rfl
@[simp] theorem endCommand_args : (endCommand s).args = s.args := rfl
@[simp] theorem endCommand_busy : (endCommand s).busy = false := rfl
@[simp] theorem endCommand_err : (endCommand s).err = s.err := rfl
@[simp] theorem endCommand_errCode : (endCommand s).errCode = s.errCode := rfl
@[simp] theorem endCommand_result : (endCommand s).result = s.result := rfl
@[simp] theorem endCommand_ctrl : (endCommand s).ctrl = s.ctrl := rfl
@[simp] theorem endCommand_cursorX : (endCommand s).cursorX = s.cursorX := rfl
@[simp] theorem endCommand_cursorY : (endCommand s).cursorY = s.cursorY := rfl
@[simp] theorem endCommand_textInk : (endCommand s).textInk = s.textInk := rfl
@[simp] theorem endCommand_textBg : (endCommand s).textBg = s.textBg := rfl
@[simp] theorem endCommand_textScale : (endCommand s).textScale = s.textScale := rfl
@[simp] theorem endCommand_dirty : (endCommand s).dirty = s.dirty := rfl
@[simp] theorem endCommand_fb : (endCommand s).fb = s.fb := rfl
@[simp] theorem endCommand_srcbuf : (endCommand s).srcbuf = s.srcbuf := rfl
@[simp] theorem endCommand_panelRstN : (endCommand s).panelRstN = s.panelRstN := rfl
@[simp] theorem endCommand_rstN : (endCommand s).rstN = s.rstN := rfl
@[simp] theorem endCommand_inflight : (endCommand s).inflight = none := rfl
@[simp] theorem endCommand_history : (endCommand s).history = s.history := rfl
@[simp] theorem endCommand_pinHistory : (endCommand s).pinHistory = s.pinHistory := rfl
@[simp] theorem endCommand_answers : (endCommand s).answers = s.answers := rfl
@[simp] theorem endCommand_events : (endCommand s).events = s.events := rfl
@[simp] theorem endCommand_readLog : (endCommand s).readLog = s.readLog := rfl
@[simp] theorem endCommand_freeCount : (endCommand s).freeCount = s.freeCount := rfl

/-! ### The start of a command -/

@[simp] theorem startCommand_cfg : (startCommand s).cfg = s.cfg := rfl
@[simp] theorem startCommand_args : (startCommand s).args = s.args := rfl
@[simp] theorem startCommand_busy : (startCommand s).busy = true := rfl
@[simp] theorem startCommand_err : (startCommand s).err = s.err := rfl
@[simp] theorem startCommand_errCode : (startCommand s).errCode = s.errCode := rfl
@[simp] theorem startCommand_result : (startCommand s).result = s.result := rfl
@[simp] theorem startCommand_ctrl : (startCommand s).ctrl = s.ctrl := rfl
@[simp] theorem startCommand_cursorX : (startCommand s).cursorX = s.cursorX := rfl
@[simp] theorem startCommand_cursorY : (startCommand s).cursorY = s.cursorY := rfl
@[simp] theorem startCommand_textInk : (startCommand s).textInk = s.textInk := rfl
@[simp] theorem startCommand_textBg : (startCommand s).textBg = s.textBg := rfl
@[simp] theorem startCommand_textScale : (startCommand s).textScale = s.textScale := rfl
@[simp] theorem startCommand_dirty : (startCommand s).dirty = s.dirty := rfl
@[simp] theorem startCommand_fb : (startCommand s).fb = s.fb := rfl
@[simp] theorem startCommand_srcbuf : (startCommand s).srcbuf = s.srcbuf := rfl
@[simp] theorem startCommand_panelRstN : (startCommand s).panelRstN = s.panelRstN := rfl
@[simp] theorem startCommand_rstN : (startCommand s).rstN = s.rstN := rfl
@[simp] theorem startCommand_inflight : (startCommand s).inflight = s.inflight := rfl
@[simp] theorem startCommand_history : (startCommand s).history = s.history := rfl
@[simp] theorem startCommand_pinHistory : (startCommand s).pinHistory = s.pinHistory := rfl
@[simp] theorem startCommand_answers : (startCommand s).answers = s.answers := rfl
@[simp] theorem startCommand_events : (startCommand s).events = s.events := rfl
@[simp] theorem startCommand_readLog : (startCommand s).readLog = s.readLog := rfl
@[simp] theorem startCommand_freeCount : (startCommand s).freeCount = s.freeCount := rfl

/-! ### Clearing the error latch -/

@[simp] theorem clearError_cfg : (clearError s).cfg = s.cfg := rfl
@[simp] theorem clearError_args : (clearError s).args = s.args := rfl
@[simp] theorem clearError_busy : (clearError s).busy = s.busy := rfl
@[simp] theorem clearError_err : (clearError s).err = false := rfl
@[simp] theorem clearError_errCode : (clearError s).errCode = 0 := rfl
@[simp] theorem clearError_result : (clearError s).result = s.result := rfl
@[simp] theorem clearError_ctrl : (clearError s).ctrl = s.ctrl := rfl
@[simp] theorem clearError_cursorX : (clearError s).cursorX = s.cursorX := rfl
@[simp] theorem clearError_cursorY : (clearError s).cursorY = s.cursorY := rfl
@[simp] theorem clearError_textInk : (clearError s).textInk = s.textInk := rfl
@[simp] theorem clearError_textBg : (clearError s).textBg = s.textBg := rfl
@[simp] theorem clearError_textScale : (clearError s).textScale = s.textScale := rfl
@[simp] theorem clearError_dirty : (clearError s).dirty = s.dirty := rfl
@[simp] theorem clearError_fb : (clearError s).fb = s.fb := rfl
@[simp] theorem clearError_srcbuf : (clearError s).srcbuf = s.srcbuf := rfl
@[simp] theorem clearError_panelRstN : (clearError s).panelRstN = s.panelRstN := rfl
@[simp] theorem clearError_rstN : (clearError s).rstN = s.rstN := rfl
@[simp] theorem clearError_inflight : (clearError s).inflight = s.inflight := rfl
@[simp] theorem clearError_history : (clearError s).history = s.history := rfl
@[simp] theorem clearError_pinHistory : (clearError s).pinHistory = s.pinHistory := rfl
@[simp] theorem clearError_answers : (clearError s).answers = s.answers := rfl
@[simp] theorem clearError_events : (clearError s).events = s.events := rfl
@[simp] theorem clearError_readLog : (clearError s).readLog = s.readLog := rfl
@[simp] theorem clearError_freeCount : (clearError s).freeCount = s.freeCount := rfl

/-! ### Latching an error -/

@[simp] theorem latch_cfg (e : ErrorCode) : (latch e s).cfg = s.cfg := by unfold latch; split <;> simp_all
@[simp] theorem latch_args (e : ErrorCode) : (latch e s).args = s.args := by unfold latch; split <;> simp_all
@[simp] theorem latch_busy (e : ErrorCode) : (latch e s).busy = s.busy := by unfold latch; split <;> simp_all
@[simp] theorem latch_err (e : ErrorCode) : (latch e s).err = true := by unfold latch; split <;> simp_all
@[simp] theorem latch_errCode (e : ErrorCode) : (latch e s).errCode = if s.err then s.errCode else e.code := by unfold latch; split <;> simp_all
@[simp] theorem latch_result (e : ErrorCode) : (latch e s).result = s.result := by unfold latch; split <;> simp_all
@[simp] theorem latch_ctrl (e : ErrorCode) : (latch e s).ctrl = s.ctrl := by unfold latch; split <;> simp_all
@[simp] theorem latch_cursorX (e : ErrorCode) : (latch e s).cursorX = s.cursorX := by unfold latch; split <;> simp_all
@[simp] theorem latch_cursorY (e : ErrorCode) : (latch e s).cursorY = s.cursorY := by unfold latch; split <;> simp_all
@[simp] theorem latch_textInk (e : ErrorCode) : (latch e s).textInk = s.textInk := by unfold latch; split <;> simp_all
@[simp] theorem latch_textBg (e : ErrorCode) : (latch e s).textBg = s.textBg := by unfold latch; split <;> simp_all
@[simp] theorem latch_textScale (e : ErrorCode) : (latch e s).textScale = s.textScale := by unfold latch; split <;> simp_all
@[simp] theorem latch_dirty (e : ErrorCode) : (latch e s).dirty = s.dirty := by unfold latch; split <;> simp_all
@[simp] theorem latch_fb (e : ErrorCode) : (latch e s).fb = s.fb := by unfold latch; split <;> simp_all
@[simp] theorem latch_srcbuf (e : ErrorCode) : (latch e s).srcbuf = s.srcbuf := by unfold latch; split <;> simp_all
@[simp] theorem latch_panelRstN (e : ErrorCode) : (latch e s).panelRstN = s.panelRstN := by unfold latch; split <;> simp_all
@[simp] theorem latch_rstN (e : ErrorCode) : (latch e s).rstN = s.rstN := by unfold latch; split <;> simp_all
@[simp] theorem latch_inflight (e : ErrorCode) : (latch e s).inflight = s.inflight := by unfold latch; split <;> simp_all
@[simp] theorem latch_history (e : ErrorCode) : (latch e s).history = s.history := by unfold latch; split <;> simp_all
@[simp] theorem latch_pinHistory (e : ErrorCode) : (latch e s).pinHistory = s.pinHistory := by unfold latch; split <;> simp_all
@[simp] theorem latch_answers (e : ErrorCode) : (latch e s).answers = s.answers := by unfold latch; split <;> simp_all
@[simp] theorem latch_events (e : ErrorCode) : (latch e s).events = s.events := by unfold latch; split <;> simp_all
@[simp] theorem latch_readLog (e : ErrorCode) : (latch e s).readLog = s.readLog := by unfold latch; split <;> simp_all
@[simp] theorem latch_freeCount (e : ErrorCode) : (latch e s).freeCount = s.freeCount := by unfold latch; split <;> simp_all

/-! ### Plotting a pixel -/

@[simp] theorem plot_cfg (p : Pixel) : (plot p s).cfg = s.cfg := rfl
@[simp] theorem plot_args (p : Pixel) : (plot p s).args = s.args := rfl
@[simp] theorem plot_busy (p : Pixel) : (plot p s).busy = s.busy := rfl
@[simp] theorem plot_err (p : Pixel) : (plot p s).err = s.err := rfl
@[simp] theorem plot_errCode (p : Pixel) : (plot p s).errCode = s.errCode := rfl
@[simp] theorem plot_result (p : Pixel) : (plot p s).result = s.result := rfl
@[simp] theorem plot_ctrl (p : Pixel) : (plot p s).ctrl = s.ctrl := rfl
@[simp] theorem plot_cursorX (p : Pixel) : (plot p s).cursorX = s.cursorX := rfl
@[simp] theorem plot_cursorY (p : Pixel) : (plot p s).cursorY = s.cursorY := rfl
@[simp] theorem plot_textInk (p : Pixel) : (plot p s).textInk = s.textInk := rfl
@[simp] theorem plot_textBg (p : Pixel) : (plot p s).textBg = s.textBg := rfl
@[simp] theorem plot_textScale (p : Pixel) : (plot p s).textScale = s.textScale := rfl
@[simp] theorem plot_dirty (p : Pixel) : (plot p s).dirty = plotDirty s.cfg s.dirty p := rfl
@[simp] theorem plot_fb (p : Pixel) : (plot p s).fb = plotFb s.cfg s.fb p := rfl
@[simp] theorem plot_srcbuf (p : Pixel) : (plot p s).srcbuf = s.srcbuf := rfl
@[simp] theorem plot_panelRstN (p : Pixel) : (plot p s).panelRstN = s.panelRstN := rfl
@[simp] theorem plot_rstN (p : Pixel) : (plot p s).rstN = s.rstN := rfl
@[simp] theorem plot_inflight (p : Pixel) : (plot p s).inflight = s.inflight := rfl
@[simp] theorem plot_history (p : Pixel) : (plot p s).history = s.history := rfl
@[simp] theorem plot_pinHistory (p : Pixel) : (plot p s).pinHistory = s.pinHistory := rfl
@[simp] theorem plot_answers (p : Pixel) : (plot p s).answers = s.answers := rfl
@[simp] theorem plot_events (p : Pixel) : (plot p s).events = s.events := rfl
@[simp] theorem plot_readLog (p : Pixel) : (plot p s).readLog = s.readLog := rfl
@[simp] theorem plot_freeCount (p : Pixel) : (plot p s).freeCount = s.freeCount := rfl

/-! ### A newline -/

@[simp] theorem newline_cfg : (newline s).cfg = s.cfg := rfl
@[simp] theorem newline_args : (newline s).args = s.args := rfl
@[simp] theorem newline_busy : (newline s).busy = s.busy := rfl
@[simp] theorem newline_err : (newline s).err = s.err := rfl
@[simp] theorem newline_errCode : (newline s).errCode = s.errCode := rfl
@[simp] theorem newline_result : (newline s).result = s.result := rfl
@[simp] theorem newline_ctrl : (newline s).ctrl = s.ctrl := rfl
@[simp] theorem newline_cursorX : (newline s).cursorX = 0 := rfl
@[simp] theorem newline_cursorY : (newline s).cursorY = wrap16 (s.cursorY.toInt + 8 * (s.textScale.toNat : Int)) := rfl
@[simp] theorem newline_textInk : (newline s).textInk = s.textInk := rfl
@[simp] theorem newline_textBg : (newline s).textBg = s.textBg := rfl
@[simp] theorem newline_textScale : (newline s).textScale = s.textScale := rfl
@[simp] theorem newline_dirty : (newline s).dirty = s.dirty := rfl
@[simp] theorem newline_fb : (newline s).fb = s.fb := rfl
@[simp] theorem newline_srcbuf : (newline s).srcbuf = s.srcbuf := rfl
@[simp] theorem newline_panelRstN : (newline s).panelRstN = s.panelRstN := rfl
@[simp] theorem newline_rstN : (newline s).rstN = s.rstN := rfl
@[simp] theorem newline_inflight : (newline s).inflight = s.inflight := rfl
@[simp] theorem newline_history : (newline s).history = s.history := rfl
@[simp] theorem newline_pinHistory : (newline s).pinHistory = s.pinHistory := rfl
@[simp] theorem newline_answers : (newline s).answers = s.answers := rfl
@[simp] theorem newline_events : (newline s).events = s.events := rfl
@[simp] theorem newline_readLog : (newline s).readLog = s.readLog := rfl
@[simp] theorem newline_freeCount : (newline s).freeCount = s.freeCount := rfl

/-! ### Putting accesses back -/

@[simp] theorem requeue_cfg (as : List Access) : (requeue as s).cfg = s.cfg := rfl
@[simp] theorem requeue_args (as : List Access) : (requeue as s).args = s.args := rfl
@[simp] theorem requeue_busy (as : List Access) : (requeue as s).busy = s.busy := rfl
@[simp] theorem requeue_err (as : List Access) : (requeue as s).err = s.err := rfl
@[simp] theorem requeue_errCode (as : List Access) : (requeue as s).errCode = s.errCode := rfl
@[simp] theorem requeue_result (as : List Access) : (requeue as s).result = s.result := rfl
@[simp] theorem requeue_ctrl (as : List Access) : (requeue as s).ctrl = s.ctrl := rfl
@[simp] theorem requeue_cursorX (as : List Access) : (requeue as s).cursorX = s.cursorX := rfl
@[simp] theorem requeue_cursorY (as : List Access) : (requeue as s).cursorY = s.cursorY := rfl
@[simp] theorem requeue_textInk (as : List Access) : (requeue as s).textInk = s.textInk := rfl
@[simp] theorem requeue_textBg (as : List Access) : (requeue as s).textBg = s.textBg := rfl
@[simp] theorem requeue_textScale (as : List Access) : (requeue as s).textScale = s.textScale := rfl
@[simp] theorem requeue_dirty (as : List Access) : (requeue as s).dirty = s.dirty := rfl
@[simp] theorem requeue_fb (as : List Access) : (requeue as s).fb = s.fb := rfl
@[simp] theorem requeue_srcbuf (as : List Access) : (requeue as s).srcbuf = s.srcbuf := rfl
@[simp] theorem requeue_panelRstN (as : List Access) : (requeue as s).panelRstN = s.panelRstN := rfl
@[simp] theorem requeue_rstN (as : List Access) : (requeue as s).rstN = s.rstN := rfl
@[simp] theorem requeue_inflight (as : List Access) : (requeue as s).inflight = s.inflight := rfl
@[simp] theorem requeue_history (as : List Access) : (requeue as s).history = s.history := rfl
@[simp] theorem requeue_pinHistory (as : List Access) : (requeue as s).pinHistory = s.pinHistory := rfl
@[simp] theorem requeue_answers (as : List Access) : (requeue as s).answers = s.answers := rfl
@[simp] theorem requeue_events (as : List Access) : (requeue as s).events = as.map (fun a => .host a []) ++ s.events := rfl
@[simp] theorem requeue_readLog (as : List Access) : (requeue as s).readLog = s.readLog := rfl
@[simp] theorem requeue_freeCount (as : List Access) : (requeue as s).freeCount = s.freeCount := rfl

/-! ### Driving the panel-reset pin -/

@[simp] theorem drivePin_cfg (level : Bool) : (drivePin level s).cfg = s.cfg := rfl
@[simp] theorem drivePin_args (level : Bool) : (drivePin level s).args = s.args := rfl
@[simp] theorem drivePin_busy (level : Bool) : (drivePin level s).busy = s.busy := rfl
@[simp] theorem drivePin_err (level : Bool) : (drivePin level s).err = s.err := rfl
@[simp] theorem drivePin_errCode (level : Bool) : (drivePin level s).errCode = s.errCode := rfl
@[simp] theorem drivePin_result (level : Bool) : (drivePin level s).result = s.result := rfl
@[simp] theorem drivePin_ctrl (level : Bool) : (drivePin level s).ctrl = s.ctrl := rfl
@[simp] theorem drivePin_cursorX (level : Bool) : (drivePin level s).cursorX = s.cursorX := rfl
@[simp] theorem drivePin_cursorY (level : Bool) : (drivePin level s).cursorY = s.cursorY := rfl
@[simp] theorem drivePin_textInk (level : Bool) : (drivePin level s).textInk = s.textInk := rfl
@[simp] theorem drivePin_textBg (level : Bool) : (drivePin level s).textBg = s.textBg := rfl
@[simp] theorem drivePin_textScale (level : Bool) : (drivePin level s).textScale = s.textScale := rfl
@[simp] theorem drivePin_dirty (level : Bool) : (drivePin level s).dirty = s.dirty := rfl
@[simp] theorem drivePin_fb (level : Bool) : (drivePin level s).fb = s.fb := rfl
@[simp] theorem drivePin_srcbuf (level : Bool) : (drivePin level s).srcbuf = s.srcbuf := rfl
@[simp] theorem drivePin_panelRstN (level : Bool) : (drivePin level s).panelRstN = level := rfl
@[simp] theorem drivePin_rstN (level : Bool) : (drivePin level s).rstN = s.rstN := rfl
@[simp] theorem drivePin_inflight (level : Bool) : (drivePin level s).inflight = s.inflight := rfl
@[simp] theorem drivePin_history (level : Bool) : (drivePin level s).history = s.history := rfl
@[simp] theorem drivePin_pinHistory (level : Bool) : (drivePin level s).pinHistory = s.pinHistory ++ [if level then .high else .low] := rfl
@[simp] theorem drivePin_answers (level : Bool) : (drivePin level s).answers = s.answers := rfl
@[simp] theorem drivePin_events (level : Bool) : (drivePin level s).events = s.events := rfl
@[simp] theorem drivePin_readLog (level : Bool) : (drivePin level s).readLog = s.readLog := rfl
@[simp] theorem drivePin_freeCount (level : Bool) : (drivePin level s).freeCount = s.freeCount := rfl

/-! ### Holding the panel-reset pin -/

@[simp] theorem holdPin_cfg : (holdPin s).cfg = s.cfg := rfl
@[simp] theorem holdPin_args : (holdPin s).args = s.args := rfl
@[simp] theorem holdPin_busy : (holdPin s).busy = s.busy := rfl
@[simp] theorem holdPin_err : (holdPin s).err = s.err := rfl
@[simp] theorem holdPin_errCode : (holdPin s).errCode = s.errCode := rfl
@[simp] theorem holdPin_result : (holdPin s).result = s.result := rfl
@[simp] theorem holdPin_ctrl : (holdPin s).ctrl = s.ctrl := rfl
@[simp] theorem holdPin_cursorX : (holdPin s).cursorX = s.cursorX := rfl
@[simp] theorem holdPin_cursorY : (holdPin s).cursorY = s.cursorY := rfl
@[simp] theorem holdPin_textInk : (holdPin s).textInk = s.textInk := rfl
@[simp] theorem holdPin_textBg : (holdPin s).textBg = s.textBg := rfl
@[simp] theorem holdPin_textScale : (holdPin s).textScale = s.textScale := rfl
@[simp] theorem holdPin_dirty : (holdPin s).dirty = s.dirty := rfl
@[simp] theorem holdPin_fb : (holdPin s).fb = s.fb := rfl
@[simp] theorem holdPin_srcbuf : (holdPin s).srcbuf = s.srcbuf := rfl
@[simp] theorem holdPin_panelRstN : (holdPin s).panelRstN = s.panelRstN := rfl
@[simp] theorem holdPin_rstN : (holdPin s).rstN = s.rstN := rfl
@[simp] theorem holdPin_inflight : (holdPin s).inflight = s.inflight := rfl
@[simp] theorem holdPin_history : (holdPin s).history = s.history := rfl
@[simp] theorem holdPin_pinHistory : (holdPin s).pinHistory = s.pinHistory ++ [.hold s.cfg.resetPulse] := rfl
@[simp] theorem holdPin_answers : (holdPin s).answers = s.answers := rfl
@[simp] theorem holdPin_events : (holdPin s).events = s.events := rfl
@[simp] theorem holdPin_readLog : (holdPin s).readLog = s.readLog := rfl
@[simp] theorem holdPin_freeCount : (holdPin s).freeCount = s.freeCount := rfl

end Sys2Proof.Machine
end

