-- ==== Sys2Proof/Laws/Pixels.lean ====
section
/-! SUPPORT. The laws of the pixel operations: which byte and bit a pixel is (20_memory.md R72), what PBGet returns after
PBSet (40_driver.md R132), and what a sequence of Plots does to the framebuffer. -/

namespace Sys2Proof.Machine

/-! ### Bits -/

/-- Replacing a bit replaces that bit and no other. -/
theorem getLsbD_setBit (b : Byte) {i j : Nat} (hi : i < 8) (k : Bool) :
    (setBit b j k).getLsbD i = if i = j then k else b.getLsbD i := by
  unfold setBit
  by_cases h : i = j
  · subst h
    cases k <;> simp [hi]
  · cases k <;> simp [hi, h]

/-! ### What a legal configuration gives -/

theorem legal_width {c : Config} (h : c.legal = true) : 1 ≤ c.width ∧ c.width ≤ 32767 := by
  simp only [Config.legal, Bool.and_eq_true, Config.widthOk, decide_eq_true_eq] at h
  omega

theorem legal_height {c : Config} (h : c.legal = true) : c.height % 8 = 0 ∧ 8 ≤ c.height ∧ c.height < 65536 := by
  simp only [Config.legal, Bool.and_eq_true, Config.heightOk, decide_eq_true_eq] at h
  obtain ⟨⟨⟨⟨⟨⟨⟨⟨⟨⟨-, h⟩, -⟩, -⟩, -⟩, -⟩, -⟩, -⟩, -⟩, -⟩, -⟩ := h
  cases hs : c.selectBytes <;> simp [hs] at h <;> omega

theorem legal_block {c : Config} (h : c.legal = true) : 3 ≤ c.blockSize ∧ c.blockSize ≤ 255 := by
  simp only [Config.legal, Bool.and_eq_true, Config.blockSizeOk, decide_eq_true_eq] at h
  omega

theorem legal_initImage {c : Config} (h : c.legal = true) : c.initImage.wf ∧ c.initImage.within c.fbBytes := by
  simp only [Config.legal, Bool.and_eq_true, Config.initImageOk, decide_eq_true_eq] at h
  exact h.1.1.1.2

theorem legal_selectBytes {c : Config} (h : c.legal = true) : c.selectBytesOk = true := by
  simp only [Config.legal, Bool.and_eq_true] at h
  exact h.2

theorem legal_fbBytes {c : Config} (h : c.legal = true) : c.fbBytes = c.width * (c.height / 8) := by
  obtain ⟨h8, -, -⟩ := legal_height h
  obtain ⟨k, hk⟩ := Nat.dvd_of_mod_eq_zero h8
  rw [Config.fbBytes, hk, Nat.mul_div_cancel_left k (by omega), show c.width * (8 * k) = c.width * k * 8 by ring,
    Nat.mul_div_cancel _ (by omega)]

/-! ### The pixel map -/

/-- Two canvas pixels of one byte and one bit are one pixel (20_memory.md R72). -/
theorem pixIndex_inj {c : Config} {x y x' y' : Nat} (hx : x < c.width) (hx' : x' < c.width)
    (h : pixIndex c x y = pixIndex c x' y') : x = x' ∧ y / 8 = y' / 8 := by
  unfold pixIndex at h
  have h1 := congrArg (· % c.width) h
  simp only [Nat.add_mul_mod_self_right, Nat.mod_eq_of_lt hx, Nat.mod_eq_of_lt hx'] at h1
  subst h1
  exact ⟨rfl, Nat.eq_of_mul_eq_mul_right (by omega : 0 < c.width) (by omega)⟩

theorem pixIndex_lt {c : Config} (hc : c.legal = true) {x y : Nat} (hx : x < c.width) (hy : y < c.height) :
    pixIndex c x y < c.fbBytes := by
  obtain ⟨h8, -, -⟩ := legal_height hc
  have hb : y / 8 + 1 ≤ c.height / 8 := by omega
  have := Nat.mul_le_mul_right c.width hb
  rw [legal_fbBytes hc, pixIndex, Nat.mul_comm c.width]
  nlinarith

/-! ### PBSet and PBGet -/

theorem wf_pbSet {c : Config} {fb : Memory} (h : fb.wf) (x y : Int) (k : Bool) : (pbSet c fb x y k).wf := by
  unfold pbSet
  split
  · exact Memory.wf_write h _ _
  · exact h

theorem within_pbSet {c : Config} (hc : c.legal = true) {fb : Memory} (h : fb.within c.fbBytes) (x y : Int) (k : Bool) :
    (pbSet c fb x y k).within c.fbBytes := by
  unfold pbSet
  split
  · next hi => exact Memory.within_write h (pixIndex_lt hc (by omega) (by omega)) _
  · exact h

/-- What PBGet returns after PBSet (40_driver.md R132): the pixel set reads back, every other pixel is as before. -/
theorem pbGet_pbSet {c : Config} {fb : Memory} (h : fb.wf) {x y x' y' : Int} (hi : inCanvas c x y)
    (hi' : inCanvas c x' y') (k : Bool) :
    pbGet c (pbSet c fb x y k) x' y' = if x' = x ∧ y' = y then k else pbGet c fb x' y' := by
  have hb : ∀ n : Nat, pixBit n < 8 := fun n => Nat.mod_lt _ (by omega)
  simp only [pbGet, pbSet, if_pos hi, if_pos hi']
  rw [Memory.read_write h]
  by_cases hp : pixIndex c x.toNat y.toNat = pixIndex c x'.toNat y'.toNat
  · obtain ⟨hx, hy⟩ := pixIndex_inj (by omega) (by omega) hp
    rw [if_pos hp, getLsbD_setBit _ (hb _), hp]
    by_cases hbit : pixBit y'.toNat = pixBit y.toNat
    · have : y'.toNat = y.toNat := by
        have h1 := Nat.div_add_mod y.toNat 8
        have h2 := Nat.div_add_mod y'.toNat 8
        unfold pixBit at hbit
        omega
      rw [if_pos hbit, if_pos (by omega)]
    · rw [if_neg hbit, if_neg]
      rintro ⟨rfl, rfl⟩
      exact hbit rfl
  · rw [if_neg hp, if_neg]
    rintro ⟨rfl, rfl⟩
    exact hp rfl

/-- A pixel outside the canvas reads as background (40_driver.md R132). -/
theorem pbGet_outside {c : Config} {fb : Memory} {x y : Int} (h : ¬ inCanvas c x y) : pbGet c fb x y = false := by
  simp only [pbGet, if_neg h]

theorem pbSet_outside {c : Config} {fb : Memory} {x y : Int} (h : ¬ inCanvas c x y) (k : Bool) :
    pbSet c fb x y k = fb := by
  simp only [pbSet, if_neg h]

/-! ### A sequence of Plots -/

/-- The framebuffer after a sequence of Plots. -/
def plotsFb (c : Config) (fb : Memory) (ps : List Pixel) : Memory := ps.foldl (plotFb c) fb

/-- The dirty region after a sequence of Plots. -/
def plotsDirty (c : Config) (r : Region) (ps : List Pixel) : Region := ps.foldl (plotDirty c) r

/-- Everything a sequence of Plots can do: it changes the framebuffer and the dirty region. -/
theorem plotAll_eq (ps : List Pixel) (s : State) :
    plotAll ps s = { s with fb := plotsFb s.cfg s.fb ps, dirty := plotsDirty s.cfg s.dirty ps } := by
  induction ps generalizing s with
  | nil => rfl
  | cons p ps ih => rw [plotAll, ih]; rfl

theorem wf_plotsFb {c : Config} {fb : Memory} (h : fb.wf) (ps : List Pixel) : (plotsFb c fb ps).wf := by
  induction ps generalizing fb with
  | nil => exact h
  | cons p ps ih => exact ih (wf_pbSet h _ _ _)

theorem within_plotsFb {c : Config} (hc : c.legal = true) {fb : Memory} (h : fb.within c.fbBytes) (ps : List Pixel) :
    (plotsFb c fb ps).within c.fbBytes := by
  induction ps generalizing fb with
  | nil => exact h
  | cons p ps ih => exact ih (within_pbSet hc h _ _ _)

/-- A canvas pixel that no Plot names keeps its value. -/
theorem pbGet_plotsFb_of_not_mem {c : Config} {fb : Memory} (h : fb.wf) {ps : List Pixel} {x y : Int}
    (hm : ∀ p ∈ ps, p.pos ≠ ⟨x, y⟩) : pbGet c (plotsFb c fb ps) x y = pbGet c fb x y := by
  induction ps generalizing fb with
  | nil => rfl
  | cons p ps ih =>
    have hp : p.pos ≠ ⟨x, y⟩ := hm p (by simp)
    have hrest := ih (fb := plotFb c fb p) (wf_pbSet h _ _ _) (fun q hq => hm q (by simp [hq]))
    rw [plotsFb, List.foldl_cons]
    refine hrest.trans ?_
    by_cases hxy : inCanvas c x y
    · by_cases hpos : inCanvas c p.pos.x p.pos.y
      · rw [plotFb, pbGet_pbSet h hpos hxy, if_neg]
        rintro ⟨rfl, rfl⟩
        exact hp rfl
      · rw [plotFb, pbSet_outside hpos]
    · rw [pbGet_outside hxy, pbGet_outside hxy]

/-- A canvas pixel that some Plot names, all of which plot it in colours of one bit value, takes that value. -/
theorem pbGet_plotsFb_of_mem {c : Config} {fb : Memory} (h : fb.wf) {ps : List Pixel} {x y : Int} {k : Bool}
    (hxy : inCanvas c x y) (hm : ∃ p ∈ ps, p.pos = ⟨x, y⟩) (hk : ∀ p ∈ ps, p.pos = ⟨x, y⟩ → inkOf p.c = k) :
    pbGet c (plotsFb c fb ps) x y = k := by
  induction ps generalizing fb with
  | nil => simp at hm
  | cons p ps ih =>
    have hw : (plotFb c fb p).wf := wf_pbSet h _ _ _
    rw [plotsFb, List.foldl_cons]
    by_cases hlater : ∃ q ∈ ps, q.pos = ⟨x, y⟩
    · exact ih hw hlater (fun q hq => hk q (by simp [hq]))
    · have hp : p.pos = ⟨x, y⟩ := by
        obtain ⟨q, hq, hqp⟩ := hm
        rcases List.mem_cons.mp hq with rfl | hq
        · exact hqp
        · exact absurd ⟨q, hq, hqp⟩ hlater
      refine (pbGet_plotsFb_of_not_mem hw (fun q hq hqp => hlater ⟨q, hq, hqp⟩)).trans ?_
      rw [plotFb, hp, pbGet_pbSet h hxy hxy, if_pos ⟨rfl, rfl⟩]
      exact hk p (by simp) hp

/-- What painting points in one colour does to a canvas pixel. -/
theorem pbGet_paint {c : Config} {fb : Memory} (h : fb.wf) (col : Colour) (ps : List Point) {x y : Int}
    (hxy : inCanvas c x y) :
    ((⟨x, y⟩ : Point) ∈ ps → pbGet c (plotsFb c fb (paint col ps)) x y = inkOf col) ∧
    ((⟨x, y⟩ : Point) ∉ ps → pbGet c (plotsFb c fb (paint col ps)) x y = pbGet c fb x y) := by
  refine ⟨fun hm => pbGet_plotsFb_of_mem h hxy ⟨⟨⟨x, y⟩, col⟩, by simpa [paint] using hm, rfl⟩ ?_,
    fun hm => pbGet_plotsFb_of_not_mem h ?_⟩
  · intro p hp _
    obtain ⟨q, -, rfl⟩ := List.mem_map.mp hp
    rfl
  · intro p hp hpos
    obtain ⟨q, hq, rfl⟩ := List.mem_map.mp hp
    exact hm (hpos ▸ hq)

end Sys2Proof.Machine
end

