-- ==== Sys2Proof/Laws/Regions.lean ====
section
/-! SUPPORT. The laws of the dirty region: what Widen gives (40_driver.md R134), that the region stays in the canvas
(10_state.md R47), and what a sequence of Plots makes of it. -/

namespace Sys2Proof.Machine

/-! ### Widen -/

@[simp] theorem widen_xMin (r : Region) (x0 y0 x1 y1 : Nat) :
    (r.widen x0 y0 x1 y1).xMin.toNat = min r.xMin.toNat x0 := by
  have := r.xMin.isLt
  simp only [Region.widen, BitVec.toNat_ofNat]
  exact Nat.mod_eq_of_lt (by omega)

@[simp] theorem widen_yMin (r : Region) (x0 y0 x1 y1 : Nat) :
    (r.widen x0 y0 x1 y1).yMin.toNat = min r.yMin.toNat y0 := by
  have := r.yMin.isLt
  simp only [Region.widen, BitVec.toNat_ofNat]
  exact Nat.mod_eq_of_lt (by omega)

theorem widen_xMax (r : Region) {x0 y0 x1 y1 : Nat} (h : x1 < 65536) :
    (r.widen x0 y0 x1 y1).xMax.toNat = max r.xMax.toNat x1 := by
  have := r.xMax.isLt
  simp only [Region.widen, BitVec.toNat_ofNat]
  exact Nat.mod_eq_of_lt (by omega)

theorem widen_yMax (r : Region) {x0 y0 x1 y1 : Nat} (h : y1 < 65536) :
    (r.widen x0 y0 x1 y1).yMax.toNat = max r.yMax.toNat y1 := by
  have := r.yMax.isLt
  simp only [Region.widen, BitVec.toNat_ofNat]
  exact Nat.mod_eq_of_lt (by omega)

/-! ### The sentinel and the canvas -/

theorem sentinel_toNat {c : Config} (hc : c.legal = true) :
    (Region.sentinel c).xMin.toNat = c.width ∧ (Region.sentinel c).yMin.toNat = c.height ∧
      (Region.sentinel c).xMax.toNat = 0 ∧ (Region.sentinel c).yMax.toNat = 0 := by
  obtain ⟨-, hw⟩ := legal_width hc
  obtain ⟨-, -, hh⟩ := legal_height hc
  simp only [Region.sentinel, BitVec.toNat_ofNat]
  exact ⟨Nat.mod_eq_of_lt (by omega), Nat.mod_eq_of_lt (by omega), rfl, rfl⟩

theorem canvas_toNat {c : Config} (hc : c.legal = true) :
    (Region.canvas c).xMin.toNat = 0 ∧ (Region.canvas c).yMin.toNat = 0 ∧
      (Region.canvas c).xMax.toNat = c.width - 1 ∧ (Region.canvas c).yMax.toNat = c.height - 1 := by
  obtain ⟨-, hw⟩ := legal_width hc
  obtain ⟨-, -, hh⟩ := legal_height hc
  simp only [Region.canvas, BitVec.toNat_ofNat]
  exact ⟨rfl, rfl, Nat.mod_eq_of_lt (by omega), Nat.mod_eq_of_lt (by omega)⟩

/-- The sentinel is empty, a region in the canvas is not (10_state.md R46, R47). -/
theorem isEmpty_sentinel {c : Config} (hc : c.legal = true) : (Region.sentinel c).isEmpty = true := by
  obtain ⟨h1, -, h2, -⟩ := sentinel_toNat hc
  obtain ⟨hw, -⟩ := legal_width hc
  simp only [Region.isEmpty, h1, h2, decide_eq_true_eq]
  omega

theorem isEmpty_of_inside {c : Config} {r : Region} (h : r.inside c) : r.isEmpty = false := by
  simp only [Region.isEmpty, decide_eq_false_iff_not]
  have := h.1
  omega

theorem canvas_inside {c : Config} (hc : c.legal = true) : (Region.canvas c).inside c := by
  obtain ⟨h1, h2, h3, h4⟩ := canvas_toNat hc
  obtain ⟨hw, -⟩ := legal_width hc
  obtain ⟨-, hh, -⟩ := legal_height hc
  exact ⟨by omega, by omega, by omega, by omega⟩

/-- Widening by a rectangle of the canvas leaves a region in the canvas (10_state.md R47). -/
theorem widen_inside {c : Config} (hc : c.legal = true) {r : Region} (h : r = Region.sentinel c ∨ r.inside c)
    {x0 y0 x1 y1 : Nat} (hx : x0 ≤ x1) (hy : y0 ≤ y1) (hx1 : x1 < c.width) (hy1 : y1 < c.height) :
    (r.widen x0 y0 x1 y1).inside c := by
  obtain ⟨-, hw⟩ := legal_width hc
  obtain ⟨-, -, hh⟩ := legal_height hc
  obtain ⟨s1, s2, s3, s4⟩ := sentinel_toNat hc
  unfold Region.inside
  rw [widen_xMin, widen_yMin, widen_xMax r (by omega), widen_yMax r (by omega)]
  rcases h with rfl | ⟨h1, h2, h3, h4⟩ <;> omega

/-! ### A sequence of Plots -/

theorem plotDirty_ok {c : Config} (hc : c.legal = true) {r : Region} (h : r = Region.sentinel c ∨ r.inside c) (p : Pixel) :
    plotDirty c r p = Region.sentinel c ∨ (plotDirty c r p).inside c := by
  unfold plotDirty
  split
  · exact .inr (widen_inside hc h (by omega) (by omega) (by omega) (by omega))
  · exact h

theorem plotsDirty_ok {c : Config} (hc : c.legal = true) {r : Region} (h : r = Region.sentinel c ∨ r.inside c)
    (ps : List Pixel) : plotsDirty c r ps = Region.sentinel c ∨ (plotsDirty c r ps).inside c := by
  induction ps generalizing r with
  | nil => exact h
  | cons p ps ih => exact ih (plotDirty_ok hc h p)

/-- `n` is at most XMIN after the Plots exactly if it was before and is at most the column of every canvas pixel plotted;
likewise for the other three corners. -/
theorem le_plotsDirty_xMin (c : Config) (r : Region) (ps : List Pixel) (n : Nat) :
    n ≤ (plotsDirty c r ps).xMin.toNat ↔
      n ≤ r.xMin.toNat ∧ ∀ p ∈ ps, inCanvas c p.pos.x p.pos.y → (n : Int) ≤ p.pos.x := by
  induction ps generalizing r with
  | nil => simp [plotsDirty]
  | cons p ps ih =>
    have h := ih (plotDirty c r p)
    simp only [plotsDirty, List.foldl_cons] at h ⊢
    rw [h]
    by_cases hp : inCanvas c p.pos.x p.pos.y
    · simp only [plotDirty, if_pos hp, widen_xMin, List.forall_mem_cons, Nat.le_min]
      exact ⟨fun ⟨a, b⟩ => ⟨by omega, fun _ => by omega, b⟩, fun ⟨a, b, d⟩ => ⟨by have := b hp; omega, d⟩⟩
    · simp only [plotDirty, if_neg hp, List.forall_mem_cons]
      exact ⟨fun ⟨a, b⟩ => ⟨a, fun h => absurd h hp, b⟩, fun ⟨a, _, b⟩ => ⟨a, b⟩⟩

theorem le_plotsDirty_yMin (c : Config) (r : Region) (ps : List Pixel) (n : Nat) :
    n ≤ (plotsDirty c r ps).yMin.toNat ↔
      n ≤ r.yMin.toNat ∧ ∀ p ∈ ps, inCanvas c p.pos.x p.pos.y → (n : Int) ≤ p.pos.y := by
  induction ps generalizing r with
  | nil => simp [plotsDirty]
  | cons p ps ih =>
    have h := ih (plotDirty c r p)
    simp only [plotsDirty, List.foldl_cons] at h ⊢
    rw [h]
    by_cases hp : inCanvas c p.pos.x p.pos.y
    · simp only [plotDirty, if_pos hp, widen_yMin, List.forall_mem_cons, Nat.le_min]
      exact ⟨fun ⟨a, b⟩ => ⟨by omega, fun _ => by omega, b⟩, fun ⟨a, b, d⟩ => ⟨by have := b hp; omega, d⟩⟩
    · simp only [plotDirty, if_neg hp, List.forall_mem_cons]
      exact ⟨fun ⟨a, b⟩ => ⟨a, fun h => absurd h hp, b⟩, fun ⟨a, _, b⟩ => ⟨a, b⟩⟩

theorem plotsDirty_xMax_le {c : Config} (hc : c.legal = true) (r : Region) (ps : List Pixel) (n : Nat) :
    (plotsDirty c r ps).xMax.toNat ≤ n ↔
      r.xMax.toNat ≤ n ∧ ∀ p ∈ ps, inCanvas c p.pos.x p.pos.y → p.pos.x ≤ (n : Int) := by
  obtain ⟨-, hw⟩ := legal_width hc
  induction ps generalizing r with
  | nil => simp [plotsDirty]
  | cons p ps ih =>
    have h := ih (plotDirty c r p)
    simp only [plotsDirty, List.foldl_cons] at h ⊢
    rw [h]
    by_cases hp : inCanvas c p.pos.x p.pos.y
    · simp only [plotDirty, if_pos hp, List.forall_mem_cons]
      rw [widen_xMax r (by omega), Nat.max_le]
      exact ⟨fun ⟨a, b⟩ => ⟨by omega, fun _ => by omega, b⟩, fun ⟨a, b, d⟩ => ⟨by have := b hp; omega, d⟩⟩
    · simp only [plotDirty, if_neg hp, List.forall_mem_cons]
      exact ⟨fun ⟨a, b⟩ => ⟨a, fun h => absurd h hp, b⟩, fun ⟨a, _, b⟩ => ⟨a, b⟩⟩

theorem plotsDirty_yMax_le {c : Config} (hc : c.legal = true) (r : Region) (ps : List Pixel) (n : Nat) :
    (plotsDirty c r ps).yMax.toNat ≤ n ↔
      r.yMax.toNat ≤ n ∧ ∀ p ∈ ps, inCanvas c p.pos.x p.pos.y → p.pos.y ≤ (n : Int) := by
  obtain ⟨-, -, hh⟩ := legal_height hc
  induction ps generalizing r with
  | nil => simp [plotsDirty]
  | cons p ps ih =>
    have h := ih (plotDirty c r p)
    simp only [plotsDirty, List.foldl_cons] at h ⊢
    rw [h]
    by_cases hp : inCanvas c p.pos.x p.pos.y
    · simp only [plotDirty, if_pos hp, List.forall_mem_cons]
      rw [widen_yMax r (by omega), Nat.max_le]
      exact ⟨fun ⟨a, b⟩ => ⟨by omega, fun _ => by omega, b⟩, fun ⟨a, b, d⟩ => ⟨by have := b hp; omega, d⟩⟩
    · simp only [plotDirty, if_neg hp, List.forall_mem_cons]
      exact ⟨fun ⟨a, b⟩ => ⟨a, fun h => absurd h hp, b⟩, fun ⟨a, _, b⟩ => ⟨a, b⟩⟩

end Sys2Proof.Machine
end

