-- ==== Sys2Proof/Laws/Transmit.lean ====
section
/-! SUPPORT. Everything the transport port can do to a command (20_memory.md R85, 60_exceptions.md R293), and the sizes of
the transactions a refresh plans (40_driver.md R138). -/

namespace Sys2Proof.Machine

@[simp] theorem raiseError_eq (e : ErrorCode) (s : State) : raiseError e s = endCommand (latch e s) := rfl

/-! ### What a list of transactions comes to -/

/-- Every transaction answered with success: all are recorded, and the command ends. -/
theorem transmit_of_all_true (after : TxThen) (ts : List TxRequest) (s : State) {as : List Bool}
    (h : s.answers = List.replicate ts.length true ++ as) :
    transmit after ts s =
      endCommand (afterLast after { s with answers := as, history := s.history ++ ts.map (answered true) }) := by
  induction ts generalizing s with
  | nil => cases s; simp_all [transmit]
  | cons t ts ih =>
    simp only [List.length_cons, List.replicate_succ, List.cons_append] at h
    rw [transmit, h]
    simp only
    rw [ih _ rfl]
    simp

/-- A transaction answered with failure: it is recorded and TRANSPORT_ERROR raised; none after it is issued. -/
theorem transmit_of_false (after : TxThen) (pre : List TxRequest) (t : TxRequest) (post : List TxRequest) (s : State)
    {as : List Bool} (h : s.answers = List.replicate pre.length true ++ false :: as) :
    transmit after (pre ++ t :: post) s = raiseError .transportError
      { s with answers := as, history := s.history ++ (pre.map (answered true) ++ [answered false t]) } := by
  induction pre generalizing s with
  | nil =>
    rw [List.nil_append, transmit, h]
    simp
  | cons p pre ih =>
    simp only [List.length_cons, List.replicate_succ, List.cons_append] at h
    rw [List.cons_append, transmit, h]
    simp only
    rw [ih _ rfl]
    simp

/-- No answer for a transaction: the command waits on it with BUSY = 1. -/
theorem transmit_of_none (after : TxThen) (pre : List TxRequest) (t : TxRequest) (post : List TxRequest) (s : State)
    (h : s.answers = List.replicate pre.length true) :
    transmit after (pre ++ t :: post) s =
      { s with
        answers := [], history := s.history ++ pre.map (answered true), busy := true
        inflight := some ⟨t :: post, after⟩ } := by
  induction pre generalizing s with
  | nil =>
    have h0 : s.answers = [] := by simpa using h
    rw [List.nil_append, transmit, h0]
    cases s
    simp_all
  | cons p pre ih =>
    simp only [List.length_cons, List.replicate_succ] at h
    rw [List.cons_append, transmit, h]
    simp only
    rw [ih _ rfl]
    simp

/-- Answers either give success to all of `n` transactions, or fail the one after some successes, or run out. -/
theorem answers_cases (bs : List Bool) (n : Nat) :
    (∃ as, bs = List.replicate n true ++ as) ∨
    (∃ k as, k < n ∧ bs = List.replicate k true ++ false :: as) ∨
    (∃ k, k < n ∧ bs = List.replicate k true) := by
  induction n generalizing bs with
  | zero => exact .inl ⟨bs, by simp⟩
  | succ n ih =>
    match bs with
    | [] => exact .inr (.inr ⟨0, by omega, rfl⟩)
    | false :: bs => exact .inr (.inl ⟨0, bs, by omega, rfl⟩)
    | true :: bs =>
      rcases ih bs with ⟨as, h⟩ | ⟨k, as, hk, h⟩ | ⟨k, hk, h⟩
      · exact .inl ⟨as, by rw [h, List.replicate_succ, List.cons_append]⟩
      · exact .inr (.inl ⟨k + 1, as, by omega, by rw [h, List.replicate_succ, List.cons_append]⟩)
      · exact .inr (.inr ⟨k + 1, by omega, by rw [h, List.replicate_succ]⟩)

/-- Everything a list of transactions can come to: all succeed, one fails, or one waits. -/
theorem transmit_cases (after : TxThen) (ts : List TxRequest) (s : State) :
    (∃ as, transmit after ts s =
      endCommand (afterLast after { s with answers := as, history := s.history ++ ts.map (answered true) })) ∨
    (∃ pre t post as, ts = pre ++ t :: post ∧ transmit after ts s = raiseError .transportError
      { s with answers := as, history := s.history ++ (pre.map (answered true) ++ [answered false t]) }) ∨
    (∃ pre t post, ts = pre ++ t :: post ∧ transmit after ts s =
      { s with
        answers := [], history := s.history ++ pre.map (answered true), busy := true
        inflight := some ⟨t :: post, after⟩ }) := by
  have cut : ∀ k, k < ts.length → ∃ pre t post, ts = pre ++ t :: post ∧ pre.length = k := fun k hk =>
    ⟨ts.take k, ts[k], ts.drop (k + 1), by rw [List.getElem_cons_drop, List.take_append_drop],
      by simp only [List.length_take]; omega⟩
  rcases answers_cases s.answers ts.length with ⟨as, h⟩ | ⟨k, as, hk, h⟩ | ⟨k, hk, h⟩
  · exact .inl ⟨as, transmit_of_all_true after ts s h⟩
  · obtain ⟨pre, t, post, rfl, rfl⟩ := cut k hk
    exact .inr (.inl ⟨pre, t, post, as, rfl, transmit_of_false after pre t post s h⟩)
  · obtain ⟨pre, t, post, rfl, rfl⟩ := cut k hk
    exact .inr (.inr ⟨pre, t, post, rfl, transmit_of_none after pre t post s h⟩)

/-! ### The sizes of a refresh's transactions -/

theorem length_selectBytesOf {c : Config} (hc : c.legal = true) (band col : Nat) :
    blockSized c (selectBytesOf c band col) := by
  obtain ⟨hb, -⟩ := legal_block hc
  have h := legal_selectBytes hc
  unfold selectBytesOf
  unfold Config.selectBytesOk at h
  cases hs : c.selectBytes with
  | pageAddressing => exact ⟨by simp, by simpa using hb⟩
  | table rows otherwise =>
    simp only [hs, Bool.and_eq_true, List.all_eq_true, Config.blockLength, decide_eq_true_eq] at h
    simp only
    cases hf : rows.find? (fun r => decide (r.band = band) && decide (r.col = col)) with
    | none => exact h.2
    | some r => exact h.1 r (List.mem_of_find?_eq_some hf)

theorem dataBlocks_sized {c : Config} (hc : c.legal = true) (fb : Memory) (band x1 fuel col : Nat) :
    ∀ t ∈ dataBlocks c fb band x1 fuel col, blockSized c t.bytes := by
  obtain ⟨hb, -⟩ := legal_block hc
  induction fuel generalizing col with
  | zero => simp [dataBlocks]
  | succ fuel ih =>
    intro t ht
    simp only [dataBlocks] at ht
    split at ht
    · rcases List.mem_cons.mp ht with rfl | ht
      · simp only [blockSized, List.length_map, List.length_range]
        omega
      · exact ih _ t ht
    · simp at ht

/-- Every transaction a refresh plans carries 1 to BLOCK_SIZE bytes. -/
theorem refreshPlan_sized {s : State} (hc : s.cfg.legal = true) : ∀ t ∈ refreshPlan s, blockSized s.cfg t.bytes := by
  intro t ht
  simp only [refreshPlan, List.mem_flatMap, bandTransactions, List.mem_cons] at ht
  obtain ⟨k, -, rfl | ht⟩ := ht
  · exact length_selectBytesOf hc _ _
  · exact dataBlocks_sized hc _ _ _ _ _ t ht

end Sys2Proof.Machine
end

