-- ==== Sys2Proof/Laws/Commands.lean ====
section
/-! SUPPORT. Everything a command can do: what a refresh, the end of a drawing command, a character and each command come
to, and that each leaves a sound state sound. -/

namespace Sys2Proof.Machine

/-! ### Sequences of Plots -/

theorem plotsFb_append (c : Config) (fb : Memory) (ps qs : List Pixel) :
    plotsFb c fb (ps ++ qs) = plotsFb c (plotsFb c fb ps) qs := List.foldl_append

theorem plotsDirty_append (c : Config) (r : Region) (ps qs : List Pixel) :
    plotsDirty c r (ps ++ qs) = plotsDirty c (plotsDirty c r ps) qs := List.foldl_append

/-- PBSet writes one byte: every other byte reads as before (40_driver.md R132). -/
theorem read_pbSet_other {c : Config} {fb : Memory} (h : fb.wf) {x y : Int} {k : Bool} {i : Nat}
    (hi : inCanvas c x y → pixIndex c x.toNat y.toNat ≠ i) : (pbSet c fb x y k).read i = fb.read i := by
  unfold pbSet
  split
  · next hc => exact Memory.read_write_other h (hi hc) _
  · rfl

/-- A byte that holds no plotted canvas pixel reads as before. -/
theorem read_plotsFb_other {c : Config} {fb : Memory} (h : fb.wf) {ps : List Pixel} {i : Nat}
    (hi : ∀ p ∈ ps, inCanvas c p.pos.x p.pos.y → pixIndex c p.pos.x.toNat p.pos.y.toNat ≠ i) :
    (plotsFb c fb ps).read i = fb.read i := by
  induction ps generalizing fb with
  | nil => rfl
  | cons p ps ih =>
    exact (ih (fb := plotFb c fb p) (wf_pbSet h _ _ _) (fun q hq => hi q (by simp [hq]))).trans
      (read_pbSet_other h (hi p (by simp)))

/-! ### The end of a drawing command -/

/-- What a refresh comes to: nothing where the region is empty, else its plan (40_driver.md R136, R138). -/
theorem refresh_cases (s : State) :
    (s.dirty.isEmpty = true ∧ refresh s = endCommand s) ∨
    (s.dirty.isEmpty = false ∧ refresh s = transmit .clearRegion (refreshPlan s) s) := by
  unfold refresh
  cases s.dirty.isEmpty <;> simp

/-- What a drawing command leaves to its end: the framebuffer and the region as its Plots make them, and the cursor. -/
def drawn (ps : List Pixel) (cx cy : Half) (s : State) : State :=
  { s with fb := plotsFb s.cfg s.fb ps, dirty := plotsDirty s.cfg s.dirty ps, cursorX := cx, cursorY := cy }

theorem drawn_drawn (ps qs : List Pixel) (cx cy cx' cy' : Half) (s : State) :
    drawn qs cx' cy' (drawn ps cx cy s) = drawn (ps ++ qs) cx' cy' s := by
  simp only [drawn, plotsFb_append, plotsDirty_append]

theorem draw_eq (ps : List Pixel) (s : State) : draw ps s = commandEnd (drawn ps s.cursorX s.cursorY s) := by
  rw [draw, plotAll_eq]
  rfl

/-! ### Text -/

/-- What a character comes to: some Plots, none for a newline or a carriage return, and a cursor (44_bitmap_text.md R264). -/
theorem writeChar_drawn (ch : Byte) (s : State) : ∃ ps cx cy, writeChar ch s = drawn ps cx cy s := by
  unfold writeChar
  split
  · exact ⟨[], _, _, rfl⟩
  · split
    · exact ⟨[], s.cursorX, s.cursorY, rfl⟩
    · rw [drawChar, plotAll_eq]
      unfold advance
      simp only
      split
      · exact ⟨_, _, _, rfl⟩
      · exact ⟨_, _, _, rfl⟩

theorem writeChars_drawn (n i : Nat) (s : State) : ∃ ps cx cy, writeChars n i s = drawn ps cx cy s := by
  induction n generalizing i s with
  | zero => exact ⟨[], s.cursorX, s.cursorY, rfl⟩
  | succ n ih =>
    obtain ⟨ps, cx, cy, h⟩ := writeChar_drawn (src s i) s
    obtain ⟨qs, cx', cy', h'⟩ := ih (i + 1) (drawn ps cx cy s)
    exact ⟨ps ++ qs, cx', cy', by rw [writeChars, h, h', drawn_drawn]⟩

/-! ### Every command -/

/-- Everything a drawing command can do: Plots, a cursor that only the text commands move, then CommandEnd (40_driver.md
R133, R140). -/
theorem exec_drawing (i : Instr) (s : State) (h : i.isDrawing = true) :
    ∃ ps cx cy, exec i s = .next (commandEnd (drawn ps cx cy s)) ∧
      (i ≠ .writeChar → i ≠ .writeString → cx = s.cursorX ∧ cy = s.cursorY) := by
  cases i <;> first
    | exact absurd h (by decide)
    | exact ⟨_, _, _, by
        simp only [exec, execPixel, execLine, execVline, execHline, execRect, execFillRect, execRoundRect,
          execFillRoundRect, execCircle, execFillCircle, execTriangle, execFillTriangle, execBitmap, draw_eq]
        rfl, fun _ _ => ⟨rfl, rfl⟩⟩
    | skip
  · obtain ⟨ps, cx, cy, h⟩ := writeChar_drawn (argU8 s 0) s
    exact ⟨ps, cx, cy, by rw [exec, execWriteChar, h], fun h => absurd rfl h⟩
  · obtain ⟨ps, cx, cy, h⟩ := writeChars_drawn (argU16 s 1) (argU16 s 0) s
    exact ⟨ps, cx, cy, by rw [exec, execWriteString, h], fun _ h => absurd rfl h⟩

/-- No command faults and none is refused (60_exceptions.md R299, 30_encoding.md R108). -/
theorem exec_next (i : Instr) (s : State) : ∃ t, exec i s = .next t := by
  cases i <;> exact ⟨_, rfl⟩

/-! ### Soundness -/

/-- Plots and a new cursor keep a state sound (10_state.md R47). -/
theorem State.Sound.drawn {s : State} (h : s.Sound) (ps : List Pixel) (cx cy : Half) :
    (Machine.drawn ps cx cy s).Sound where
  cfgLegal := h.cfgLegal
  region := plotsDirty_ok h.cfgLegal h.region ps
  fbForm := wf_plotsFb h.fbForm ps
  fbSize := within_plotsFb h.cfgLegal h.fbSize ps
  srcForm := h.srcForm
  srcSize := h.srcSize
  scale := h.scale
  codeClear := h.codeClear
  codeLatched := h.codeLatched
  resultTop := h.resultTop
  pinHigh := h.pinHigh
  sizes := h.sizes

/-- A latched code is one of R290's four. -/
theorem code_range (e : ErrorCode) : 1 ≤ e.code.toNat ∧ e.code.toNat ≤ 4 := by
  cases e <;> decide

theorem State.Sound.latch {s : State} (h : s.Sound) (e : ErrorCode) : (Machine.latch e s).Sound := by
  unfold Machine.latch
  split
  · exact h
  · exact ⟨h.cfgLegal, h.region, h.fbForm, h.fbSize, h.srcForm, h.srcSize, h.scale, fun hf => by simp at hf,
      fun _ => code_range e, h.resultTop, h.pinHigh, h.sizes⟩

theorem State.Sound.clearError {s : State} (h : s.Sound) : (Machine.clearError s).Sound :=
  ⟨h.cfgLegal, h.region, h.fbForm, h.fbSize, h.srcForm, h.srcSize, h.scale, fun _ => rfl,
    fun hf => by simp at hf, h.resultTop, h.pinHigh, h.sizes⟩

/-- A command that ends leaves the machine's invariant. -/
theorem State.Sound.endCommand {s : State} (h : s.Sound) : (Machine.endCommand s).Inv where
  toSound := ⟨h.cfgLegal, h.region, h.fbForm, h.fbSize, h.srcForm, h.srcSize, h.scale, h.codeClear, h.codeLatched,
    h.resultTop, h.pinHigh, h.sizes⟩
  waiting := rfl
  inReset := fun _ => rfl
  pending := fun f hf => by simp at hf

theorem State.Sound.afterLast {s : State} (h : s.Sound) (a : TxThen) : (Machine.afterLast a s).Sound := by
  cases a
  · exact ⟨h.cfgLegal, .inl rfl, h.fbForm, h.fbSize, h.srcForm, h.srcSize, h.scale, h.codeClear, h.codeLatched,
      h.resultTop, h.pinHigh, h.sizes⟩
  · exact h

/-- Answered transactions of 1 to BLOCK_SIZE bytes keep a state sound (20_memory.md R85). -/
theorem State.Sound.answered {s : State} (h : s.Sound) (as : List Bool) {new : List Transaction}
    (hn : ∀ t ∈ new, blockSized s.cfg t.bytes) : ({ s with answers := as, history := s.history ++ new }).Sound where
  cfgLegal := h.cfgLegal
  region := h.region
  fbForm := h.fbForm
  fbSize := h.fbSize
  srcForm := h.srcForm
  srcSize := h.srcSize
  scale := h.scale
  codeClear := h.codeClear
  codeLatched := h.codeLatched
  resultTop := h.resultTop
  pinHigh := h.pinHigh
  sizes := fun t ht => (List.mem_append.mp ht).elim (h.sizes t) (hn t)

theorem sized_answered {c : Config} {ok : Bool} {ts : List TxRequest} (h : ∀ t ∈ ts, blockSized c t.bytes) :
    ∀ t ∈ ts.map (answered ok), blockSized c t.bytes := by
  intro t ht
  obtain ⟨r, hr, rfl⟩ := List.mem_map.mp ht
  exact h r hr

/-- Whatever the transport answers, a command out of reset that ends by transmitting leaves the invariant. -/
theorem State.Sound.transmit {s : State} (h : s.Sound) (hr : s.rstN = true) (a : TxThen) {ts : List TxRequest}
    (hs : ∀ t ∈ ts, blockSized s.cfg t.bytes) : (Machine.transmit a ts s).Inv := by
  rcases transmit_cases a ts s with ⟨as, e⟩ | ⟨pre, t, post, as, rfl, e⟩ | ⟨pre, t, post, rfl, e⟩
  · rw [e]
    exact ((h.answered as (sized_answered hs)).afterLast a).endCommand
  · rw [e, raiseError_eq]
    refine ((h.answered as ?_).latch _).endCommand
    intro x hx
    rcases List.mem_append.mp hx with hx | hx
    · exact sized_answered (fun r hr => hs r (by simp [hr])) x hx
    · rw [List.mem_singleton.mp hx]
      exact hs t (by simp)
  · rw [e]
    have h' := h.answered [] (sized_answered (ok := true) (fun r hr => hs r (List.mem_append_left _ hr)))
    exact
      { toSound := ⟨h'.cfgLegal, h'.region, h'.fbForm, h'.fbSize, h'.srcForm, h'.srcSize, h'.scale, h'.codeClear,
          h'.codeLatched, h'.resultTop, h'.pinHigh, h'.sizes⟩
        waiting := rfl
        inReset := fun hf => absurd (hr.symm.trans hf) (by decide)
        pending := fun f hf => by
          obtain rfl := Option.some.inj hf
          exact ⟨by simp, fun r hr => hs r (List.mem_append_right _ hr)⟩ }

theorem State.Sound.refresh {s : State} (h : s.Sound) (hr : s.rstN = true) : (Machine.refresh s).Inv := by
  rcases refresh_cases s with ⟨-, e⟩ | ⟨-, e⟩ <;> rw [e]
  · exact h.endCommand
  · exact h.transmit hr _ (refreshPlan_sized h.cfgLegal)

theorem State.Sound.commandEnd {s : State} (h : s.Sound) (hr : s.rstN = true) : (Machine.commandEnd s).Inv := by
  unfold Machine.commandEnd
  split
  · exact h.refresh hr
  · exact h.endCommand

/-- A byte in the low half of RESULT leaves its top byte 0 (10_state.md R36). -/
theorem State.Sound.withResult {s : State} (h : s.Sound) {v : Word} (hv : v.extractLsb' 24 8 = 0) :
    ({ s with result := v }).Sound :=
  ⟨h.cfgLegal, h.region, h.fbForm, h.fbSize, h.srcForm, h.srcSize, h.scale, h.codeClear, h.codeLatched, hv, h.pinHigh,
    h.sizes⟩

theorem State.Sound.pulsePin {s : State} (h : s.Sound) : (Machine.pulsePin s).Sound := by
  unfold Machine.pulsePin
  split
  · exact ⟨h.cfgLegal, h.region, h.fbForm, h.fbSize, h.srcForm, h.srcSize, h.scale, h.codeClear, h.codeLatched,
      h.resultTop, rfl, h.sizes⟩
  · exact h

theorem State.Sound.clearFb {s : State} (h : s.Sound) : (Machine.clearFb s).Sound := by
  obtain ⟨hw, -⟩ := legal_width h.cfgLegal
  obtain ⟨-, hh, -⟩ := legal_height h.cfgLegal
  exact ⟨h.cfgLegal, .inr (widen_inside h.cfgLegal h.region (by omega) (by omega) (by omega) (by omega)),
    ⟨List.Pairwise.nil, fun _ hc => absurd hc List.not_mem_nil⟩, fun _ hc => absurd hc List.not_mem_nil,
    h.srcForm, h.srcSize, h.scale, h.codeClear, h.codeLatched, h.resultTop, h.pinHigh, h.sizes⟩

/-- A framebuffer index lies in a column and a band of the canvas (20_memory.md R71). -/
theorem index_in_canvas {c : Config} (hc : c.legal = true) {i : Nat} (hi : i < c.fbBytes) :
    i % c.width < c.width ∧ 8 * (i / c.width) + 7 < c.height := by
  obtain ⟨hw, -⟩ := legal_width hc
  obtain ⟨h8, -, -⟩ := legal_height hc
  refine ⟨Nat.mod_lt _ (by omega), ?_⟩
  have : i / c.width < c.height / 8 := by
    rw [Nat.div_lt_iff_lt_mul (by omega), Nat.mul_comm, ← legal_fbBytes hc]
    exact hi
  omega

theorem State.Sound.storeFbByte {s : State} (h : s.Sound) (i : Nat) (v : Byte) : (Machine.storeFbByte i v s).Sound := by
  unfold Machine.storeFbByte
  split
  · next hi =>
    obtain ⟨hx, hy⟩ := index_in_canvas h.cfgLegal hi
    exact ⟨h.cfgLegal, .inr (widen_inside h.cfgLegal h.region (by omega) (by omega) (by omega) (by omega)),
      Memory.wf_write h.fbForm _ _, Memory.within_write h.fbSize hi _, h.srcForm, h.srcSize, h.scale, h.codeClear,
      h.codeLatched, h.resultTop, h.pinHigh, h.sizes⟩
  · exact h

theorem State.Sound.txRaw {s : State} (h : s.Sound) (hr : s.rstN = true) (sel : Bool) (off len : Nat) :
    (Machine.txRaw sel off len s).Inv := by
  unfold Machine.txRaw
  split
  · exact (h.latch _).endCommand
  · split
    · exact h.endCommand
    · next hbad hlen =>
      refine h.transmit hr _ (fun t ht => ?_)
      rw [List.mem_singleton.mp ht]
      simp only [rawTransaction, blockSized, List.length_map, List.length_range]
      omega

/-- Every command run in a sound state out of reset leaves the invariant. -/
theorem State.Sound.exec {s t : State} (h : s.Sound) (hr : s.rstN = true) {i : Instr} (e : Machine.exec i s = .next t) :
    t.Inv := by
  by_cases hd : i.isDrawing = true
  · obtain ⟨ps, cx, cy, he, -⟩ := exec_drawing i s hd
    obtain rfl := Host.Outcome.next.inj (he.symm.trans e)
    exact (h.drawn ps cx cy).commandEnd hr
  · cases i <;> first
      | exact absurd rfl hd
      | (obtain rfl := Host.Outcome.next.inj e.symm)
    · exact h.pulsePin.endCommand
    · exact h.clearFb.endCommand
    · exact h.refresh hr
    · refine (h.withResult ?_).endCommand
      unfold sentinelColour
      split <;> rfl
    · refine (h.withResult ?_).endCommand
      ext j hj
      simp [BitVec.getLsbD_of_ge _ (24 + j) (by omega : 8 ≤ 24 + j)]
    · exact (h.storeFbByte _ _).endCommand
    · exact h.txRaw hr _ _ _

/-! ### The argument registers, once its operands are read, play no part in a command -/

theorem latch_withArgs (e : ErrorCode) (s : State) (v : Vector Word 8) :
    latch e { s with args := v } = { latch e s with args := v } := by
  unfold latch
  dsimp only
  split <;> rfl

theorem transmit_withArgs (after : TxThen) (ts : List TxRequest) (s : State) (v : Vector Word 8) :
    transmit after ts { s with args := v } = { transmit after ts s with args := v } := by
  induction ts generalizing s with
  | nil => cases after <;> rfl
  | cons t ts ih =>
    obtain h | ⟨as, h⟩ | ⟨as, h⟩ :
        s.answers = [] ∨ (∃ as, s.answers = true :: as) ∨ ∃ as, s.answers = false :: as := by
      rcases s.answers with _ | ⟨_ | _, as⟩ <;> simp
    · simp only [transmit, h]
    · simp only [transmit, h]
      exact ih { s with answers := as, history := s.history ++ [answered true t] }
    · simp only [transmit, h]
      exact congrArg endCommand
        (latch_withArgs .transportError { s with answers := as, history := s.history ++ [answered false t] } v)

theorem refresh_withArgs (s : State) (v : Vector Word 8) :
    refresh { s with args := v } = { refresh s with args := v } := by
  unfold refresh
  dsimp only
  split
  · rfl
  · exact transmit_withArgs .clearRegion (refreshPlan s) s v

theorem commandEnd_withArgs (s : State) (v : Vector Word 8) :
    commandEnd { s with args := v } = { commandEnd s with args := v } := by
  unfold commandEnd
  dsimp only
  split
  · exact refresh_withArgs s v
  · rfl

theorem draw_withArgs (ps : List Pixel) (s : State) (v : Vector Word 8) :
    draw ps { s with args := v } = { draw ps s with args := v } := by
  rw [draw_eq, draw_eq]
  exact commandEnd_withArgs (drawn ps s.cursorX s.cursorY s) v

theorem writeChar_withArgs (ch : Byte) (s : State) (v : Vector Word 8) :
    writeChar ch { s with args := v } = { writeChar ch s with args := v } := by
  unfold writeChar drawChar advance
  simp only [plotAll_eq]
  split
  · rfl
  · split
    · rfl
    · split <;> rfl

theorem writeChars_withArgs (n i : Nat) (s : State) (v : Vector Word 8) :
    writeChars n i { s with args := v } = { writeChars n i s with args := v } := by
  induction n generalizing i s with
  | zero => rfl
  | succ n ih =>
    simp only [writeChars]
    rw [← ih, ← writeChar_withArgs]
    rfl

end Sys2Proof.Machine
end

