-- ==== Sys2Proof/Laws/HostPort.lean ====
section
/-! SUPPORT. Everything a host access can do (20_memory.md R75 to R82, 60_exceptions.md R295), idle and while BUSY, and that
it keeps a state sound. -/

namespace Sys2Proof.Machine

/-- What host accesses can change: the host-writable registers, the error latch and what the host got back. -/
structure HostSide (s t : State) : Prop where
  eq : t = { s with
    args := t.args, err := t.err, errCode := t.errCode, ctrl := t.ctrl, cursorX := t.cursorX, cursorY := t.cursorY
    textInk := t.textInk, textBg := t.textBg, textScale := t.textScale, srcbuf := t.srcbuf, readLog := t.readLog
    freeCount := t.freeCount }

/-- What host accesses can change while BUSY: the error latch and what the host got back (60_exceptions.md R295). -/
structure BusySide (s t : State) : Prop where
  eq : t = { s with err := t.err, errCode := t.errCode, readLog := t.readLog, freeCount := t.freeCount }

theorem writeBusy_status (v : Word) (s : State) :
    writeBusy v s .status = if v.getLsbD 1 then clearError s else s := rfl

theorem writeIdle_status (v : Word) (s : State) :
    writeIdle v s .status = if v.getLsbD 1 then clearError s else s := rfl

/-- A word that is no command latches ILLEGAL_COMMAND; one that is a command changes nothing by itself (R291). -/
theorem writeIdle_cmd (v : Word) (s : State) :
    writeIdle v s .cmd = s ∨ writeIdle v s .cmd = latch .illegalCommand s := by
  simp only [writeIdle]
  cases decode v
  · exact .inr rfl
  · exact .inl rfl

/-- The four ways a host write goes (70_reset_and_hazards.md R320, R330). -/
theorem access_write (off : Nat) (v : Word) (s : State) :
    access (.write off v) s =
      if s.rstN then (if s.busy then writeBusy v s (hostReg s.cfg off) else writeIdle v s (hostReg s.cfg off)) else s := rfl

theorem clearError_busySide (s : State) : BusySide s (clearError s) := ⟨rfl⟩

theorem HostSide.refl (s : State) : HostSide s s := ⟨rfl⟩

theorem BusySide.refl (s : State) : BusySide s s := ⟨rfl⟩

theorem BusySide.trans {s t u : State} (h : BusySide s t) (h' : BusySide t u) : BusySide s u := by
  constructor
  have e := h'.eq
  rw [h.eq] at e
  exact e

theorem HostSide.trans {s t u : State} (h : HostSide s t) (h' : HostSide t u) : HostSide s u := by
  constructor
  have e := h'.eq
  rw [h.eq] at e
  exact e

theorem latch_busySide (e : ErrorCode) (s : State) : BusySide s (latch e s) := by
  unfold latch
  split
  · exact .refl s
  · exact ⟨rfl⟩

theorem hostRead_busySide (off : Nat) (s : State) : BusySide s (hostRead off s) := by
  unfold hostRead
  split <;> exact ⟨rfl⟩

theorem BusySide.hostSide {s t : State} (h : BusySide s t) : HostSide s t := by
  constructor
  have e := h.eq
  rw [e]

theorem writeBusy_busySide (v : Word) (s : State) (r : HostReg) : BusySide s (writeBusy v s r) := by
  cases r <;> first
    | exact latch_busySide _ _
    | exact .refl s
    | (rw [writeBusy_status]; split; exacts [clearError_busySide s, .refl s])

theorem writeIdle_hostSide (v : Word) (s : State) (r : HostReg) : HostSide s (writeIdle v s r) := by
  cases r with
  | cmd =>
    rcases writeIdle_cmd v s with e | e <;> rw [e]
    · exact .refl s
    · exact (latch_busySide _ s).hostSide
  | status =>
    rw [writeIdle_status]
    split
    · exact (clearError_busySide s).hostSide
    · exact .refl s
  | _ => exact ⟨rfl⟩

/-- Everything a host access can do while BUSY. -/
theorem access_busySide {s : State} (hb : s.busy = true) (a : Access) : BusySide s (access a s) := by
  cases a with
  | read off => exact hostRead_busySide off s
  | write off v =>
    rw [access_write, if_pos hb]
    split
    · exact writeBusy_busySide _ _ _
    · exact .refl s

/-- Everything a host access can do. -/
theorem access_hostSide (a : Access) (s : State) : HostSide s (access a s) := by
  cases a with
  | read off => exact (hostRead_busySide off s).hostSide
  | write off v =>
    rw [access_write]
    split
    · split
      · exact (writeBusy_busySide _ _ _).hostSide
      · exact writeIdle_hostSide _ _ _
    · exact .refl s

/-- Everything the host's accesses can do while a command runs: BUSY stays 1. -/
theorem accesses_busySide {s : State} (hb : s.busy = true) (as : List Access) : BusySide s (accesses as s) := by
  induction as generalizing s with
  | nil => exact .refl s
  | cons a as ih =>
    have h := access_busySide hb a
    exact h.trans (ih (by rw [h.eq]; exact hb))

/-! ### Soundness -/

theorem hostReg_srcbuf {c : Config} {off i : Nat} (h : hostReg c off = .srcbuf i) : i < c.srcbufSize := by
  unfold hostReg at h
  cases hl : registerMap.lookup (off / 4 * 4) with
  | some r =>
    rw [hl, Option.getD_some] at h
    subst h
    obtain ⟨l₁, l₂, e, -⟩ := List.lookup_eq_some_iff.mp hl
    have hm : (off / 4 * 4, HostReg.srcbuf i) ∈ registerMap := by rw [e]; simp
    simp [registerMap] at hm
  | none =>
    rw [hl, Option.getD_none] at h
    unfold windowReg at h
    split at h
    · cases h
    · split at h
      · cases h
      · split at h
        · next hi => cases h; exact hi
        · cases h

theorem textScaleOf_ne_zero (v : Word) : textScaleOf v ≠ 0 := by
  unfold textScaleOf
  split
  · decide
  · next h => exact h

theorem State.Sound.hostRead {s : State} (h : s.Sound) (off : Nat) : (Machine.hostRead off s).Sound := by
  unfold Machine.hostRead
  split <;> exact ⟨h.cfgLegal, h.region, h.fbForm, h.fbSize, h.srcForm, h.srcSize, h.scale, h.codeClear, h.codeLatched,
    h.resultTop, h.pinHigh, h.sizes⟩

theorem State.Sound.writeBusy {s : State} (h : s.Sound) (v : Word) (r : HostReg) : (Machine.writeBusy v s r).Sound := by
  cases r <;> first
    | exact h.latch _
    | exact h
    | (rw [writeBusy_status]; split; exacts [h.clearError, h])

theorem State.Sound.writeIdle {s : State} (h : s.Sound) (v : Word) {r : HostReg}
    (hr : ∀ i, r = .srcbuf i → i < s.cfg.srcbufSize) : (Machine.writeIdle v s r).Sound := by
  cases r with
  | cmd =>
    rcases writeIdle_cmd v s with e | e <;> rw [e]
    · exact h
    · exact h.latch _
  | status =>
    rw [writeIdle_status]
    split
    · exact h.clearError
    · exact h
  | textScale =>
    exact ⟨h.cfgLegal, h.region, h.fbForm, h.fbSize, h.srcForm, h.srcSize, textScaleOf_ne_zero v, h.codeClear,
      h.codeLatched, h.resultTop, h.pinHigh, h.sizes⟩
  | srcbuf i =>
    exact ⟨h.cfgLegal, h.region, h.fbForm, h.fbSize, Memory.wf_write h.srcForm _ _,
      Memory.within_write h.srcSize (hr i rfl) _, h.scale, h.codeClear, h.codeLatched, h.resultTop, h.pinHigh, h.sizes⟩
  | _ =>
    exact ⟨h.cfgLegal, h.region, h.fbForm, h.fbSize, h.srcForm, h.srcSize, h.scale, h.codeClear, h.codeLatched,
      h.resultTop, h.pinHigh, h.sizes⟩

theorem State.Sound.access {s : State} (h : s.Sound) (a : Access) : (Machine.access a s).Sound := by
  cases a with
  | read off => exact h.hostRead off
  | write off v =>
    rw [access_write]
    split
    · split
      · exact h.writeBusy _ _
      · exact h.writeIdle _ (fun i hi => hostReg_srcbuf hi)
    · exact h

theorem State.Sound.accesses {s : State} (h : s.Sound) (as : List Access) : (Machine.accesses as s).Sound := by
  induction as generalizing s with
  | nil => exact h
  | cons a as ih => exact ih (h.access a)

/-- A host access that starts no command keeps the invariant. -/
theorem State.Inv.access {s : State} (h : s.Inv) (a : Access) : (Machine.access a s).Inv := by
  have e := (access_hostSide a s).eq
  exact
    { toSound := h.toSound.access a
      waiting := by rw [e]; exact h.waiting
      inReset := by rw [e]; exact h.inReset
      pending := by rw [e]; exact h.pending }

end Sys2Proof.Machine
end

