-- ==== Sys2Proof/Laws/Steps.lean ====
section
/-! SUPPORT. What a step comes to from a state that meets the invariant, event by event (70_reset_and_hazards.md R330). -/

namespace Sys2Proof.Machine

/-- No reserved error code is latched in a sound state (60_exceptions.md R290). -/
theorem State.Sound.errCode_le {s : State} (h : s.Sound) : s.errCode.toNat ≤ 4 := by
  cases he : s.err
  · rw [h.codeClear he]
    decide
  · exact (h.codeLatched he).2

/-- From a sound state a step takes the next event of the schedule. -/
theorem step_eq_runNext {s : State} (h : s.Sound) : step s = runNext s := by
  rw [step, if_neg (by have := h.errCode_le; omega), if_pos h.cfgLegal]

/-- The schedule is no part of what makes a state sound. -/
theorem State.Sound.withEvents {s : State} (h : s.Sound) (es : List Event) : ({ s with events := es }).Sound :=
  ⟨h.cfgLegal, h.region, h.fbForm, h.fbSize, h.srcForm, h.srcSize, h.scale, h.codeClear, h.codeLatched, h.resultTop,
    h.pinHigh, h.sizes⟩

theorem State.Inv.withEvents {s : State} (h : s.Inv) (es : List Event) : ({ s with events := es }).Inv :=
  ⟨h.toSound.withEvents es, h.waiting, h.inReset, h.pending⟩

theorem State.Sound.startCommand {s : State} (h : s.Sound) : (Machine.startCommand s).Sound :=
  ⟨h.cfgLegal, h.region, h.fbForm, h.fbSize, h.srcForm, h.srcSize, h.scale, h.codeClear, h.codeLatched, h.resultTop,
    h.pinHigh, h.sizes⟩

/-- A step whose next event is `e` runs `e` with the rest of the schedule left. -/
theorem step_event {s : State} (h : s.Sound) (e : Event) (es : List Event) :
    step { s with events := e :: es } = runEvent e { s with events := es } := by
  rw [step_eq_runNext (h.withEvents _)]
  rfl

/-- An access starts a command exactly if it writes a command word to CMD, out of reset and idle (40_driver.md R130). -/
theorem startedBy_eq_some {a : Access} {s : State} {i : Instr} :
    startedBy a s = some i ↔
      ∃ off v, a = .write off v ∧ s.rstN = true ∧ s.busy = false ∧ hostReg s.cfg off = .cmd ∧ decode v = .ok i := by
  cases a with
  | read off => simp [startedBy]
  | write off v =>
    constructor
    · intro h
      simp only [startedBy] at h
      split at h
      · next hc =>
        obtain ⟨h1, h2, h3⟩ := hc
        cases hd : decode v with
        | ok j =>
          rw [hd] at h
          obtain rfl := Option.some.inj h
          exact ⟨off, v, rfl, h1, by simpa using h2, h3, hd⟩
        | error e => rw [hd] at h; cases h
      · cases h
    · rintro ⟨off', v', e, h1, h2, h3, h4⟩
      cases e
      simp [startedBy, h1, h2, h3, h4]

/-- A host access that starts no command (70_reset_and_hazards.md R330). -/
theorem runHost_access {a : Access} {m : List Access} {s : State} (h : startedBy a s = none) :
    runHost a m s = .next (requeue m (access a s)) := by
  rw [runHost, h]

/-- A host access that starts command `i` (40_driver.md R130). -/
theorem runHost_command {a : Access} {m : List Access} {s : State} {i : Instr} (h : startedBy a s = some i) :
    runHost a m s = exec i (accesses m (startCommand s)) := by
  rw [runHost, h]

/-- The state a command is started in is sound, out of reset and BUSY, whatever the host does meanwhile. -/
theorem State.Sound.meanwhile {s : State} (h : s.Sound) (hr : s.rstN = true) (m : List Access) :
    (Machine.accesses m (Machine.startCommand s)).Sound ∧ (Machine.accesses m (Machine.startCommand s)).rstN = true := by
  refine ⟨h.startCommand.accesses m, ?_⟩
  rw [(accesses_busySide (s := Machine.startCommand s) rfl m).eq]
  exact hr

/-! ### The other events -/

/-- With nothing outstanding there is nothing to answer. -/
theorem runTransport_none {s : State} (h : s.inflight = none) (ok : Bool) : runTransport ok s = s := by
  unfold runTransport
  split
  · rfl
  · next f hf => exact absurd (h.symm.trans hf) (by simp)

/-- The answer goes to the outstanding transaction, and the command goes on. -/
theorem runTransport_some {s : State} {f : InFlight} (h : s.inflight = some f) (ok : Bool) :
    runTransport ok s = transmit f.after f.pending { s with answers := ok :: s.answers } := by
  unfold runTransport
  split
  · next hf => exact absurd (h.symm.trans hf) (by simp)
  · next f' hf =>
    obtain rfl := Option.some.inj (h.symm.trans hf)
    rfl

/-- A command waits only while BUSY and out of reset (20_memory.md R85). -/
theorem State.Inv.of_waiting {s : State} (h : s.Inv) {f : InFlight} (hf : s.inflight = some f) :
    s.busy = true ∧ s.rstN = true := by
  have hb : s.busy = true := by rw [h.waiting, hf]; rfl
  refine ⟨hb, ?_⟩
  cases hr : s.rstN
  · exact absurd ((h.inReset hr).symm.trans hb) (by decide)
  · rfl

/-- The transport's answer keeps the invariant (20_memory.md R85). -/
theorem State.Inv.runTransport {s : State} (h : s.Inv) (ok : Bool) : (Machine.runTransport ok s).Inv := by
  cases hf : s.inflight with
  | none => rw [runTransport_none hf]; exact h
  | some f =>
    rw [runTransport_some hf]
    have hs : ({ s with answers := ok :: s.answers }).Sound :=
      ⟨h.cfgLegal, h.region, h.fbForm, h.fbSize, h.srcForm, h.srcSize, h.scale, h.codeClear, h.codeLatched, h.resultTop,
        h.pinHigh, h.sizes⟩
    exact hs.transmit (h.of_waiting hf).2 f.after (h.pending f hf).2

/-- `rst_n` going low keeps the invariant (70_reset_and_hazards.md R320). -/
theorem State.Inv.rstFalls {s : State} (h : s.Inv) : (Machine.rstFalls s).Inv :=
  { toSound := ⟨h.cfgLegal, h.region, h.fbForm, h.fbSize, h.srcForm, h.srcSize, h.scale, h.codeClear, h.codeLatched,
      h.resultTop, rfl, h.sizes⟩
    waiting := rfl
    inReset := fun _ => rfl
    pending := fun _ hf => by cases hf }

end Sys2Proof.Machine
end

