-- ==== Sys2Proof/Laws/Drawing.lean ====
section
/-! SUPPORT. From the points a drawing command plots to the statement of what it draws (`Sys2Proof.Claims.Draws`): a command
that plots a list of points in one colour draws the set of those points. -/

namespace Sys2Proof.Machine

open Sys2Proof.Claims

/-- How the region grows under a sequence of Plots: by the canvas pixels among them (40_driver.md R133, R134). -/
theorem grew_plotsDirty {c : Config} (hc : c.legal = true) (r : Region) (ps : List Pixel) {shape : Int → Int → Prop}
    (h : ∀ x y, inCanvas c x y → (shape x y ↔ ∃ p ∈ ps, p.pos = ⟨x, y⟩)) : Grew c r (plotsDirty c r ps) shape := by
  have key : ∀ Q : Int → Int → Prop, (∀ p ∈ ps, inCanvas c p.pos.x p.pos.y → Q p.pos.x p.pos.y) ↔
      ∀ x y, inCanvas c x y → shape x y → Q x y := by
    refine fun Q => ⟨fun hq x y hxy hs => ?_, fun hq p hp hxy => hq _ _ hxy ((h _ _ hxy).mpr ⟨p, hp, rfl⟩)⟩
    obtain ⟨p, hp, hpos⟩ := (h x y hxy).mp hs
    have := hq p hp
    rw [hpos] at this
    exact this hxy
  exact
    { xMin := fun n => (le_plotsDirty_xMin c r ps n).trans (and_congr_right' (key fun x _ => (n : Int) ≤ x))
      yMin := fun n => (le_plotsDirty_yMin c r ps n).trans (and_congr_right' (key fun _ y => (n : Int) ≤ y))
      xMax := fun n => (plotsDirty_xMax_le hc r ps n).trans (and_congr_right' (key fun x _ => x ≤ (n : Int)))
      yMax := fun n => (plotsDirty_yMax_le hc r ps n).trans (and_congr_right' (key fun _ y => y ≤ (n : Int))) }

/-- What a sequence of Plots writes, where all the Plots of one pixel have one bit value. -/
theorem painted_drawn {s : State} (h : s.Sound) (ps : List Pixel) (cx cy : Half) {paints : Int → Int → Bool → Prop}
    (hp : ∀ x y k, inCanvas s.cfg x y → (paints x y k ↔ ∃ p ∈ ps, p.pos = ⟨x, y⟩ ∧ inkOf p.c = k))
    (hk : ∀ p ∈ ps, ∀ q ∈ ps, p.pos = q.pos → inkOf p.c = inkOf q.c) :
    Painted s (endCommand (drawn ps cx cy s)) paints where
  written := fun x y k hxy hpt => by
    obtain ⟨p, hps, hpos, hc⟩ := (hp x y k hxy).mp hpt
    exact pbGet_plotsFb_of_mem h.fbForm hxy ⟨p, hps, hpos⟩ (fun q hq hqp => hc ▸ hk q hq p hps (hqp.trans hpos.symm))
  kept := fun x y hxy hno => pbGet_plotsFb_of_not_mem h.fbForm
    (fun p hps hpos => hno _ ((hp x y _ hxy).mpr ⟨p, hps, hpos, rfl⟩))
  bytes := fun i hi => read_plotsFb_other h.fbForm
    (fun p hps hxy => hi _ _ _ hxy ((hp _ _ _ hxy).mpr ⟨p, hps, rfl, rfl⟩))
  box := grew_plotsDirty h.cfgLegal s.dirty ps (fun x y hxy =>
    ⟨fun ⟨k, hpt⟩ => let ⟨p, hps, hpos, _⟩ := (hp x y k hxy).mp hpt; ⟨p, hps, hpos⟩,
     fun ⟨p, hps, hpos⟩ => ⟨_, (hp x y _ hxy).mpr ⟨p, hps, hpos, rfl⟩⟩⟩)

/-- A refresh does not read BUSY or the in-flight state. -/
theorem refresh_endCommand (s : State) : refresh (endCommand s) = refresh s := by
  have ht : ∀ (a : TxThen) (ts : List TxRequest) (s : State), ts ≠ [] →
      transmit a ts (endCommand s) = transmit a ts s := by
    intro a ts
    induction ts with
    | nil => exact fun s h => absurd rfl h
    | cons t ts ih =>
      intro s _
      simp only [transmit, endCommand_answers]
      cases hs : s.answers with
      | nil => rfl
      | cons ok as =>
        cases ok with
        | false => cases he : s.err <;> simp [raiseError, latch, endCommand, he]
        | true =>
          cases ts with
          | nil => cases a <;> rfl
          | cons t' ts => exact ih { s with answers := as, history := s.history ++ [answered true t] } (by simp)
  have hp : refreshPlan (endCommand s) = refreshPlan s := rfl
  have he : (endCommand s).dirty.isEmpty = s.dirty.isEmpty := rfl
  unfold refresh
  rw [he, hp]
  split
  · rfl
  · cases hplan : refreshPlan s with
    | nil => rfl
    | cons t ts => exact ht _ _ _ (by simp)

/-- A drawing command does its Plots, and then ends or goes on as REFRESH (40_driver.md R140). -/
theorem exec_commandEnd {i : Instr} {s u : State} (h : exec i s = .next (commandEnd u)) :
    (u.ctrl.autoRefresh = false → exec i s = .next (endCommand u)) ∧
    (u.ctrl.autoRefresh = true → exec i s = exec .refresh (endCommand u)) := by
  constructor <;> intro ha <;> rw [h, commandEnd, ha]
  · rfl
  · exact congrArg _ (refresh_endCommand u).symm

/-- A command that plots the points `ps` in one colour draws the set of those points. -/
theorem draws_of_points {i : Instr} {s : State} {col : Colour} {ps : List Point} {shape : Int → Int → Prop}
    (h : s.Sound) (he : exec i s = .next (draw (paint col ps) s))
    (hs : ∀ x y, inCanvas s.cfg x y → (shape x y ↔ (⟨x, y⟩ : Point) ∈ ps)) : Draws i s col shape := by
  rw [draw_eq] at he
  obtain ⟨h0, h1⟩ := exec_commandEnd he
  refine ⟨_, rfl, painted_drawn h _ s.cursorX s.cursorY ?_ ?_, h0, h1⟩
  · intro x y k hxy
    rw [hs x y hxy]
    constructor
    · rintro ⟨hm, rfl⟩
      exact ⟨⟨⟨x, y⟩, col⟩, List.mem_map.mpr ⟨_, hm, rfl⟩, rfl, rfl⟩
    · rintro ⟨p, hp, hpos, rfl⟩
      obtain ⟨q, hq, rfl⟩ := List.mem_map.mp hp
      exact ⟨hpos ▸ hq, rfl⟩
  · intro p hp q hq _
    obtain ⟨a, -, rfl⟩ := List.mem_map.mp hp
    obtain ⟨b, -, rfl⟩ := List.mem_map.mp hq
    rfl

/-! ### Membership in the helpers' lists -/

theorem mem_upFrom {a v : Int} {n : Nat} : v ∈ upFrom a n ↔ a ≤ v ∧ v < a + (n : Int) := by
  simp only [upFrom, List.mem_map, List.mem_range]
  constructor
  · rintro ⟨k, hk, rfl⟩
    omega
  · rintro ⟨h1, h2⟩
    exact ⟨(v - a).toNat, by omega, by omega⟩

theorem mem_vrun {x y h : Int} {p : Point} : p ∈ vrun x y h ↔ p.x = x ∧ y ≤ p.y ∧ p.y < y + h := by
  simp only [vrun, List.mem_map, mem_upFrom]
  constructor
  · rintro ⟨j, hj, rfl⟩
    simp only [true_and]
    omega
  · rintro ⟨rfl, h1, h2⟩
    exact ⟨p.y, by omega, rfl⟩

theorem mem_hrun {x y w : Int} {p : Point} : p ∈ hrun x y w ↔ p.y = y ∧ x ≤ p.x ∧ p.x < x + w := by
  simp only [hrun, List.mem_map, mem_upFrom]
  constructor
  · rintro ⟨j, hj, rfl⟩
    simp only [true_and]
    omega
  · rintro ⟨rfl, h1, h2⟩
    exact ⟨p.x, by omega, rfl⟩

theorem mem_fillRectPoints {x y w h : Int} {p : Point} :
    p ∈ fillRectPoints x y w h ↔ x ≤ p.x ∧ p.x < x + w ∧ y ≤ p.y ∧ p.y < y + h := by
  unfold fillRectPoints
  split
  · simp only [List.not_mem_nil, false_iff]
    omega
  · simp only [List.mem_flatMap, mem_upFrom, mem_vrun]
    constructor
    · rintro ⟨i, hi, rfl, h1⟩
      omega
    · rintro ⟨h1, h2, h3⟩
      exact ⟨p.x, by omega, rfl, h3⟩

end Sys2Proof.Machine
end

