-- ==== Sys2Proof/Laws/PerInstr.lean ====
section
/-! SUPPORT. Statements made for every command, one lemma per constructor: the drawing commands are the opcodes 0x10 to 0x21
(30_encoding.md R101, 40_driver.md R140). -/

namespace Sys2Proof.Laws.DrawingOpcodes

/-- A command is a drawing command exactly if its opcode lies in 0x10 to 0x21. -/
def Statement (i : Instr) : Prop := i.isDrawing = true ↔ 0x10 ≤ i.opcode.toNat ∧ i.opcode.toNat ≤ 0x21

theorem panelReset : Statement .panelReset := by unfold Statement; decide
theorem clear : Statement .clear := by unfold Statement; decide
theorem refresh : Statement .refresh := by unfold Statement; decide
theorem getPixel : Statement .getPixel := by unfold Statement; decide
theorem fbRead : Statement .fbRead := by unfold Statement; decide
theorem fbWrite : Statement .fbWrite := by unfold Statement; decide
theorem txRaw : Statement .txRaw := by unfold Statement; decide
theorem pixel : Statement .pixel := by unfold Statement; decide
theorem line : Statement .line := by unfold Statement; decide
theorem vline : Statement .vline := by unfold Statement; decide
theorem hline : Statement .hline := by unfold Statement; decide
theorem rect : Statement .rect := by unfold Statement; decide
theorem fillRect : Statement .fillRect := by unfold Statement; decide
theorem roundRect : Statement .roundRect := by unfold Statement; decide
theorem fillRoundRect : Statement .fillRoundRect := by unfold Statement; decide
theorem circle : Statement .circle := by unfold Statement; decide
theorem fillCircle : Statement .fillCircle := by unfold Statement; decide
theorem triangle : Statement .triangle := by unfold Statement; decide
theorem fillTriangle : Statement .fillTriangle := by unfold Statement; decide
theorem bitmap : Statement .bitmap := by unfold Statement; decide
theorem writeChar : Statement .writeChar := by unfold Statement; decide
theorem writeString : Statement .writeString := by unfold Statement; decide

end Sys2Proof.Laws.DrawingOpcodes
end

