-- ==== Sys2Proof/Tests/Slice0.lean ====
section
/-! SUPPORT. The model's own tests. Expected values come from spec/: the opcode map (30_encoding.md R101), the worked
examples and vectors of 95_test_vectors.md (L1, L2), and the rules' own examples. Then, for every obligation with
hypotheses, a state and operands that meet them all together. -/

namespace Sys2Proof.Tests

open Sys2Proof.Machine Sys2Proof.Claims

/-! ### The state the vectors start from (95_test_vectors.md, Conventions) -/

/-- WIDTH = HEIGHT = 16 and the defaults, with the test glyph of code 0x41, columns 7C 12 11 12 7C. -/
def cfg16 : Config := { Config.standard with glyphs := [(325, 0x7C), (326, 0x12), (327, 0x11), (328, 0x12), (329, 0x7C)] }

/-- Out of reset and idle, FB all 0x00, the region empty. -/
def blank : State := { State.resetWith cfg16 with dirty := Region.sentinel cfg16 }

/-- `s` with the argument registers ARG0 to ARG6. -/
def args (s : State) (a0 a1 a2 a3 a4 a5 a6 : Word) : State := { s with args := #v[a0, a1, a2, a3, a4, a5, a6, 0] }

/-- The state after command `i`. -/
def after (i : Instr) (s : State) : State :=
  match exec i s with
  | .next t => t
  | .fault _ => s
  | .refused _ => s

/-- The first `n` framebuffer bytes. -/
def bytes (s : State) (n : Nat) : List Byte := (List.range n).map s.fb.read

/-- The region as (XMIN, YMIN, XMAX, YMAX). -/
def corners (s : State) : List Nat := [s.dirty.xMin.toNat, s.dirty.yMin.toNat, s.dirty.xMax.toNat, s.dirty.yMax.toNat]

/-- How many canvas pixels are ink. -/
def inkCount (s : State) : Nat := (List.range 256).countP fun k => pbGet s.cfg s.fb (k % 16 : Nat) (k / 16 : Nat)

/-- What a step answers, its STATUS as a number. -/
def statusAfter (s : State) : Option Nat :=
  match step s with
  | .next t => some (statusWord t).toNat
  | .fault _ => none
  | .refused _ => none

/-! ### WellFormed: the checks accept the vectors' configuration, and each refuses an ill-formed one (00_scope.md R6, R7) -/

theorem test_legal_standard : Config.standard.legal = true := by decide
theorem test_legal_cfg16 : cfg16.legal = true := by decide
theorem test_width_255_refused : ({ cfg16 with width := 255 } : Config).widthOk = false := by decide
theorem test_width_0_refused : ({ cfg16 with width := 0 } : Config).widthOk = false := by decide
theorem test_height_12_refused : ({ cfg16 with height := 12 } : Config).heightOk = false := by decide
theorem test_unsupported_height_refused : ({ cfg16 with supportedHeights := [32, 64] } : Config).heightSupported = false := by
  decide
theorem test_colOffset_256_refused : ({ cfg16 with colOffset := 256 } : Config).colOffsetOk = false := by decide
theorem test_blockSize_2_refused : ({ cfg16 with blockSize := 2 } : Config).blockSizeOk = false := by decide
theorem test_resetPulse_0_refused : ({ cfg16 with resetPulse := 0 } : Config).resetPulseOk = false := by decide
theorem test_glyph_byte_1280_refused : ({ cfg16 with glyphs := [(1280, 1)] } : Config).glyphsOk = false := by decide
theorem test_initImage_past_fb_refused : ({ cfg16 with initImage := [(32, 1)] } : Config).initImageOk = false := by decide
theorem test_initImage_form_refused : ({ cfg16 with initImage := [(3, 0)] } : Config).initImageOk = false := by decide
theorem test_srcbufSize_0_refused : ({ cfg16 with srcbufSize := 0 } : Config).srcbufSizeOk = false := by decide
theorem test_fbBytes_65537_refused :
    ({ cfg16 with width := 8192, height := 72, selectBytes := .table [] [0] } : Config).fbBytesOk = false := by decide
theorem test_empty_select_refused : ({ cfg16 with selectBytes := .table [] [] } : Config).selectBytesOk = false := by
  decide
theorem test_illegal_configuration_has_no_step :
    step { blank with cfg := { cfg16 with height := 12 } } = .refused .illegalConfiguration := by rfl

/-! ### Decoding: the words written out from 30_encoding.md R101, opcode in bits 7:0, bits 31:8 zero -/

theorem test_decode_driver :
    decode 0x00000001#32 = .ok .panelReset ∧ decode 0x00000002#32 = .ok .clear ∧ decode 0x00000003#32 = .ok .refresh ∧
    decode 0x00000004#32 = .ok .getPixel ∧ decode 0x00000005#32 = .ok .fbRead ∧ decode 0x00000006#32 = .ok .fbWrite ∧
    decode 0x00000007#32 = .ok .txRaw := ⟨rfl, rfl, rfl, rfl, rfl, rfl, rfl⟩
theorem test_decode_lines_rects :
    decode 0x00000010#32 = .ok .pixel ∧ decode 0x00000011#32 = .ok .line ∧ decode 0x00000012#32 = .ok .vline ∧
    decode 0x00000013#32 = .ok .hline ∧ decode 0x00000014#32 = .ok .rect ∧ decode 0x00000015#32 = .ok .fillRect :=
  ⟨rfl, rfl, rfl, rfl, rfl, rfl⟩
theorem test_decode_circles :
    decode 0x00000016#32 = .ok .roundRect ∧ decode 0x00000017#32 = .ok .fillRoundRect ∧
    decode 0x00000018#32 = .ok .circle ∧ decode 0x00000019#32 = .ok .fillCircle := ⟨rfl, rfl, rfl, rfl⟩
theorem test_decode_triangles :
    decode 0x0000001A#32 = .ok .triangle ∧ decode 0x0000001B#32 = .ok .fillTriangle := ⟨rfl, rfl⟩
theorem test_decode_bitmap_text :
    decode 0x0000001C#32 = .ok .bitmap ∧ decode 0x00000020#32 = .ok .writeChar ∧
    decode 0x00000021#32 = .ok .writeString := ⟨rfl, rfl, rfl⟩
/-- L2.17, R102: no opcode; R103: a reserved bit, whatever the opcode. -/
theorem test_decode_rejects :
    decode 0x00000000#32 = .error .illegalOpcode ∧ decode 0x00000008#32 = .error .illegalOpcode ∧
    decode 0x0000001D#32 = .error .illegalOpcode ∧ decode 0x00000022#32 = .error .illegalOpcode ∧
    decode 0x00000111#32 = .error .reservedBits ∧ decode 0x80000011#32 = .error .reservedBits :=
  ⟨rfl, rfl, rfl, rfl, rfl, rfl⟩
theorem test_tableWord : decodeTableWord 32 0x1B = some .fillTriangle ∧ decodeTableWord 32 0x111 = none := ⟨rfl, rfl⟩
/-- A word placed for the fetch runs on the very next step (log 2). -/
theorem test_withFetchWord : step (State.reset.withFetchWord 32 0x1B) = exec .fillTriangle { State.reset with busy := true } :=
  rfl

/-! ### Driver commands (L2.15) -/

theorem test_panelReset : (after .panelReset blank).pinHistory = [.low, .hold 1, .high] := by decide
theorem test_panelReset_no_line :
    (after .panelReset { blank with cfg := { cfg16 with hasResetLine := false } }).pinHistory = [] := by decide
theorem test_clear : bytes (after .clear { blank with fb := [(0, 0xFF), (31, 1)] }) 32 = List.replicate 32 0 := by decide
theorem test_clear_region : corners (after .clear blank) = [0, 0, 15, 15] := by decide
/-- L2.14, BLOCK_SIZE 4, region (1, 8, 10, 8): C[B1 03 10], D 4, D 4, D 2 bytes. -/
theorem test_refresh :
    ((after .refresh { blank with
      cfg := { cfg16 with blockSize := 4 }, dirty := ⟨1, 8, 10, 8⟩, answers := List.replicate 4 true }).history.map
        fun t => (t.sel, t.bytes.length)) = [(.command, 3), (.data, 4), (.data, 4), (.data, 2)] := by decide
theorem test_refresh_failure :
    (statusWord (after .refresh { blank with dirty := ⟨0, 0, 15, 15⟩, answers := [false] })).toNat = 0x202 := by decide
theorem test_getPixel :
    (after .getPixel (args { blank with fb := [(3, 1)] } 3 0 0 0 0 0 0)).result = 0x000000 := by decide
theorem test_getPixel_outside : (after .getPixel (args blank 0 16 0 0 0 0 0)).result = 0xFFFFFF := by decide
theorem test_fbRead : (after .fbRead (args { blank with fb := [(19, 2)] } 19 0 0 0 0 0 0)).result = 2 := by decide
theorem test_fbRead_past_end : (after .fbRead (args { blank with fb := [(31, 2)] } 32 0 0 0 0 0 0)).result = 0 := by decide
theorem test_fbWrite : (after .fbWrite (args blank 19 0x1FF 0 0 0 0 0)).fb = [(19, 0xFF)] := by decide
theorem test_fbWrite_region : corners (after .fbWrite (args blank 19 2 0 0 0 0 0)) = [3, 8, 3, 15] := by decide
theorem test_txRaw :
    (after .txRaw (args { blank with srcbuf := [(0, 0xAE), (1, 0xAF)], answers := [true] } 0 0 2 0 0 0 0)).history =
      [⟨.command, [0xAE, 0xAF], true⟩] := by decide
theorem test_txRaw_too_long : (statusWord (after .txRaw (args blank 0 0 17 0 0 0 0))).toNat = 0x302 := by decide

/-! ### Drawing commands (L2.2 to L2.13) -/

theorem test_pixel : (after .pixel (args blank 3 9 0 0 0 0 0)).fb = [(19, 2)] := by decide
theorem test_pixel_clipped : corners (after .pixel (args blank 0xFFFFFFFF 0 0 0 0 0 0)) = [16, 16, 0, 0] := by decide
/-- LINE 5, 2, 0, 0: (0,0) (1,0) (2,1) (3,1) (4,2) (5,2). -/
theorem test_line : bytes (after .line (args blank 5 2 0 0 0 0 0)) 7 = [1, 1, 2, 2, 4, 4, 0] := by decide
/-- LINE 0, 0, 2, 6, steep: (0,0) (0,1) (1,2) (1,3) (1,4) (2,5) (2,6). -/
theorem test_line_steep : bytes (after .line (args blank 0 0 2 6 0 0 0)) 4 = [0x03, 0x1C, 0x60, 0] := by decide
theorem test_vline : (after .vline (args blank 2 14 5 0 0 0 0)).fb = [(18, 0xC0)] := by decide
theorem test_hline : (after .hline (args blank 14 2 5 0 0 0 0)).fb = [(14, 4), (15, 4)] := by decide
/-- RECT 1, 1, 4, 3: (1..4, 1), (1..4, 3), (1, 2), (4, 2). -/
theorem test_rect : bytes (after .rect (args blank 1 1 4 3 0 0 0)) 6 = [0, 0x0E, 0x0A, 0x0A, 0x0E, 0] := by decide
theorem test_fillRect : (after .fillRect (args blank 14 14 4 4 0 0 0)).fb = [(30, 0xC0), (31, 0xC0)] := by decide
/-- L2.14: AUTO_REFRESH 1, one refresh: C[B0 04 10], D[0C 0C 0C]. -/
theorem test_fillRect_autoRefresh :
    (after .fillRect (args { blank with ctrl := ⟨true, true, true⟩, answers := [true, true] } 2 2 3 2 0 0 0)).history =
      [⟨.command, [0xB0, 0x04, 0x10], true⟩, ⟨.data, [0x0C, 0x0C, 0x0C], true⟩] := by decide
/-- ROUND_RECT 0, 0, 6, 4, 5, clamped to 2. -/
theorem test_roundRect :
    bytes (after .roundRect (args blank 0 0 6 4 5 0 0)) 7 = [0x06, 0x09, 0x09, 0x09, 0x09, 0x06, 0] := by decide
/-- FILL_ROUND_RECT 0, 0, 4, 4, 2. -/
theorem test_fillRoundRect :
    bytes (after .fillRoundRect (args blank 0 0 4 4 2 0 0)) 5 = [0x06, 0x0F, 0x0F, 0x06, 0] := by decide
/-- CIRCLE 1, 1, 3, clipped: (0, 4) (1, 4) (2, 4) (3, 3) (4, 0) (4, 1) (4, 2). -/
theorem test_circle : bytes (after .circle (args blank 1 1 3 0 0 0 0)) 6 = [0x10, 0x10, 0x10, 0x08, 0x07, 0] := by decide
/-- FILL_CIRCLE 7, 7, 1: y 6: x 7; y 7: x 6..8; y 8: x 7. -/
theorem test_fillCircle :
    (after .fillCircle (args blank 7 7 1 0 0 0 0)).fb = [(6, 0x80), (7, 0xC0), (8, 0x80), (23, 0x01)] := by decide
/-- TRIANGLE 0, 0, 10, 0, 5, 10: 30 pixels, region (0, 0, 10, 10). -/
theorem test_triangle :
    let t := after .triangle (args blank 0 0 10 0 5 10 0)
    (inkCount t, corners t) = (30, [0, 0, 10, 10]) := by decide +kernel
/-- FILL_TRIANGLE 0, 0, 10, 0, 5, 10 (P2): band 0 is 03 0F 3F FF FF FF FF FF 3F 0F 03. -/
theorem test_fillTriangle :
    bytes (after .fillTriangle (args blank 0 0 10 0 5 10 0)) 12 =
      [0x03, 0x0F, 0x3F, 0xFF, 0xFF, 0xFF, 0xFF, 0xFF, 0x3F, 0x0F, 0x03, 0] := by decide +kernel
/-- FILL_TRIANGLE 1, 4, 6, 4, 3, 4, flat: 4: 1..6. -/
theorem test_fillTriangle_flat :
    bytes (after .fillTriangle (args blank 1 4 6 4 3 4 0)) 8 = [0, 0x10, 0x10, 0x10, 0x10, 0x10, 0x10, 0] := by decide
/-- BITMAP 0, 0, 4, 9 with SRCBUF_SIZE 4: row 8 reads 0. -/
theorem test_bitmap :
    bytes (after .bitmap (args { blank with
      cfg := { cfg16 with srcbufSize := 4 }, srcbuf := [(0, 0xFF), (1, 0x81), (2, 0x81), (3, 0xFF)] }
      0 0 4 9 0 0 0)) 20 = [0xFF, 0x81, 0x81, 0xFF] ++ List.replicate 16 0 := by decide
theorem test_writeChar : bytes (after .writeChar (args blank 0x41 0 0 0 0 0 0)) 6 = [0x7C, 0x12, 0x11, 0x12, 0x7C, 0] := by
  decide
/-- TEXT_WRAP 0, cursor (32766, 0): the cursor wraps to −32764. -/
theorem test_writeChar_cursor :
    (after .writeChar (args { blank with ctrl := ⟨false, true, false⟩, cursorX := 32766 } 0x41 0 0 0 0 0 0)).cursorX.toInt =
      -32764 := by decide
/-- SRCBUF[0..3] = 41 41 0A 41: the cursor ends at (6, 16). -/
theorem test_writeString :
    let t := after .writeString (args { blank with srcbuf := [(0, 0x41), (1, 0x41), (2, 0x0A), (3, 0x41)] } 0 4 0 0 0 0 0)
    (t.cursorX, t.cursorY, corners t) = (6, 16, [0, 0, 10, 6]) := by decide +kernel

/-! ### Steps, errors (L2.17), reset -/

theorem test_illegal_command_status : statusAfter (asked blank (.write 0x000 0x111) []) = some 0x102 := by decide
theorem test_textScale_zero_stores_one :
    step (asked blank (.write 0x030 0) []) = .next { blank with textScale := 1 } := by rfl

/-- A REFRESH of the whole canvas that waits on its first transaction. -/
def dirtied : State := { blank with dirty := Region.canvas cfg16 }
def waiting : State := after .refresh dirtied

theorem test_overrun_status : statusAfter (asked waiting (.write 0x080 5) []) = some 0x403 := by decide
theorem test_reset_canvas : corners State.reset = [0, 0, 15, 15] := by decide

/-! ### Witnesses: states and operands that meet the hypotheses of each obligation that has some

`blank` is sound and ready, `dirtied` has the whole canvas dirty, `waiting` waits on a transaction of a refresh, `held` is in
reset. -/

theorem blank_sound : blank.Sound where
  cfgLegal := by decide
  region := .inl rfl
  fbForm := by decide
  fbSize := by decide
  srcForm := by decide
  srcSize := by decide
  scale := by decide
  codeClear := fun _ => rfl
  codeLatched := fun h => absurd h (by decide)
  resultTop := by decide
  pinHigh := rfl
  sizes := fun t h => absurd h List.not_mem_nil

theorem blank_inv : blank.Inv :=
  { blank_sound with waiting := rfl, inReset := fun _ => rfl, pending := fun _ h => by cases h }

theorem blank_ready : Ready blank := ⟨blank_inv, rfl, rfl⟩

theorem dirtied_sound : dirtied.Sound :=
  { blank_sound with region := .inr (canvas_inside test_legal_cfg16) }

theorem dirtied_ready : Ready dirtied :=
  ⟨{ dirtied_sound with waiting := rfl, inReset := fun _ => rfl, pending := fun _ h => by cases h }, rfl, rfl⟩

theorem waiting_inv : waiting.Inv := dirtied_sound.exec (i := .refresh) rfl rfl

def held : State := rstFalls waiting

theorem held_inv : held.Inv := waiting_inv.rstFalls

/-- `blank` with operands is sound: no clause of soundness speaks of the argument registers. -/
theorem args_sound (a0 a1 a2 a3 a4 a5 a6 : Word) : (args blank a0 a1 a2 a3 a4 a5 a6).Sound :=
  { blank_sound with }

theorem witness_StepRunsTheDecodedCommand : Ready blank ∧ decode 0x00000011#32 = .ok .line := ⟨blank_ready, rfl⟩

/-- Both ends of every range of words that are no command. -/
theorem witness_IllegalCommandOnlyLatches :
    Ready blank ∧ ∀ v ∈ ([0x00, 0x08, 0x0F, 0x1D, 0x1F, 0x22, 0xFF, 0x100, 0x111, 0xFFFFFFFF] : List Word),
      v.toNat = 0x00 ∨ (0x08 ≤ v.toNat ∧ v.toNat ≤ 0x0F) ∨ (0x1D ≤ v.toNat ∧ v.toNat ≤ 0x1F) ∨ 0x22 ≤ v.toNat :=
  ⟨blank_ready, by simp⟩

/-- The lowest and the highest offset, the two around STATUS, and STATUS itself, in a command that waits and in one just
started. -/
theorem witness_WriteWhileBusyIsAnOverrun :
    waiting.Inv ∧ waiting.rstN = true ∧ waiting.busy = true ∧ (startCommand blank).rstN = true ∧
    (startCommand blank).busy = true ∧
    (∀ off ∈ [0x000, 0x003, 0x008, 0x1000 + 4 * 1024 - 1], off / 4 ≠ 1 ∧ off < 0x1000 + 4 * waiting.cfg.srcbufSize) ∧
    0x004 / 4 = 1 ∧ 0x007 / 4 = 1 :=
  ⟨waiting_inv, rfl, by decide, rfl, rfl, by decide, by decide, by decide⟩

theorem witness_StatusWriteClearsTheError :
    blank.Inv ∧ blank.rstN = true ∧ waiting.Inv ∧ waiting.rstN = true ∧ (0x2 : Word).getLsbD 1 = true ∧
    (0x1 : Word).getLsbD 1 = false := ⟨blank_inv, rfl, waiting_inv, rfl, rfl, rfl⟩

theorem witness_ResetValues : Config.standard.legal = true := test_legal_standard

theorem witness_ResetAbandonsAndRestores : waiting.Inv ∧ held.Inv ∧ held.rstN = false := ⟨waiting_inv, held_inv, rfl⟩

/-- Error codes at both sides of the bound, and a configuration that is not legal. -/
theorem witness_IllegalBlocksHaveNoStep :
    let s := { blank with errCode := 4, cfg := { cfg16 with height := 12 } }
    s.errCode.toNat ≤ 4 ∧ s.cfg.legal = false ∧ 5 ≤ ({ blank with errCode := 5 } : State).errCode.toNat := by decide

theorem witness_InvariantHoldsAtReset : cfg16.legal = true := test_legal_cfg16

theorem witness_EveryStepKeepsTheInvariant : blank.Inv ∧ step blank = .next blank := ⟨blank_inv, rfl⟩

theorem witness_SoundMachinesNeverStop : waiting.Inv := waiting_inv

theorem witness_PanelResetPulsesThePin :
    blank.panelRstN = true ∧ blank.cfg.hasResetLine = true ∧
    ({ blank with cfg := { cfg16 with hasResetLine := false } } : State).panelRstN = true := ⟨rfl, rfl, rfl⟩

theorem witness_ClearZeroesAndDirtiesTheCanvas : blank.Sound := blank_sound

theorem witness_RefreshOfAnEmptyRegionSendsNothing : blank.dirty.xMax.toNat < blank.dirty.xMin.toNat := by decide

theorem witness_RefreshPlansTheBoxBandByBand : dirtied.Sound ∧ dirtied.dirty.isEmpty = false ∧ (refreshPlan dirtied).length = 4 :=
  ⟨dirtied_sound, rfl, by decide⟩

theorem witness_RefreshSucceedsAndEmptiesTheRegion :
    let s := { dirtied with answers := [true, true, true, true, false] }
    s.Sound ∧ s.dirty.isEmpty = false ∧ s.answers = List.replicate (refreshPlan s).length true ++ [false] :=
  ⟨{ dirtied_sound with }, rfl, by decide⟩

/-- The failure of the first transaction, and of the last. -/
theorem witness_RefreshStopsAtTheFirstFailure :
    let p := refreshPlan dirtied
    dirtied.dirty.isEmpty = false ∧ (∃ r post, p = [] ++ r :: post) ∧ ∃ pre r, p = pre ++ [r] ∧ pre.length = 3 :=
  ⟨rfl, ⟨_, _, rfl⟩, ⟨(refreshPlan dirtied).take 3, ⟨.data, List.replicate 16 0⟩, by decide, by decide⟩⟩

theorem witness_RefreshWaitsForTheTransport :
    dirtied.Sound ∧ dirtied.rstN = true ∧ dirtied.dirty.isEmpty = false ∧ (∃ r post, refreshPlan dirtied = [] ++ r :: post) ∧
    dirtied.answers = List.replicate 0 true := ⟨dirtied_sound, rfl, rfl, ⟨_, _, rfl⟩, rfl⟩

theorem witness_WaitingChangesNothingInTheEnd :
    Ready dirtied ∧ dirtied.answers = [] ∧ decode 0x00000003#32 = .ok .refresh ∧
    (∃ u, Sys2Proof.core.run 2 { dirtied with events := [.host (.write 0x000 0x03) [], .transport false] } = .next u) ∧
    ∃ u, Sys2Proof.core.run 1 { dirtied with answers := [false], events := [.host (.write 0x000 0x03) []] } = .next u :=
  ⟨dirtied_ready, rfl, rfl, ⟨_, rfl⟩, ⟨_, rfl⟩⟩

/-- A blank panel and a framebuffer with one byte, the dirty box around it. -/
theorem witness_PartialAndFullModesGiveTheSamePanel :
    let s := { dirtied with fb := [(19, 2)], dirty := ⟨3, 8, 3, 15⟩ }
    let p : Nat × Nat × (Nat → Nat → Byte) := (0, 0, fun _ _ => 0)
    s.Sound ∧ s.cfg.selectBytes = .pageAddressing ∧ s.dirty.isEmpty = false ∧
    ∀ b, b < s.cfg.height / 8 → ∀ x, x < s.cfg.width →
      ¬ (s.dirty.yMin.toNat / 8 ≤ b ∧ b ≤ s.dirty.yMax.toNat / 8 ∧ s.dirty.xMin.toNat ≤ x ∧ x ≤ s.dirty.xMax.toNat) →
      p.2.2 b (x + s.cfg.colOffset) = s.fb.read (b * s.cfg.width + x) :=
  ⟨{ dirtied_sound with
      region := .inr ⟨by decide, by decide, by decide, by decide⟩, fbForm := by decide, fbSize := by decide },
    rfl, rfl, by decide⟩

theorem witness_DefaultSelectBytes : cfg16.selectBytes = .pageAddressing ∧ 15 ≤ 15 ∧ 255 ≤ 255 := by decide

/-- The last index of the framebuffer and the first past it. -/
theorem witness_FbWriteStoresOneByte :
    (args blank 31 1 0 0 0 0 0).Sound ∧ argU16 (args blank 31 1 0 0 0 0 0) 0 < blank.cfg.fbBytes ∧
    (args blank 32 1 0 0 0 0 0).Sound ∧ blank.cfg.fbBytes ≤ argU16 (args blank 32 1 0 0 0 0 0) 0 :=
  ⟨args_sound .., by decide, args_sound .., by decide⟩

/-- Lengths BLOCK_SIZE, BLOCK_SIZE + 1, 0, and a run that ends at the end of SRCBUF and one past it. -/
theorem witness_TxRawSendsOneTransaction :
    let ok (off len : Nat) := ¬ (blank.cfg.blockSize < len ∨ blank.cfg.srcbufSize < off + len)
    ok 0 16 ∧ ¬ ok 0 17 ∧ ok 1024 0 ∧ ok 1008 16 ∧ ¬ ok 1009 16 := by decide

/-- A canvas pixel at the last corner, and one just outside. -/
theorem witness_PixelSetAndGetRoundTrip :
    Memory.wf [] ∧ inCanvas cfg16 15 15 ∧ ¬ inCanvas cfg16 16 15 ∧ ¬ inCanvas cfg16 0 (-1) := by decide

theorem witness_WidenCoversTheRectangle :
    cfg16.legal = true ∧ 0 ≤ 15 ∧ 0 ≤ 15 ∧ 15 < cfg16.width ∧ 15 < cfg16.height ∧ isSentinel cfg16 (Region.sentinel cfg16) :=
  ⟨test_legal_cfg16, by decide, by decide, by decide, by decide, rfl, rfl, rfl, rfl⟩

/-! The drawing commands' statements ask for a sound state; the operands are those of the vectors above. -/

theorem witness_PixelDrawsOnePixel : (args blank 3 9 0 0 0 0 0).Sound := args_sound ..
theorem witness_LineDrawsTheLine : (args blank 5 2 0 0 0 0 0).Sound := args_sound ..
theorem witness_VlineDrawsTheRun : (args blank 2 14 5 0 0 0 0).Sound := args_sound ..
theorem witness_HlineDrawsTheRun : (args blank 14 2 5 0 0 0 0).Sound := args_sound ..
theorem witness_RectDrawsTheOutline : (args blank 1 1 4 3 0 0 0).Sound := args_sound ..
theorem witness_FillRectDrawsTheRectangle : (args blank 14 14 4 4 0 0 0).Sound := args_sound ..
theorem witness_RoundRectDrawsTheOutline : (args blank 0 0 6 4 5 0 0).Sound := args_sound ..
theorem witness_FillRoundRectDrawsTheShape : (args blank 0 0 4 4 2 0 0).Sound := args_sound ..
theorem witness_CircleDrawsTheOutline : (args blank 1 1 3 0 0 0 0).Sound := args_sound ..
theorem witness_FillCircleDrawsTheDisc : (args blank 7 7 1 0 0 0 0).Sound := args_sound ..
theorem witness_TriangleDrawsThreeLines : (args blank 0 0 10 0 5 10 0).Sound := args_sound ..
theorem witness_BitmapDrawsTheSetBits : (args blank 0 0 4 9 0 0 0).Sound := args_sound ..
theorem witness_WriteCharDrawsTheCell : (args blank 0x41 0 0 0 0 0 0).Sound := args_sound ..

theorem witness_FillTriangleDrawsOneSpanPerRow :
    let s := args blank 5 10 10 0 0 0 0
    let p0 : Point := ⟨10, 0⟩
    let p1 : Point := ⟨0, 0⟩
    let p2 : Point := ⟨5, 10⟩
    s.Sound ∧ [p0, p1, p2].Perm [⟨argS16 s 0, argS16 s 1⟩, ⟨argS16 s 2, argS16 s 3⟩, ⟨argS16 s 4, argS16 s 5⟩] ∧
      p0.y ≤ p1.y ∧ p1.y ≤ p2.y := ⟨args_sound .., by decide, by decide, by decide⟩

theorem witness_DrawingCommandsRefreshOnceAtTheEnd :
    let s := { blank with ctrl := ⟨true, true, true⟩ }
    s.ctrl.autoRefresh = true ∧ Instr.pixel.isDrawing = true ∧ Instr.clear.isDrawing = false ∧
    (∃ t, exec .pixel { s with ctrl := { s.ctrl with autoRefresh := false } } = .next t) ∧
    ∃ t, exec .clear { s with ctrl := { s.ctrl with autoRefresh := false } } = .next t := ⟨rfl, rfl, rfl, ⟨_, rfl⟩, ⟨_, rfl⟩⟩

theorem witness_CircleStepsFollowTheCircle : (0 : Int) ≤ 0 ∧ circleSteps 1 = [(1, 0)] := by decide

theorem witness_CircleSymmetry :
    (⟨7 + 3, 7 + 1⟩ : Point) ∈ circlePoints 7 7 3 ∧ (⟨7 + 2, 7 + 1⟩ : Point) ∈ fillCirclePoints 7 7 3 := by decide

theorem witness_RoundRectanglesStayInTheRectangle :
    (0 : Int) ≤ 0 ∧ (⟨2, 0⟩ : Point) ∈ roundRectPoints 0 0 6 4 5 ∧ (⟨2, 0⟩ : Point) ∈ fillRoundRectPoints 0 0 6 4 5 := by
  decide

theorem witness_FilledTriangleContainment :
    (⟨2, 2⟩ : Point) ∈ fillTrianglePoints 0 0 10 0 5 10 ∧ (⟨8, 2⟩ : Point) ∈ fillTrianglePoints 0 0 10 0 5 10 := by
  decide +kernel

theorem witness_CommandsLeaveTheHostsRegisters : ∃ t, exec .refresh dirtied = .next t := ⟨_, rfl⟩

/-- An error that is latched already, and one that rises. -/
theorem witness_OnlyTheNamedCommandsWrite :
    (∃ t, exec .refresh { dirtied with err := true, errCode := 1 } = .next t) ∧
    ∃ t, exec .refresh { dirtied with answers := [false] } = .next t ∧ t.err = true ∧ t.errCode = 2 :=
  ⟨⟨_, rfl⟩, ⟨_, rfl, by decide, by decide⟩⟩

theorem witness_ErrorsDoNotBlock : ∃ t, exec .refresh { dirtied with answers := [false] } = .next t := ⟨_, rfl⟩

/-- FB_WRITE 19, 2 with every bit changed that it does not read: bits 31:16 of the index, bits 31:8 of the byte, and the
registers R107 marks with a dash. -/
theorem witness_UnusedArgumentBitsPlayNoPart :
    (∃ t, exec .fbWrite (args blank 19 2 0 0 0 0 0) = .next t) ∧
    ∀ n : Fin 8, sameOperand .fbWrite n
      (#v[0xFFFF0013, 0xFFFFFF02, 0xFFFFFFFF, 0xFFFFFFFF, 0xFFFFFFFF, 0xFFFFFFFF, 0xFFFFFFFF, 0xFFFFFFFF] : Vector Word 8)[n]
      (args blank 19 2 0 0 0 0 0).args[n] :=
  ⟨⟨_, rfl⟩, by unfold sameOperand; decide⟩

/-- −1 and 32767 as 16-bit coordinates, whatever bits 31:16 hold (30_encoding.md R104). -/
theorem test_s16 : s16 0x1234FFFF = -1 ∧ s16 0xFFFF7FFF = 32767 := by decide

/-- An image that differs from the framebuffer, the difference inside the region. -/
theorem witness_DirtyRegionSoundness :
    let s := { dirtied with fb := [(0, 1)] }
    s.Inv ∧ SoundSince s [] ∧ pbGet s.cfg s.fb 0 0 ≠ pbGet s.cfg [] 0 0 ∧ ∃ t, step s = .next t := by
  refine ⟨{ dirtied_ready.1 with fbForm := by decide, fbSize := by decide }, ?_, by decide, ⟨_, rfl⟩⟩
  rintro x y ⟨h1, h2, h3, h4⟩ -
  obtain ⟨e1, e2, e3, e4⟩ := canvas_toNat test_legal_cfg16
  have hw : cfg16.width = 16 := rfl
  have hh : cfg16.height = 16 := rfl
  simp only [Region.contains, dirtied, e1, e2, e3, e4]
  simp only [dirtied, blank, State.resetWith, hw, hh] at h2 h4
  omega

/-- FB_WRITE of every index always goes through; and argument registers that name a pixel at each end of the canvas, and one
just outside. -/
theorem witness_SnapshotRoundTrip (v : Nat → Byte) :
    blank.Sound ∧ (∃ u, Loads v blank.cfg.fbBytes blank u) ∧ inCanvas blank.cfg (s16 0) (s16 0) ∧
    inCanvas blank.cfg (s16 15) (s16 15) ∧ ¬ inCanvas blank.cfg (s16 0) (s16 16) := by
  refine ⟨blank_sound, ?_, by decide, by decide, by decide⟩
  generalize blank.cfg.fbBytes = n
  induction n with
  | zero => exact ⟨blank, rfl⟩
  | succ n ih =>
    obtain ⟨m, hm⟩ := ih
    obtain ⟨u, hu⟩ := exec_next .fbWrite (withFbWriteArgs m n (v n))
    exact ⟨u, m, hm, hu⟩

/-- Both ends of the SRCBUF window and of the reserved ranges. -/
theorem witness_HostReadsReturnTheRegisters :
    Ready blank ∧ 0 < blank.cfg.srcbufSize ∧ 1023 < blank.cfg.srcbufSize ∧
    ∀ off ∈ [0x01C, 0x034, 0x03F, 0x050, 0x07F, 0x0A0, 0xFFF],
      off = 0x01C ∨ (0x034 ≤ off ∧ off < 0x040) ∨ (0x050 ≤ off ∧ off < 0x080) ∨ (0x0A0 ≤ off ∧ off < 0x1000) :=
  ⟨blank_ready, by decide, by decide, by decide⟩

theorem witness_HostWritesStoreTheirFields :
    Ready blank ∧ 0 < blank.cfg.srcbufSize ∧ 1023 < blank.cfg.srcbufSize ∧
    ∀ off ∈ [0x008, 0x010, 0x01F, 0x034, 0x07F, 0x0A0, 0xFFF],
      off = 0x008 ∨ (0x010 ≤ off ∧ off < 0x020) ∨ (0x034 ≤ off ∧ off < 0x080) ∨ (0x0A0 ≤ off ∧ off < 0x1000) :=
  ⟨blank_ready, by decide, by decide, by decide⟩

theorem witness_AddressBitsOneAndZeroAreIgnored : blank.Inv ∧ waiting.Inv ∧ held.Inv := ⟨blank_inv, waiting_inv, held_inv⟩

/-- A command that waits and one just started, both ends of the SRCBUF window and of the reserved ranges. -/
theorem witness_ReadsWhileBusy :
    waiting.Inv ∧ waiting.rstN = true ∧ waiting.busy = true ∧ (startCommand blank).Sound ∧
    (startCommand blank).rstN = true ∧ (startCommand blank).busy = true ∧ 0 < waiting.cfg.srcbufSize ∧
    1023 < waiting.cfg.srcbufSize ∧
    ∀ off ∈ [0x01C, 0x034, 0x03F, 0x050, 0x07F, 0x0A0, 0xFFF],
      off = 0x01C ∨ (0x034 ≤ off ∧ off < 0x040) ∨ (0x050 ≤ off ∧ off < 0x080) ∨ (0x0A0 ≤ off ∧ off < 0x1000) :=
  ⟨waiting_inv, rfl, rfl, blank_sound.startCommand, rfl, rfl, by decide, by decide, by decide⟩

end Sys2Proof.Tests
end

/-! ## The two stops of a step -/

namespace Sys2Proof.Machine

/-- The fault is tested first: the configuration does not matter (log 13). -/
theorem step_of_reserved_errCode {s : State} (hcode : 4 < s.errCode.toNat) : step s = .fault .reservedErrorCode :=
  if_pos hcode

/-- 00_scope.md R7. -/
theorem step_of_illegal_config {s : State} (hcode : s.errCode.toNat ≤ 4) (hcfg : s.cfg.legal = false) :
    step s = .refused .illegalConfiguration := by
  rw [step, if_neg (Nat.not_lt.mpr hcode), if_neg (Bool.eq_false_iff.mp hcfg)]

/-- Settles O9, one stop of `step` per clause. -/
theorem illegalBlocksHaveNoStep : Obligations.IllegalBlocksHaveNoStep :=
  fun _ => ⟨step_of_illegal_config, step_of_reserved_errCode⟩

end Sys2Proof.Machine

/-! ## The invariant, from reset on -/

namespace Sys2Proof

theorem Memory.wf_nil : Memory.wf [] := ⟨List.Pairwise.nil, fun _ hc => absurd hc List.not_mem_nil⟩

theorem Memory.within_nil (n : Nat) : Memory.within [] n := fun _ hc => absurd hc List.not_mem_nil

end Sys2Proof

namespace Sys2Proof.Machine

/-- A legal block comes out of reset with the invariant, its region the whole canvas (10_state.md R52). -/
theorem resetWith_inv {c : Config} (hc : c.legal = true) : (State.resetWith c).Inv where
  cfgLegal := hc
  region := .inr (canvas_inside hc)
  fbForm := (legal_initImage hc).1
  fbSize := (legal_initImage hc).2
  srcForm := Memory.wf_nil
  srcSize := Memory.within_nil _
  scale := (by decide : (1 : Byte) ≠ 0)
  codeClear := fun _ => rfl
  codeLatched := fun he => absurd he Bool.false_ne_true
  resultTop := (by decide : (0 : Word).extractLsb' 24 8 = 0)
  pinHigh := rfl
  sizes := fun _ ht => absurd ht List.not_mem_nil
  waiting := rfl
  inReset := fun _ => rfl
  pending := fun _ hf => nomatch hf

/-- The schedule, the drawn answers, the read log and the free-value counter are no part of the invariant. -/
theorem State.Inv.withModelFields {s : State} (h : s.Inv) (es : List Event) (as : List Bool) (log : List ReadResult)
    (n : Nat) : ({ s with events := es, answers := as, readLog := log, freeCount := n }).Inv where
  toSound := { h.toSound with }
  waiting := h.waiting
  inReset := h.inReset
  pending := h.pending

/-- `rst_n` going high keeps the invariant: either it was high already, or the block comes out of reset. -/
theorem State.Inv.rstRises {s : State} (h : s.Inv) : (Machine.rstRises s).Inv := by
  unfold Machine.rstRises
  split
  · exact h
  · exact (resetWith_inv h.cfgLegal).withModelFields _ _ _ _

/-- A host access keeps the invariant, whether it starts a command or not. -/
theorem State.Inv.runHost {s t : State} (h : s.Inv) {a : Access} {m : List Access}
    (e : Machine.runHost a m s = .next t) : t.Inv := by
  cases hs : startedBy a s with
  | none =>
    rw [runHost_access hs] at e
    obtain rfl := Host.Outcome.next.inj e
    exact (h.access a).withEvents _
  | some i =>
    rw [runHost_command hs] at e
    obtain ⟨-, -, -, hr, -⟩ := startedBy_eq_some.mp hs
    obtain ⟨hsound, hr'⟩ := h.toSound.meanwhile hr m
    exact hsound.exec hr' e

theorem State.Inv.runEvent {s t : State} (h : s.Inv) {ev : Event} (e : Machine.runEvent ev s = .next t) : t.Inv := by
  cases ev with
  | host a m => exact h.runHost e
  | transport ok => exact Host.Outcome.next.inj e ▸ h.runTransport ok
  | rstLow => exact Host.Outcome.next.inj e ▸ h.rstFalls
  | rstHigh => exact Host.Outcome.next.inj e ▸ h.rstRises

/-- Everything a step can do from a sound state: nothing, or the next event of the schedule. -/
theorem step_cases {s t : State} (h : s.Sound) (e : step s = .next t) :
    t = s ∨ ∃ ev es, runEvent ev { s with events := es } = .next t := by
  rw [step_eq_runNext h, runNext] at e
  split at e
  · exact .inl (Host.Outcome.next.inj e).symm
  · exact .inr ⟨_, _, e⟩

theorem State.Inv.step {s t : State} (h : s.Inv) (e : Machine.step s = .next t) : t.Inv := by
  rcases step_cases h.toSound e with rfl | ⟨ev, es, e⟩
  · exact h
  · exact (h.withEvents es).runEvent e

/-- Settles O11, event by event. -/
theorem everyStepKeepsTheInvariant : Obligations.EveryStepKeepsTheInvariant :=
  fun _ _ h e => h.step e

/-- Settles O10. -/
theorem invariantHoldsAtReset : Obligations.InvariantHoldsAtReset :=
  fun _ hc => resetWith_inv hc

/-- Settles O7: all but the region are the fields of `State.resetWith`, and the region is the whole canvas. -/
theorem resetValues : Obligations.ResetValues := by
  intro c hc
  have hargs : ∀ n : Fin 8, (State.resetWith c).args[n] = 0 := fun n => Vector.getElem_replicate _
  exact ⟨hargs, rfl, rfl, rfl, rfl, rfl, rfl, rfl, rfl, rfl, rfl, rfl, rfl, canvas_toNat hc, fun _ => rfl, fun _ => rfl,
    rfl, rfl, rfl⟩

end Sys2Proof.Machine

/-! ## What each command comes to -/

namespace Sys2Proof.Machine

/-- Command `i`, run in `s`, comes to the state given: one form per driver command, one for all drawing commands. -/
inductive ExecTo (s : State) : Instr → State → Prop where
  | drawing {i : Instr} (ps : List Pixel) {cx cy : Half} (hi : i.isDrawing = true)
      (hcursor : i ≠ .writeChar → i ≠ .writeString → cx = s.cursorX ∧ cy = s.cursorY) :
      ExecTo s i (commandEnd (drawn ps cx cy s))
  | panelReset : ExecTo s .panelReset (endCommand (pulsePin s))
  | clear : ExecTo s .clear (endCommand (clearFb s))
  | refresh : ExecTo s .refresh (Machine.refresh s)
  | getPixel (v : Word) : ExecTo s .getPixel (endCommand { s with result := v })
  | fbRead (v : Word) : ExecTo s .fbRead (endCommand { s with result := v })
  | fbWrite (j : Nat) (v : Byte) : ExecTo s .fbWrite (endCommand (storeFbByte j v s))
  | txRaw (sel : Bool) (off len : Nat) : ExecTo s .txRaw (Machine.txRaw sel off len s)

/-- Everything a command can do. -/
theorem execTo_of_exec {i : Instr} {s t : State} (e : exec i s = .next t) : ExecTo s i t := by
  by_cases hd : i.isDrawing = true
  · obtain ⟨ps, cx, cy, he, hcursor⟩ := exec_drawing i s hd
    obtain rfl := Host.Outcome.next.inj (he.symm.trans e)
    exact .drawing ps hd hcursor
  · cases i with
    | panelReset => exact Host.Outcome.next.inj e ▸ .panelReset
    | clear => exact Host.Outcome.next.inj e ▸ .clear
    | refresh => exact Host.Outcome.next.inj e ▸ .refresh
    | getPixel => exact Host.Outcome.next.inj e ▸ .getPixel _
    | fbRead => exact Host.Outcome.next.inj e ▸ .fbRead _
    | fbWrite => exact Host.Outcome.next.inj e ▸ .fbWrite (argU16 s 0) (argU8 s 1)
    | txRaw => exact Host.Outcome.next.inj e ▸ .txRaw (argBit s 0) (argU16 s 1) (argU16 s 2)
    | _ => exact absurd rfl hd

/-- Transactions answered with success are recorded as successes (20_memory.md R85). -/
theorem ok_of_mem_answered (ts : List TxRequest) : ∀ x ∈ ts.map (answered true), x.ok = true := by
  intro x hx
  obtain ⟨r, -, rfl⟩ := List.mem_map.mp hx
  rfl

end Sys2Proof.Machine

/-! ## The dirty region contains every changed pixel -/

namespace Sys2Proof.Machine

open Sys2Proof.Claims

/-! ### Regions that contain a pixel -/

/-- A widened region contains what the old one and the rectangle contain (40_driver.md R134). -/
theorem contains_widen {r : Region} {x0 y0 x1 y1 : Nat} (hx1 : x1 < 65536) (hy1 : y1 < 65536) {x y : Int}
    (h : r.contains x y ∨ ((x0 : Int) ≤ x ∧ x ≤ x1 ∧ (y0 : Int) ≤ y ∧ y ≤ y1)) :
    (r.widen x0 y0 x1 y1).contains x y := by
  unfold Region.contains at h ⊢
  rw [widen_xMin, widen_yMin, widen_xMax r hx1, widen_yMax r hy1]
  omega

/-- The whole canvas contains every canvas pixel (70_reset_and_hazards.md R322). -/
theorem contains_canvas {c : Config} (hc : c.legal = true) {x y : Int} (h : inCanvas c x y) :
    (Region.canvas c).contains x y := by
  obtain ⟨h1, h2, h3, h4⟩ := canvas_toNat hc
  unfold Region.contains
  omega

/-- The region after some Plots contains what it contained before, and every canvas pixel plotted. -/
theorem contains_plotsDirty {c : Config} (hc : c.legal = true) {r : Region} {ps : List Pixel} {x y : Int}
    (hxy : inCanvas c x y) (h : r.contains x y ∨ ∃ p ∈ ps, p.pos = ⟨x, y⟩) : (plotsDirty c r ps).contains x y := by
  obtain ⟨hx0, px0⟩ := (le_plotsDirty_xMin c r ps _).mp le_rfl
  obtain ⟨hy0, py0⟩ := (le_plotsDirty_yMin c r ps _).mp le_rfl
  obtain ⟨hx1, px1⟩ := (plotsDirty_xMax_le hc r ps _).mp le_rfl
  obtain ⟨hy1, py1⟩ := (plotsDirty_yMax_le hc r ps _).mp le_rfl
  rcases h with h | ⟨⟨pos, col⟩, hp, hpos⟩
  · unfold Region.contains at h ⊢
    omega
  · cases hpos
    exact ⟨px0 _ hp hxy, px1 _ hp hxy, py0 _ hp hxy, py1 _ hp hxy⟩

/-! ### From one state to a later one -/

/-- The region of `t` contains every canvas pixel that the region of `s` contains or in which the framebuffers differ. -/
structure Covers (s t : State) : Prop where
  cfg : t.cfg = s.cfg
  contains : ∀ x y, inCanvas s.cfg x y →
    s.dirty.contains x y ∨ pbGet s.cfg t.fb x y ≠ pbGet s.cfg s.fb x y → t.dirty.contains x y

/-- From `s` to `t` a refresh went through: the region is empty, and all that was sent succeeded (40_driver.md R138). -/
structure Refreshed (s t : State) : Prop where
  sentinel : isSentinel t.cfg t.dirty
  sent : ∃ new, new ≠ [] ∧ t.history = s.history ++ new ∧ ∀ x ∈ new, x.ok = true

/-- What O55 says of a step, whatever the image: the region covers every change, or a refresh went through. -/
def Accounted (s t : State) : Prop := Covers s t ∨ Refreshed s t

/-- Where neither the framebuffer nor the region changes, the region covers every change. -/
theorem Covers.of_eq {s t : State} (hcfg : t.cfg = s.cfg) (hfb : t.fb = s.fb) (hdirty : t.dirty = s.dirty) :
    Covers s t where
  cfg := hcfg
  contains := fun x y _ h => by
    rw [hdirty]
    exact h.resolve_right (by simp [hfb])

theorem Covers.trans {s u t : State} (h : Covers s u) (h' : Covers u t) : Covers s t where
  cfg := h'.cfg.trans h.cfg
  contains := fun x y hxy hst => by
    rw [← h.cfg] at hxy hst
    refine h'.contains x y hxy ?_
    by_cases hut : pbGet u.cfg t.fb x y = pbGet u.cfg u.fb x y
    · rw [hut] at hst
      rw [h.cfg] at hxy hst
      exact .inl (h.contains x y hxy hst)
    · exact .inr hut

/-- A part of a step that sends nothing may come before one that may refresh. -/
theorem Accounted.after {s u t : State} (h : Covers s u) (hhist : u.history = s.history) (h' : Accounted u t) :
    Accounted s t :=
  h'.imp h.trans fun r => ⟨r.sentinel, hhist ▸ r.sent⟩

/-- The region stays sound for every image for which it was. -/
theorem Covers.soundSince {s t : State} (h : Covers s t) {m : Memory} (hm : SoundSince s m) : SoundSince t m := by
  intro x y hxy hne
  rw [h.cfg] at hxy hne
  refine h.contains x y hxy ?_
  by_cases heq : pbGet s.cfg t.fb x y = pbGet s.cfg s.fb x y
  · exact .inl (hm x y hxy (heq ▸ hne))
  · exact .inr heq

/-! ### The operations that write the framebuffer -/

/-- A region that is the whole canvas covers every change. -/
theorem Covers.of_canvas {s t : State} (hcfg : t.cfg = s.cfg) (ht : ∀ x y, inCanvas s.cfg x y → t.dirty.contains x y) :
    Covers s t where
  cfg := hcfg
  contains := fun x y hxy _ => ht x y hxy

theorem clearFb_covers {s : State} (h : s.Sound) : Covers s (clearFb s) := by
  obtain ⟨-, hw⟩ := legal_width h.cfgLegal
  obtain ⟨-, -, hh⟩ := legal_height h.cfgLegal
  exact .of_canvas rfl fun x y hxy => contains_widen (by omega) (by omega) (.inr (by omega))

theorem drawn_covers {s : State} (h : s.Sound) (ps : List Pixel) (cx cy : Half) : Covers s (drawn ps cx cy s) where
  cfg := rfl
  contains := fun x y hxy hst => contains_plotsDirty h.cfgLegal hxy <| hst.imp_right fun hne => by
    by_contra hno
    exact hne (pbGet_plotsFb_of_not_mem h.fbForm fun p hp hpos => hno ⟨p, hp, hpos⟩)

/-- A framebuffer byte is the byte of the pixels of its column and its band (20_memory.md R72). -/
theorem pixIndex_of_index (c : Config) (i : Nat) : pixIndex c (i % c.width) (8 * (i / c.width)) = i := by
  rw [pixIndex, Nat.mul_div_cancel_left _ (by omega), Nat.mod_add_div']

theorem storeFbByte_covers {s : State} (h : s.Sound) (i : Nat) (v : Byte) : Covers s (storeFbByte i v s) := by
  unfold storeFbByte
  split
  · next hi =>
    obtain ⟨-, hw⟩ := legal_width h.cfgLegal
    obtain ⟨-, -, hh⟩ := legal_height h.cfgLegal
    obtain ⟨hx, hy⟩ := index_in_canvas h.cfgLegal hi
    refine ⟨rfl, fun x y hxy hst => contains_widen (by omega) (by omega) (hst.imp_right fun hne => ?_)⟩
    have hidx : pixIndex s.cfg x.toNat y.toNat = i := by
      by_contra hidx
      simp only [pbGet, if_pos hxy, Memory.read_write_other h.fbForm (Ne.symm hidx)] at hne
      exact hne rfl
    obtain ⟨hcol, hband⟩ := pixIndex_inj (by omega) hx (hidx.trans (pixIndex_of_index s.cfg i).symm)
    omega
  · exact .of_eq rfl rfl rfl

/-! ### The end of a command -/

/-- Transactions leave the framebuffer alone, and the region too but where they are the last of a refresh. -/
theorem transmit_accounted {s : State} (hc : s.cfg.legal = true) (after : TxThen) {ts : List TxRequest} (hts : ts ≠ []) :
    Accounted s (transmit after ts s) := by
  rcases transmit_cases after ts s with ⟨as, e⟩ | ⟨pre, t, post, as, -, e⟩ | ⟨pre, t, post, -, e⟩ <;> rw [e]
  · cases after with
    | nothing => exact .inl (.of_eq rfl rfl rfl)
    | clearRegion =>
      exact .inr ⟨sentinel_toNat hc, ts.map (answered true), by simpa using hts, rfl, ok_of_mem_answered ts⟩
  · exact .inl (.of_eq (by simp) (by simp) (by simp))
  · exact .inl (.of_eq rfl rfl rfl)

/-- The box a refresh sends is not upside down. -/
theorem refreshBox_yMin_le {s : State} (h : s.Sound) (hne : s.dirty.isEmpty = false) :
    (refreshBox s).yMin.toNat ≤ (refreshBox s).yMax.toNat := by
  unfold refreshBox
  split
  · rcases h.region with he | hin
    · rw [he, isEmpty_sentinel h.cfgLegal] at hne
      cases hne
    · exact hin.2.2.1
  · exact (canvas_inside h.cfgLegal).2.2.1

/-- A refresh of a region that is not empty plans a transaction (40_driver.md R138). -/
theorem refreshPlan_ne_nil {s : State} (h : s.Sound) (hne : s.dirty.isEmpty = false) : refreshPlan s ≠ [] := by
  have hbands := Nat.div_le_div_right (c := 8) (refreshBox_yMin_le h hne)
  intro hnil
  have hband := List.flatMap_eq_nil_iff.mp hnil 0 (List.mem_range.mpr (by omega))
  cases hband

theorem refresh_accounted {s : State} (h : s.Sound) : Accounted s (refresh s) := by
  rcases refresh_cases s with ⟨-, e⟩ | ⟨hne, e⟩ <;> rw [e]
  · exact .inl (.of_eq rfl rfl rfl)
  · exact transmit_accounted h.cfgLegal _ (refreshPlan_ne_nil h hne)

theorem commandEnd_accounted {s : State} (h : s.Sound) : Accounted s (commandEnd s) := by
  unfold commandEnd
  split
  · exact refresh_accounted h
  · exact .inl (.of_eq rfl rfl rfl)

theorem txRaw_accounted {s : State} (h : s.Sound) (sel : Bool) (off len : Nat) : Accounted s (txRaw sel off len s) := by
  unfold txRaw
  split
  · exact .inl (.of_eq (by simp) (by simp) (by simp))
  · split
    · exact .inl (.of_eq rfl rfl rfl)
    · exact transmit_accounted h.cfgLegal _ (List.cons_ne_nil _ _)

/-! ### Commands, events and steps -/

/-- A command that ends without a refresh covers what it did before it ended. -/
theorem Covers.endCommand {s u : State} (h : Covers s u) : Covers s (Machine.endCommand u) :=
  h.trans (.of_eq rfl rfl rfl)

theorem pulsePin_covers (s : State) : Covers s (pulsePin s) := by
  unfold pulsePin
  split <;> exact .of_eq rfl rfl rfl

theorem exec_accounted {i : Instr} {s t : State} (h : s.Sound) (e : exec i s = .next t) : Accounted s t := by
  cases execTo_of_exec e with
  | drawing ps => exact .after (drawn_covers h ps _ _) rfl (commandEnd_accounted (h.drawn ps _ _))
  | panelReset => exact .inl (pulsePin_covers s).endCommand
  | clear => exact .inl (clearFb_covers h).endCommand
  | refresh => exact refresh_accounted h
  | getPixel => exact .inl (.of_eq rfl rfl rfl)
  | fbRead => exact .inl (.of_eq rfl rfl rfl)
  | fbWrite j v => exact .inl (storeFbByte_covers h j v).endCommand
  | txRaw => exact txRaw_accounted h _ _ _

/-- A host access leaves the framebuffer and the region alone. -/
theorem HostSide.covers {s t : State} (h : HostSide s t) : Covers s t := by
  rw [h.eq]
  exact .of_eq rfl rfl rfl

theorem runHost_accounted {a : Access} {m : List Access} {s t : State} (h : s.Sound)
    (e : runHost a m s = .next t) : Accounted s t := by
  cases hs : startedBy a s with
  | none =>
    rw [runHost_access hs] at e
    obtain rfl := Host.Outcome.next.inj e
    exact .inl ((access_hostSide a s).covers.trans (.of_eq rfl rfl rfl))
  | some i =>
    rw [runHost_command hs] at e
    obtain ⟨-, -, -, hr, -⟩ := startedBy_eq_some.mp hs
    have hside := accesses_busySide (startCommand_busy s) m
    have hcov : Covers s (startCommand s) := .of_eq rfl rfl rfl
    exact .after (hcov.trans hside.hostSide.covers) (by rw [hside.eq]; rfl) (exec_accounted (h.meanwhile hr m).1 e)

theorem runTransport_accounted {s : State} (h : s.Inv) (ok : Bool) : Accounted s (runTransport ok s) := by
  cases hf : s.inflight with
  | none =>
    rw [runTransport_none hf]
    exact .inl (.of_eq rfl rfl rfl)
  | some f =>
    rw [runTransport_some hf]
    exact .after (u := { s with answers := ok :: s.answers }) (.of_eq rfl rfl rfl) rfl
      (transmit_accounted (s := { s with answers := ok :: s.answers }) h.cfgLegal _ (h.pending f hf).1)

/-- Reset makes the region the whole canvas (70_reset_and_hazards.md R322). -/
theorem rstRises_covers {s : State} (h : s.Sound) : Covers s (rstRises s) := by
  unfold rstRises
  split
  · exact .of_eq rfl rfl rfl
  · exact .of_canvas rfl fun x y hxy => contains_canvas h.cfgLegal hxy

theorem runEvent_accounted {ev : Event} {s t : State} (h : s.Inv) (e : runEvent ev s = .next t) : Accounted s t := by
  cases ev with
  | host a m => exact runHost_accounted h.toSound e
  | transport ok => exact Host.Outcome.next.inj e ▸ runTransport_accounted h ok
  | rstLow => exact Host.Outcome.next.inj e ▸ .inl (.of_eq rfl rfl rfl)
  | rstHigh => exact Host.Outcome.next.inj e ▸ .inl (rstRises_covers h.toSound)

theorem step_accounted {s t : State} (h : s.Inv) (e : step s = .next t) : Accounted s t := by
  rcases step_cases h.toSound e with rfl | ⟨ev, es, e⟩
  · exact .inl (.of_eq rfl rfl rfl)
  · exact .after (u := { s with events := es }) (.of_eq rfl rfl rfl) rfl (runEvent_accounted (h.withEvents es) e)

/-- Settles O55: every step is accounted for, whatever the image. -/
theorem dirtyRegionSoundness : Obligations.DirtyRegionSoundness :=
  fun _ _ _ h hm e => (step_accounted h e).imp (·.soundSince hm) fun r => ⟨r.sentinel, r.sent⟩

end Sys2Proof.Machine

/-! ## What commands leave unchanged -/

namespace Sys2Proof.Machine

/-! ### The end of a command -/

/-- From `s` to `t` only transactions are added to the history, all but the last of which succeeded (60_exceptions.md
R293). -/
def HistoryGrows (s t : State) : Prop := ∃ new, t.history = s.history ++ new ∧ ∀ x ∈ new.dropLast, x.ok = true

/-- From `s` to `t` the error latch is kept, or an error with one of `codes` is latched (60_exceptions.md R292). -/
def LatchKeptOr (codes : BitVec 4 → Prop) (s t : State) : Prop :=
  t.err = s.err ∧ t.errCode = s.errCode ∨ s.err = false ∧ t.err = true ∧ codes t.errCode

/-- What the end of a command can do to the state `u` it has come to, where it may latch one of `codes`. -/
structure EndsIn (codes : BitVec 4 → Prop) (u t : State) : Prop where
  frame : t = { u with
    busy := t.busy, err := t.err, errCode := t.errCode, dirty := t.dirty, inflight := t.inflight, history := t.history
    answers := t.answers }
  latch : LatchKeptOr codes u t
  history : HistoryGrows u t

section

variable {codes : BitVec 4 → Prop} {u : State}

theorem historyGrows_of_eq {s t : State} (h : t.history = s.history) : HistoryGrows s t :=
  ⟨[], by rw [h, List.append_nil], fun _ hx => absurd hx List.not_mem_nil⟩

/-- A latched error stays as it is (60_exceptions.md R292). -/
theorem LatchKeptOr.of_latched {s t : State} (h : LatchKeptOr codes s t) (he : s.err = true) :
    t.err = true ∧ t.errCode = s.errCode := by
  rcases h with ⟨herr, hcode⟩ | ⟨hclear, -⟩
  · exact ⟨herr.trans he, hcode⟩
  · exact absurd (he.symm.trans hclear) (by decide)

theorem latch_latchKeptOr {e : ErrorCode} (he : codes e.code) (s : State) : LatchKeptOr codes s (latch e s) := by
  unfold latch
  cases hs : s.err
  · exact .inr ⟨hs, rfl, he⟩
  · exact .inl ⟨rfl, rfl⟩

theorem endCommand_endsIn : EndsIn codes u (endCommand u) where
  frame := rfl
  latch := .inl ⟨rfl, rfl⟩
  history := historyGrows_of_eq rfl

theorem raiseError_endsIn {e : ErrorCode} (he : codes e.code) : EndsIn codes u (raiseError e u) where
  frame := by
    rw [raiseError_eq]
    unfold latch
    split <;> rfl
  latch := latch_latchKeptOr he u
  history := historyGrows_of_eq (latch_history u e)

theorem transmit_endsIn (hcode : codes 2) (after : TxThen) (ts : List TxRequest) :
    EndsIn codes u (transmit after ts u) := by
  rcases transmit_cases after ts u with ⟨as, e⟩ | ⟨pre, t, post, as, -, e⟩ | ⟨pre, t, post, -, e⟩ <;> rw [e]
  · have hok : ∀ x ∈ (ts.map (answered true)).dropLast, x.ok = true :=
      fun x hx => ok_of_mem_answered ts x (List.mem_of_mem_dropLast hx)
    cases after <;> exact ⟨rfl, .inl ⟨rfl, rfl⟩, _, rfl, hok⟩
  · have hend := raiseError_endsIn (e := .transportError) hcode
      (u := { u with answers := as, history := u.history ++ (pre.map (answered true) ++ [answered false t]) })
    refine ⟨hend.frame, hend.latch, _, latch_history _ _, ?_⟩
    rw [List.dropLast_concat]
    exact ok_of_mem_answered pre
  · exact ⟨rfl, .inl ⟨rfl, rfl⟩, _, rfl, fun x hx => ok_of_mem_answered pre x (List.mem_of_mem_dropLast hx)⟩

theorem refresh_endsIn (hcode : codes 2) : EndsIn codes u (refresh u) := by
  rcases refresh_cases u with ⟨-, e⟩ | ⟨-, e⟩ <;> rw [e]
  · exact endCommand_endsIn
  · exact transmit_endsIn hcode _ _

theorem commandEnd_endsIn (hcode : u.ctrl.autoRefresh = true → codes 2) : EndsIn codes u (commandEnd u) := by
  unfold commandEnd
  split
  · next hauto => exact refresh_endsIn (hcode hauto)
  · exact endCommand_endsIn

theorem txRaw_endsIn (htransport : codes 2) (harg : codes 3) (sel : Bool) (off len : Nat) :
    EndsIn codes u (txRaw sel off len u) := by
  unfold txRaw
  split
  · exact raiseError_endsIn harg
  · split
    · exact endCommand_endsIn
    · exact transmit_endsIn htransport _ _

end

/-! ### A command is a body and an end -/

/-- What command `i` can do to `s` before it ends. -/
structure Body (i : Instr) (s u : State) : Prop where
  frame : u = { s with
    result := u.result, cursorX := u.cursorX, cursorY := u.cursorY, panelRstN := u.panelRstN, pinHistory := u.pinHistory
    fb := u.fb, dirty := u.dirty }
  result : i ≠ .getPixel → i ≠ .fbRead → u.result = s.result
  cursor : i ≠ .writeChar → i ≠ .writeString → u.cursorX = s.cursorX ∧ u.cursorY = s.cursorY
  pin : i ≠ .panelReset → u.pinHistory = s.pinHistory ∧ u.panelRstN = s.panelRstN
  fb : i ≠ .clear → i ≠ .fbWrite → i.isDrawing = false → u.fb = s.fb

/-- The codes command `i` may latch in `s` (60_exceptions.md R290). -/
def MayLatch (i : Instr) (s : State) (code : BitVec 4) : Prop :=
  i = .txRaw ∧ (code = 2 ∨ code = 3) ∨
    (i = .refresh ∨ i.isDrawing = true ∧ s.ctrl.autoRefresh = true) ∧ code = 2

/-- A command with nothing but its end. -/
theorem Body.refl (i : Instr) (s : State) : Body i s s where
  frame := rfl
  result := fun _ _ => rfl
  cursor := fun _ _ => ⟨rfl, rfl⟩
  pin := fun _ => ⟨rfl, rfl⟩
  fb := fun _ _ _ => rfl

theorem pulsePin_body (s : State) : Body .panelReset s (pulsePin s) := by
  unfold pulsePin
  split
  · exact { Body.refl .panelReset s with frame := rfl, pin := fun h => absurd rfl h }
  · exact .refl _ s

theorem storeFbByte_body (j : Nat) (v : Byte) (s : State) : Body .fbWrite s (storeFbByte j v s) := by
  unfold storeFbByte
  split
  · exact { Body.refl .fbWrite s with frame := rfl, fb := fun _ h => absurd rfl h }
  · exact .refl _ s

theorem clearFb_body (s : State) : Body .clear s (clearFb s) :=
  { Body.refl .clear s with frame := rfl, fb := fun h => absurd rfl h }

/-- Every command is a body and an end (40_driver.md R130). -/
theorem exec_body_end {i : Instr} {s t : State} (e : exec i s = .next t) :
    ∃ u, Body i s u ∧ EndsIn (MayLatch i s) u t := by
  cases execTo_of_exec e with
  | @drawing _ ps cx cy hi hcursor =>
    have hbody : Body i s (drawn ps cx cy s) :=
      { Body.refl i s with
        frame := rfl
        cursor := hcursor
        fb := fun _ _ hno => absurd (hi.symm.trans hno) (by decide) }
    exact ⟨_, hbody, commandEnd_endsIn fun hauto => .inr ⟨.inr ⟨hi, hauto⟩, rfl⟩⟩
  | panelReset => exact ⟨_, pulsePin_body s, endCommand_endsIn⟩
  | clear => exact ⟨_, clearFb_body s, endCommand_endsIn⟩
  | refresh => exact ⟨s, .refl _ s, refresh_endsIn (.inr ⟨.inl rfl, rfl⟩)⟩
  | getPixel v =>
    exact ⟨{ s with result := v }, { Body.refl .getPixel s with frame := rfl, result := fun h => absurd rfl h },
      endCommand_endsIn⟩
  | fbRead v =>
    exact ⟨{ s with result := v }, { Body.refl .fbRead s with frame := rfl, result := fun _ h => absurd rfl h },
      endCommand_endsIn⟩
  | fbWrite j v => exact ⟨_, storeFbByte_body j v s, endCommand_endsIn⟩
  | txRaw sel off len =>
    exact ⟨s, .refl _ s, txRaw_endsIn (.inl ⟨rfl, .inl rfl⟩) (.inl ⟨rfl, .inr rfl⟩) sel off len⟩

/-- No body touches the error latch. -/
theorem Body.latchKeptOr {codes : BitVec 4 → Prop} {i : Instr} {s u t : State} (hbody : Body i s u)
    (h : LatchKeptOr codes u t) : LatchKeptOr codes s t := by
  rw [hbody.frame] at h
  exact h

/-- No body sends a transaction. -/
theorem Body.historyGrows {i : Instr} {s u t : State} (hbody : Body i s u) (h : HistoryGrows u t) :
    HistoryGrows s t := by
  rw [hbody.frame] at h
  exact h

/-- Settles O51: neither a command's body nor its end names one of these fields. -/
theorem commandsLeaveTheHostsRegisters : Obligations.CommandsLeaveTheHostsRegisters := by
  intro i s t e
  obtain ⟨u, hbody, hend⟩ := exec_body_end e
  rw [hend.frame, hbody.frame]
  exact ⟨rfl, rfl, rfl, rfl, rfl, rfl, rfl, rfl, rfl, rfl, rfl⟩

/-- Settles O52: RESULT, the cursor, the pin and the framebuffer are the body's, the latch and the history are the end's. -/
theorem onlyTheNamedCommandsWrite : Obligations.OnlyTheNamedCommandsWrite := by
  intro i s t e
  obtain ⟨u, hbody, hend⟩ := exec_body_end e
  have hlatch := hbody.latchKeptOr hend.latch
  have hframe := hend.frame
  refine ⟨fun h h' => ?_, fun h h' => ?_, fun h => ?_, fun h h' h'' => ?_, hlatch.of_latched, hlatch,
    hbody.historyGrows hend.history⟩
  all_goals rw [hframe]
  · exact hbody.result h h'
  · exact hbody.cursor h h'
  · exact hbody.pin h
  · exact hbody.fb h h' h''

end Sys2Proof.Machine

/-! ## Answers at once or one by one -/

namespace Sys2Proof.Machine

open Sys2Proof.Claims

/-! ### Every command ends with its transactions -/

/-- `s` with the drawn answers `as` and the schedule `es` (log 2, 4). -/
def State.given (s : State) (as : List Bool) (es : List Event) : State := { s with answers := as, events := es }

theorem State.Inv.given {s : State} (h : s.Inv) (as : List Bool) (es : List Event) : (s.given as es).Inv :=
  h.withModelFields es as s.readLog s.freeCount

section

variable (s : State) (as : List Bool) (es : List Event)

theorem argS16_given (n : Fin 8) : argS16 (s.given as es) n = argS16 s n := rfl

theorem argColour_given (n : Fin 8) : argColour (s.given as es) n = argColour s n := rfl

theorem argU16_given (n : Fin 8) : argU16 (s.given as es) n = argU16 s n := rfl

theorem bitmapPoints_given (x y w h : Int) (off : Nat) :
    bitmapPoints (s.given as es) x y w h off = bitmapPoints s x y w h off := rfl

theorem pulsePin_given : pulsePin (s.given as es) = (pulsePin s).given as es := by
  unfold pulsePin State.given
  split <;> rfl

theorem storeFbByte_given (i : Nat) (v : Byte) :
    storeFbByte i v (s.given as es) = (storeFbByte i v s).given as es := by
  unfold storeFbByte State.given
  split <;> rfl

theorem latch_given (e : ErrorCode) : latch e (s.given as es) = (latch e s).given as es := by
  unfold latch State.given
  split <;> rfl

theorem writeChar_given (ch : Byte) : writeChar ch (s.given as es) = (writeChar ch s).given as es := by
  unfold writeChar drawChar advance
  simp only [plotAll_eq, State.given]
  split
  · rfl
  · split
    · rfl
    · split <;> rfl

end

theorem writeChars_given (n i : Nat) (s : State) (as : List Bool) (es : List Event) :
    writeChars n i (s.given as es) = (writeChars n i s).given as es := by
  induction n generalizing i s with
  | zero => rfl
  | succ n ih => exact (congrArg _ (writeChar_given s as es _)).trans (ih _ _)

/-- `run` comes to some transactions issued from some state, the same ones whatever the drawn answers and the schedule
are. -/
def EndsTransmitting (run : List Bool → List Event → State) : Prop :=
  ∃ after ts u, ∀ as es, run as es = transmit after ts (State.given u as es)

theorem EndsTransmitting.of_eq {run run' : List Bool → List Event → State} (h : EndsTransmitting run)
    (e : ∀ as es, run' as es = run as es) : EndsTransmitting run' := by
  obtain ⟨after, ts, u, h⟩ := h
  exact ⟨after, ts, u, fun as es => (e as es).trans (h as es)⟩

theorem endsTransmitting_endCommand (u : State) : EndsTransmitting fun as es => endCommand (u.given as es) :=
  ⟨.nothing, [], u, fun _ _ => rfl⟩

theorem endsTransmitting_raiseError (e : ErrorCode) (u : State) :
    EndsTransmitting fun as es => raiseError e (u.given as es) :=
  (endsTransmitting_endCommand (latch e u)).of_eq fun as es => congrArg endCommand (latch_given u as es e)

theorem endsTransmitting_refresh (u : State) : EndsTransmitting fun as es => refresh (u.given as es) := by
  cases he : u.dirty.isEmpty
  · exact ⟨.clearRegion, refreshPlan u, u, fun _ _ => if_neg (Bool.eq_false_iff.mp he)⟩
  · exact (endsTransmitting_endCommand u).of_eq fun _ _ => if_pos he

theorem endsTransmitting_commandEnd (u : State) : EndsTransmitting fun as es => commandEnd (u.given as es) := by
  cases ha : u.ctrl.autoRefresh
  · exact (endsTransmitting_endCommand u).of_eq fun _ _ => if_neg (Bool.eq_false_iff.mp ha)
  · exact (endsTransmitting_refresh u).of_eq fun _ _ => if_pos ha

theorem endsTransmitting_draw (ps : List Pixel) (s : State) : EndsTransmitting fun as es => draw ps (s.given as es) :=
  (endsTransmitting_commandEnd (drawn ps s.cursorX s.cursorY s)).of_eq fun as es => draw_eq ps (s.given as es)

theorem endsTransmitting_txRaw (sel : Bool) (off len : Nat) (s : State) :
    EndsTransmitting fun as es => txRaw sel off len (s.given as es) := by
  by_cases hbad : len > s.cfg.blockSize ∨ off + len > s.cfg.srcbufSize
  · exact (endsTransmitting_raiseError .argError s).of_eq fun _ _ => if_pos hbad
  · by_cases hlen : len = 0
    · exact (endsTransmitting_endCommand s).of_eq fun _ _ => (if_neg hbad).trans (if_pos hlen)
    · exact ⟨.nothing, [rawTransaction s sel off len], s, fun _ _ => (if_neg hbad).trans (if_neg hlen)⟩

/-- A command consults the transport in its last act only (60_exceptions.md R293): what it does before does not depend on
the answers or the schedule. -/
theorem exec_endsTransmitting (i : Instr) (s : State) :
    ∃ run, EndsTransmitting run ∧ ∀ as es, exec i (s.given as es) = .next (run as es) := by
  cases i with
  | panelReset =>
    simp only [exec, execPanelReset, pulsePin_given]
    exact ⟨_, endsTransmitting_endCommand (pulsePin s), fun _ _ => rfl⟩
  | clear => exact ⟨_, endsTransmitting_endCommand (clearFb s), fun _ _ => rfl⟩
  | refresh => exact ⟨_, endsTransmitting_refresh s, fun _ _ => rfl⟩
  | getPixel =>
    exact ⟨_, endsTransmitting_endCommand { s with result := sentinelColour (pbGet s.cfg s.fb (argS16 s 0) (argS16 s 1)) },
      fun _ _ => rfl⟩
  | fbRead =>
    exact ⟨_, endsTransmitting_endCommand { s with result := (fbByte s (argU16 s 0)).zeroExtend 32 }, fun _ _ => rfl⟩
  | fbWrite =>
    simp only [exec, execFbWrite, storeFbByte_given]
    exact ⟨_, endsTransmitting_endCommand (storeFbByte (argU16 s 0) (argU8 s 1) s), fun _ _ => rfl⟩
  | txRaw => exact ⟨_, endsTransmitting_txRaw (argBit s 0) (argU16 s 1) (argU16 s 2) s, fun _ _ => rfl⟩
  | writeChar =>
    simp only [exec, execWriteChar, writeChar_given]
    exact ⟨_, endsTransmitting_commandEnd (writeChar (argU8 s 0) s), fun _ _ => rfl⟩
  | writeString =>
    simp only [exec, execWriteString, writeChars_given]
    exact ⟨_, endsTransmitting_commandEnd (writeChars (argU16 s 1) (argU16 s 0) s), fun _ _ => rfl⟩
  | _ =>
    simp only [exec, execPixel, execLine, execVline, execHline, execRect, execFillRect, execRoundRect, execFillRoundRect,
      execCircle, execFillCircle, execTriangle, execFillTriangle, execBitmap, argS16_given, argColour_given, argU16_given,
      bitmapPoints_given]
    exact ⟨_, endsTransmitting_draw _ s, fun _ _ => rfl⟩

/-! ### One answer -/

/-- Transactions do not read BUSY or the in-flight state. -/
theorem transmit_of_waiting (after : TxThen) (ts : List TxRequest) (s : State) (f : Option InFlight) :
    transmit after ts { s with busy := true, inflight := f } = transmit after ts s := by
  induction ts generalizing s with
  | nil => cases after <;> rfl
  | cons t ts ih =>
    match ha : s.answers with
    | [] => simp only [transmit, ha]
    | true :: as =>
      simp only [transmit, ha]
      exact ih { s with answers := as, history := s.history ++ [answered true t] }
    | false :: as =>
      simp only [transmit, ha, raiseError, latch]
      split <;> rfl

/-- One answer comes to the same, drawn ahead or given to the waiting command: the rest of the command. -/
theorem transmit_answer (after : TxThen) (ts : List TxRequest) (s : State) (ok : Bool) :
    ∃ after' ts' s',
      (∀ es, runTransport ok (transmit after ts (s.given [] es)) = transmit after' ts' (State.given s' [] es)) ∧
      ∀ as, (transmit after ts (s.given (ok :: as) [])).given [] [] =
        (transmit after' ts' (State.given s' as [])).given [] [] := by
  cases ts with
  | nil => exact ⟨after, [], s, fun _ => runTransport_none rfl ok, fun _ => by cases after <;> rfl⟩
  | cons t ts =>
    have hanswer : ∀ es, runTransport ok (transmit after (t :: ts) (s.given [] es)) =
        transmit after (t :: ts) (s.given [ok] es) := fun es =>
      (runTransport_some (f := ⟨t :: ts, after⟩) rfl ok).trans (transmit_of_waiting after (t :: ts) (s.given [ok] es) _)
    cases ok with
    | true => exact ⟨after, ts, { s with history := s.history ++ [answered true t] }, hanswer, fun _ => rfl⟩
    | false =>
      obtain ⟨after', ts', s', h⟩ := endsTransmitting_raiseError .transportError
        { s with history := s.history ++ [answered false t] }
      exact ⟨after', ts', s', fun es => (hanswer es).trans (h [] es),
        fun as => congrArg (fun u => State.given u [] []) (h as [])⟩

/-! ### All the answers -/

/-- A run takes its first step and goes on from there. -/
theorem run_succ {s t : State} (h : step s = .next t) (n : Nat) :
    Sys2Proof.core.run (n + 1) s = Sys2Proof.core.run n t := by
  have hstep : Sys2Proof.core.step s = .next t := h
  simp only [Host.Core.run, hstep]

/-- Where no answer is there, transactions neither read nor change the schedule. -/
theorem transmit_given_nil (after : TxThen) (ts : List TxRequest) (s : State) (es es' : List Event) :
    transmit after ts (s.given [] es') = (transmit after ts (s.given [] es)).given [] es' := by
  cases ts with
  | nil => cases after <;> rfl
  | cons t ts => rfl

/-- A step from a command that waits, or has ended, to the transport's next answer. -/
theorem step_transport {after : TxThen} {ts : List TxRequest} {s : State} (h : (transmit after ts (s.given [] [])).Inv)
    (ok : Bool) (es : List Event) :
    step (transmit after ts (s.given [] (.transport ok :: es))) =
      .next (runTransport ok (transmit after ts (s.given [] es))) := by
  rw [transmit_given_nil after ts s [] (.transport ok :: es), transmit_given_nil after ts s [] es]
  exact step_event (h.given [] es).toSound (.transport ok) es

/-- A command that gets its answers one by one, each an event, comes to what it comes to with all of them drawn ahead. -/
theorem run_transports {after : TxThen} {ts : List TxRequest} {s : State} (bs : List Bool)
    (h : (transmit after ts (s.given [] [])).Inv) :
    Sys2Proof.core.run bs.length (transmit after ts (s.given [] (bs.map .transport))) =
      .next ((transmit after ts (s.given bs [])).given [] []) := by
  induction bs generalizing after ts s with
  | nil => exact congrArg Host.Outcome.next (transmit_given_nil after ts s [] [])
  | cons ok bs ih =>
    obtain ⟨after', ts', s', hlater, hahead⟩ := transmit_answer after ts s ok
    have hrest := ih (hlater [] ▸ h.runTransport ok)
    rw [hahead, ← hrest, ← hlater]
    exact run_succ (step_transport h ok _) _

/-! ### The command and its answers -/

theorem startedBy_cmdWrite {s : State} {v : Word} {i : Instr} (hr : s.rstN = true) (hb : s.busy = false)
    (hv : decode v = .ok i) : startedBy (.write 0x000 v) s = some i :=
  startedBy_eq_some.mpr ⟨0x000, v, rfl, hr, hb, rfl, hv⟩

/-- A CMD write of a command word runs the command (40_driver.md R130). -/
theorem step_cmdWrite {s : State} {v : Word} {i : Instr} (h : Ready s) (hv : decode v = .ok i) (m : List Access)
    (es : List Event) : step { s with events := .host (.write 0x000 v) m :: es } =
      exec i (accesses m (startCommand { s with events := es })) := by
  obtain ⟨hinv, hr, hb⟩ := h
  rw [step_event hinv.toSound]
  exact runHost_command (startedBy_cmdWrite hr hb hv)

/-- Settles O20: the command comes to its transactions, and those take the answers one by one as they take them drawn
ahead. -/
theorem waitingChangesNothingInTheEnd : Obligations.WaitingChangesNothingInTheEnd := by
  intro s u u' v i bs hs hanswers hv hlater hahead
  obtain ⟨run, ⟨after, ts, w, htx⟩, hexec⟩ := exec_endsTransmitting i (startCommand s)
  have hstart : ∀ as es, step { s with answers := as, events := .host (.write 0x000 v) [] :: es } =
      .next (transmit after ts (State.given w as es)) := fun as es => by
    have hready : Ready { s with answers := as } := ⟨hs.1.given as s.events, hs.2⟩
    rw [← htx, ← hexec]
    exact step_cmdWrite hready hv [] es
  have hinv : (transmit after ts (State.given w [] [])).Inv :=
    (hs.1.given [] [.host (.write 0x000 v) []]).step (hstart [] [])
  have hu' : u' = transmit after ts (State.given w bs []) :=
    Host.Outcome.next.inj (hahead.symm.trans (run_succ (hstart bs []) 0))
  have hu : u = (transmit after ts (State.given w bs [])).given [] [] := by
    refine Host.Outcome.next.inj (hlater.symm.trans ((run_succ (hstart s.answers (bs.map .transport)) _).trans ?_))
    rw [hanswers]
    exact run_transports bs hinv
  have hevents : (transmit after ts (State.given w bs [])).events = [] :=
    congrArg State.events (transmit_endsIn (codes := fun _ => True) trivial after ts).frame
  rw [hu, hu']
  exact congrArg (State.given (transmit after ts (State.given w bs [])) []) hevents.symm

end Sys2Proof.Machine

/-! ## The host port -/

namespace Sys2Proof.Machine

open Sys2Proof.Claims

/-! ### Where an offset leads -/

/-- An offset leads where its word does (20_memory.md R76). -/
theorem hostReg_word (c : Config) (off : Nat) : hostReg c (off / 4 * 4) = hostReg c off := by
  rw [hostReg, hostReg, Nat.mul_div_cancel _ (by decide)]

/-- An offset leads to a row of `registerMap`, or none has its word and `windowReg` says where it leads. -/
theorem hostReg_cases (c : Config) (off : Nat) :
    (∃ p ∈ registerMap, p.1 = off / 4 * 4 ∧ hostReg c off = p.2) ∨
      hostReg c off = windowReg c (off / 4 * 4) ∧ ∀ p ∈ registerMap, p.1 ≠ off / 4 * 4 := by
  unfold hostReg
  cases hl : registerMap.lookup (off / 4 * 4) with
  | some r =>
    obtain ⟨l₁, l₂, e, -⟩ := List.lookup_eq_some_iff.mp hl
    exact .inl ⟨(off / 4 * 4, r), by simp [e], rfl, rfl⟩
  | none => exact .inr ⟨rfl, fun p hp he => by simpa [he] using List.lookup_eq_none_iff.mp hl p hp⟩

/-- Past the registers of `registerMap` the windows begin. -/
theorem hostReg_window (c : Config) {off : Nat} (h : 0x050 ≤ off) : hostReg c off = windowReg c (off / 4 * 4) := by
  rcases hostReg_cases c off with ⟨p, hp, hoff, -⟩ | ⟨h, -⟩
  · have hlow : ∀ p ∈ registerMap, p.1 < 0x050 := by decide
    have := hlow p hp
    omega
  · exact h

theorem hostReg_arg (c : Config) (n : Fin 8) : hostReg c (0x080 + 4 * n.val) = .arg n := by
  have hn := n.isLt
  rw [hostReg_window c (by omega), windowReg, if_pos (by omega)]
  exact congrArg _ (Fin.ext (by simp only [Fin.ofNat]; omega))

theorem hostReg_srcbufWindow {c : Config} {i : Nat} (h : i < c.srcbufSize) : hostReg c (0x1000 + 4 * i) = .srcbuf i := by
  have hi : ((0x1000 + 4 * i) / 4 * 4 - 0x1000) / 4 = i := by omega
  rw [hostReg_window c (by omega), windowReg, if_neg (by omega), if_neg (by omega), hi, if_pos h]

/-- The reserved offsets (20_memory.md R75). -/
theorem hostReg_reserved (c : Config) {off : Nat}
    (h : (0x01C ≤ off ∧ off < 0x020) ∨ (0x034 ≤ off ∧ off < 0x040) ∨ (0x050 ≤ off ∧ off < 0x080) ∨
      (0x0A0 ≤ off ∧ off < 0x1000)) : hostReg c off = .reserved := by
  rcases hostReg_cases c off with ⟨p, hp, hoff, -⟩ | ⟨hw, -⟩
  · have hlisted : ∀ p ∈ registerMap, p.1 < 0x01C ∨ (0x020 ≤ p.1 ∧ p.1 < 0x034) ∨ (0x040 ≤ p.1 ∧ p.1 < 0x050) := by
      decide
    have := hlisted p hp
    omega
  · rw [hw, windowReg, if_neg (by omega), if_pos (by omega)]

/-! ### Reads -/

/-- A step whose event is a host access that starts no command. -/
theorem step_access {s : State} (h : s.Sound) {a : Access} (hs : startedBy a s = none) (es : List Event) :
    step (asked s a es) = .next (access a { s with events := es }) := by
  rw [asked, step_event h]
  exact runHost_access hs

/-- What a read of a location returns out of reset and idle (20_memory.md R82). -/
theorem step_read {s : State} (r : HostReg) (h : Ready s) {off : Nat} {v : Word} (hr : hostReg s.cfg off = r)
    (hout : r ≠ .outside) (hv : storedValue s r = v) (es : List Event) :
    step (asked s (.read off) es) = .next (gotBack s es off v) := by
  obtain ⟨hinv, hrst, hbusy⟩ := h
  have hfree : readIsFree { s with events := es } (hostReg s.cfg off) = false := by
    simp [readIsFree, hrst, hbusy, hr, hout]
  rw [step_access hinv.toSound rfl, access, hostRead, if_neg (Bool.eq_false_iff.mp hfree)]
  subst hr hv
  rfl

/-- Fields at disjoint bits: the word is their sum. -/
theorem toNat_or_shiftLeft {x y : Word} {k : Nat} (hx : x.toNat < 2 ^ k) (hy : y.toNat * 2 ^ k < 2 ^ 32) :
    (x ||| y <<< k).toNat = x.toNat + 2 ^ k * y.toNat := by
  rw [BitVec.toNat_or, BitVec.toNat_shiftLeft, Nat.shiftLeft_eq, Nat.mod_eq_of_lt hy, ← Nat.shiftLeft_eq, Nat.or_comm,
    ← Nat.shiftLeft_add_eq_or_of_lt hx, Nat.shiftLeft_eq]
  ring

theorem toNat_bitWord (b : Bool) : (bitWord b).toNat = bit b := by
  cases b <;> rfl

theorem bit_le_one (b : Bool) : bit b ≤ 1 := by
  cases b <;> decide

theorem eq_ofNat_of_toNat {w n : Nat} {x : BitVec w} (h : x.toNat = n) : x = BitVec.ofNat w n := by
  rw [← h, BitVec.ofNat_toNat, BitVec.setWidth_eq]

/-- A 16-bit parameter as a host reads it (10_state.md R39). -/
theorem zeroExtend_half {n : Nat} (h : n < 65536) : (BitVec.ofNat 16 n).zeroExtend 32 = BitVec.ofNat 32 n :=
  eq_ofNat_of_toNat ((BitVec.toNat_setWidth_of_le (by decide)).trans (Nat.mod_eq_of_lt h))

/-- 10_state.md R34. -/
theorem statusWord_eq (s : State) : statusWord s = BitVec.ofNat 32 (statusNumber s) := by
  have hbusy := bit_le_one s.busy
  have herr := bit_le_one s.err
  have hlt := s.errCode.isLt
  have hcode : (s.errCode.zeroExtend 32).toNat = s.errCode.toNat := BitVec.toNat_setWidth_of_le (by decide)
  have hflags : (bitWord s.busy ||| bitWord s.err <<< 1).toNat = bit s.busy + 2 ^ 1 * bit s.err := by
    rw [toNat_or_shiftLeft] <;> simp only [toNat_bitWord] <;> omega
  have hstatus : (statusWord s).toNat = bit s.busy + 2 ^ 1 * bit s.err + 2 ^ 8 * s.errCode.toNat := by
    rw [statusWord, toNat_or_shiftLeft] <;> simp only [hflags, hcode] <;> omega
  exact eq_ofNat_of_toNat hstatus

/-- 10_state.md R37. -/
theorem ctrlWord_eq (c : Ctrl) :
    ctrlWord c = BitVec.ofNat 32 (bit c.autoRefresh + 2 * bit c.partialUpdate + 4 * bit c.textWrap) := by
  rcases c with ⟨_ | _, _ | _, _ | _⟩ <;> rfl

theorem legal_colOffset {c : Config} (h : c.legal = true) : c.colOffset ≤ 255 := by
  simp only [Config.legal, Bool.and_eq_true, Config.colOffsetOk, decide_eq_true_eq] at h
  omega

/-- 10_state.md R41. -/
theorem configWord_eq {c : Config} (h : c.legal = true) :
    configWord c = BitVec.ofNat 32 (c.colOffset + 256 * c.blockSize + 65536 * bit c.hasResetLine) := by
  have hcol := legal_colOffset h
  have hblock := (legal_block h).2
  have hline := bit_le_one c.hasResetLine
  have hbyte : ∀ n, n ≤ 255 → ((BitVec.ofNat 8 n).zeroExtend 32 : Word).toNat = n := fun n hn =>
    (BitVec.toNat_setWidth_of_le (by decide)).trans (Nat.mod_eq_of_lt (by omega))
  have hlow : ((BitVec.ofNat 8 c.colOffset).zeroExtend 32 ||| (BitVec.ofNat 8 c.blockSize).zeroExtend 32 <<< 8
      : Word).toNat = c.colOffset + 2 ^ 8 * c.blockSize := by
    rw [toNat_or_shiftLeft] <;> simp only [hbyte _ hcol, hbyte _ hblock] <;> omega
  refine eq_ofNat_of_toNat ?_
  rw [configWord, toNat_or_shiftLeft] <;> simp only [hlow, toNat_bitWord] <;> omega

/-- Settles O57: out of reset and idle no read of the block is free, so each returns what its location holds. -/
theorem hostReadsReturnTheRegisters : Obligations.HostReadsReturnTheRegisters := by
  intro s es h
  have hw := zeroExtend_half (lt_of_le_of_lt (legal_width h.1.cfgLegal).2 (by decide))
  have hh := zeroExtend_half (legal_height h.1.cfgLegal).2.2
  have hext : ∀ {w : Nat} (x : BitVec w), x.zeroExtend 32 = BitVec.ofNat 32 x.toNat :=
    fun x => (BitVec.ofNat_toNat 32 x).symm
  refine ⟨?_, fun n => step_read (.arg n) h (hostReg_arg s.cfg n) nofun rfl es,
    fun i hi => step_read (.srcbuf i) h (hostReg_srcbufWindow hi) nofun (hext _) es,
    fun off hoff => step_read .reserved h (hostReg_reserved s.cfg (by omega)) nofun rfl es⟩
  simp only [List.forall_mem_cons]
  exact ⟨step_read .cmd h rfl nofun rfl es, step_read .status h rfl nofun (statusWord_eq s) es,
    step_read .result h rfl nofun rfl es, step_read .ctrl h rfl nofun (ctrlWord_eq s.ctrl) es,
    step_read .width h rfl nofun hw es, step_read .height h rfl nofun hh es,
    step_read .config h rfl nofun (configWord_eq h.1.cfgLegal) es, step_read .cursorX h rfl nofun rfl es,
    step_read .cursorY h rfl nofun rfl es, step_read .textInk h rfl nofun (hext _) es,
    step_read .textBg h rfl nofun (hext _) es, step_read .textScale h rfl nofun (hext _) es,
    step_read .dirtyXMin h rfl nofun (hext _) es, step_read .dirtyYMin h rfl nofun (hext _) es,
    step_read .dirtyXMax h rfl nofun (hext _) es, step_read .dirtyYMax h rfl nofun (hext _) es,
    fun _ hp => absurd hp List.not_mem_nil⟩

/-! ### Writes -/

theorem startedBy_write_of_ne_cmd {s : State} {off : Nat} (h : hostReg s.cfg off ≠ .cmd) (v : Word) :
    startedBy (.write off v) s = none :=
  if_neg fun hstart => h hstart.2.2

/-- What a write of a location other than CMD does out of reset and idle. -/
theorem step_write {s t : State} {v : Word} (r : HostReg) (h : Ready s) {off : Nat} (hr : hostReg s.cfg off = r)
    (hcmd : r ≠ .cmd) (es : List Event) (ht : writeIdle v { s with events := es } r = t) :
    step (asked s (.write off v) es) = .next t := by
  obtain ⟨hinv, hrst, hbusy⟩ := h
  have hidle : ¬ s.busy = true := Bool.eq_false_iff.mp hbusy
  subst hr ht
  rw [step_access hinv.toSound (startedBy_write_of_ne_cmd hcmd v), access_write, if_pos hrst, if_neg hidle]

/-- TEXT_SCALE is never set to 0 (10_state.md R44). -/
theorem textScaleOf_eq (v : Word) :
    textScaleOf v = if v.toNat % 256 = 0 then 1 else BitVec.ofNat 8 v.toNat := by
  have hzero : v.extractLsb' 0 8 = 0 ↔ v.toNat % 256 = 0 := by
    rw [← BitVec.toNat_inj, BitVec.extractLsb'_toNat]
    rfl
  exact if_congr hzero rfl rfl

/-- The locations of the block that keep their value whatever the host writes (20_memory.md R75). -/
def readOnly : HostReg → Bool
  | .result | .width | .height | .config | .dirtyXMin | .dirtyYMin | .dirtyXMax | .dirtyYMax | .reserved => true
  | .cmd | .status | .ctrl | .cursorX | .cursorY | .textInk | .textBg | .textScale | .arg _ | .srcbuf _
  | .outside => false

theorem writeIdle_readOnly {r : HostReg} (h : readOnly r = true) (v : Word) (s : State) : writeIdle v s r = s := by
  cases r with
  | cmd | status | ctrl | cursorX | cursorY | textInk | textBg | textScale | arg n | srcbuf i | outside => cases h
  | _ => rfl

theorem hostReg_readOnly (c : Config) {off : Nat} (h : off = 0x008 ∨ (0x010 ≤ off ∧ off < 0x020) ∨
    (0x034 ≤ off ∧ off < 0x080) ∨ (0x0A0 ≤ off ∧ off < 0x1000)) : readOnly (hostReg c off) = true := by
  rcases hostReg_cases c off with ⟨p, hp, hoff, he⟩ | ⟨he, -⟩
  · have hlisted : ∀ p ∈ registerMap, p.1 = 0x008 ∨ (0x010 ≤ p.1 ∧ p.1 < 0x020) ∨ 0x034 ≤ p.1 →
        readOnly p.2 = true := by
      decide
    rw [he]
    exact hlisted p hp (by omega)
  · rw [he, windowReg, if_neg (by omega), if_pos (by omega)]
    rfl

/-- Settles O58, location by location. -/
theorem hostWritesStoreTheirFields : Obligations.HostWritesStoreTheirFields := by
  intro s v es h
  refine ⟨step_write .ctrl h rfl nofun es rfl, step_write .cursorX h rfl nofun es rfl,
    step_write .cursorY h rfl nofun es rfl, step_write .textInk h rfl nofun es rfl,
    step_write .textBg h rfl nofun es rfl, step_write .textScale h rfl nofun es ?_,
    fun n => step_write (.arg n) h (hostReg_arg s.cfg n) nofun es rfl, fun i hi => ?_, fun off hoff => ?_⟩
  · rw [← textScaleOf_eq]
    rfl
  · refine ⟨_, step_write (.srcbuf i) h (hostReg_srcbufWindow hi) nofun es rfl, rfl, fun j => ?_⟩
    exact (Memory.read_write h.1.srcForm i _ j).trans (if_congr eq_comm rfl rfl)
  · have hro := hostReg_readOnly s.cfg hoff
    exact step_write _ h rfl (fun hcmd => nomatch hcmd ▸ hro) es (writeIdle_readOnly hro v _)

/-! ### Address bits 1:0 -/

/-- A write does the same at every offset of one location, whether it starts a command or not. -/
theorem runHost_write_congr {s : State} {off off' : Nat} (h : hostReg s.cfg off = hostReg s.cfg off') (v : Word)
    (m : List Access) : runHost (.write off v) m s = runHost (.write off' v) m s := by
  simp only [runHost, startedBy, access, hostWrite, h]

/-- A read changes the host's log and the free-value counter, and but for the offset in the log it does the same at every
offset of one location. -/
theorem hostRead_eq (r : HostReg) (s : State) :
    ∃ w n, ∀ off, hostReg s.cfg off = r →
      hostRead off s = { s with readLog := s.readLog ++ [⟨off, w⟩], freeCount := n } := by
  cases hfree : readIsFree s r
  · refine ⟨storedValue s r, s.freeCount, fun off hr => ?_⟩
    subst hr
    exact if_neg (Bool.eq_false_iff.mp hfree)
  · refine ⟨Config.freeWord s.freeCount, s.freeCount + 1, fun off hr => ?_⟩
    subst hr
    exact if_pos hfree

/-- Settles O59: an offset and its word lead to one location. -/
theorem addressBitsOneAndZeroAreIgnored : Obligations.AddressBitsOneAndZeroAreIgnored := by
  intro s off v es h
  have hword := hostReg_word s.cfg off
  constructor
  · rw [asked, asked, step_event h.toSound, step_event h.toSound]
    exact runHost_write_congr (s := { s with events := es }) hword.symm v []
  · obtain ⟨w, n, hread⟩ := hostRead_eq (hostReg s.cfg off) { s with events := es }
    refine ⟨_, w, step_access h.toSound rfl es, ?_, ?_⟩
    · rw [access, hread _ hword]
    · rw [step_access h.toSound rfl es, access, access, hread _ hword, hread _ rfl]

end Sys2Proof.Machine

/-! ## A snapshot loaded and read back -/

namespace Sys2Proof.Machine

open Sys2Proof.Claims

theorem legal_fbBytes_le {c : Config} (h : c.legal = true) : c.fbBytes ≤ 65536 := by
  simp only [Config.legal, Bool.and_eq_true, Config.fbBytesOk, decide_eq_true_eq] at h
  omega

/-! ### The operands -/

/-- The argument registers are no part of what makes a state sound. -/
theorem State.Sound.withArgs {s : State} (h : s.Sound) (args : Vector Word 8) : ({ s with args := args }).Sound :=
  { h with }

/-- An index below 65536 is read as it was written (30_encoding.md R106). -/
theorem u16_ofNat {i : Nat} (h : i < 65536) : u16 (BitVec.ofNat 32 i) = i := by
  rw [u16, BitVec.extractLsb'_toNat, BitVec.toNat_ofNat]
  omega

theorem u8_zeroExtend (v : Byte) : u8 (v.zeroExtend 32) = v := by
  apply BitVec.eq_of_toNat_eq
  rw [u8, BitVec.extractLsb'_toNat, BitVec.toNat_setWidth]
  omega

theorem exec_fbWrite (s : State) {i : Nat} (hi : i < 65536) (v : Byte) :
    exec .fbWrite (withFbWriteArgs s i v) = .next (endCommand (storeFbByte i v (withFbWriteArgs s i v))) := by
  have hindex : argU16 (withFbWriteArgs s i v) 0 = i := by
    simpa [argU16, withFbWriteArgs] using u16_ofNat hi
  have hbyte : argU8 (withFbWriteArgs s i v) 1 = v := by
    simpa [argU8, withFbWriteArgs] using u8_zeroExtend v
  rw [exec, execFbWrite, hindex, hbyte]

/-! ### Loading -/

theorem storeFbByte_fb {s : State} {i : Nat} (hi : i < s.cfg.fbBytes) (v : Byte) :
    (storeFbByte i v s).fb = s.fb.write i v := by
  rw [storeFbByte, if_pos hi]

theorem storeFbByte_cfg (s : State) (i : Nat) (v : Byte) : (storeFbByte i v s).cfg = s.cfg := by
  unfold storeFbByte
  split <;> rfl

/-- The region after a byte is stored contains the 8 pixels of the byte, and what it contained (40_driver.md R145). -/
theorem storeFbByte_contains {s : State} (hc : s.cfg.legal = true) {i : Nat} (hi : i < s.cfg.fbBytes) (v : Byte) {x y : Nat}
    (hx : x < s.cfg.width) (h : s.dirty.contains x y ∨ pixIndex s.cfg x y = i) :
    (storeFbByte i v s).dirty.contains x y := by
  obtain ⟨-, hw⟩ := legal_width hc
  obtain ⟨-, -, hh⟩ := legal_height hc
  obtain ⟨hcol, hband⟩ := index_in_canvas hc hi
  rw [storeFbByte, if_pos hi]
  refine contains_widen (by omega) (by omega) (h.imp_right fun hidx => ?_)
  obtain ⟨hx', hy'⟩ := pixIndex_inj hx hcol (hidx.trans (pixIndex_of_index s.cfg i).symm)
  omega

/-- What FB_WRITEs of the first `n` bytes of a snapshot make of a block of parameters `c`. -/
structure Loaded (c : Config) (v : Nat → Byte) (n : Nat) (u : State) : Prop where
  sound : u.Sound
  cfg : u.cfg = c
  bytes : ∀ i, i < n → u.fb.read i = v i
  dirty : ∀ x y : Nat, x < c.width → pixIndex c x y < n → u.dirty.contains x y

theorem Loaded.withArgs {c : Config} {v : Nat → Byte} {n : Nat} {u : State} (h : Loaded c v n u) (args : Vector Word 8) :
    Loaded c v n { u with args := args } :=
  { h with sound := h.sound.withArgs args }

theorem Loaded.endCommand {c : Config} {v : Nat → Byte} {n : Nat} {u : State} (h : Loaded c v n u) :
    Loaded c v n (Machine.endCommand u) :=
  { h with sound := h.sound.endCommand.toSound }

/-- One more byte is stored. -/
theorem Loaded.storeFbByte {c : Config} {v : Nat → Byte} {n : Nat} {u : State} (h : Loaded c v n u) (hn : n < c.fbBytes) :
    Loaded c v (n + 1) (Machine.storeFbByte n (v n) u) := by
  obtain ⟨hsound, rfl, hbytes, hdirty⟩ := h
  refine ⟨hsound.storeFbByte n (v n), storeFbByte_cfg u n (v n), fun i hi => ?_, fun x y hx hidx => ?_⟩
  · rw [storeFbByte_fb hn, Memory.read_write hsound.fbForm]
    split
    · next heq => rw [heq]
    · exact hbytes i (by omega)
  · refine storeFbByte_contains hsound.cfgLegal hn (v n) hx ?_
    exact (Nat.lt_succ_iff_lt_or_eq.mp hidx).imp_left (hdirty x y hx)

theorem loaded_of_loads {v : Nat → Byte} {n : Nat} {s u : State} (h : s.Sound) (hn : n ≤ s.cfg.fbBytes)
    (hl : Loads v n s u) : Loaded s.cfg v n u := by
  induction n generalizing u with
  | zero =>
    cases hl
    exact ⟨h, rfl, fun _ hi => absurd hi (Nat.not_lt_zero _), fun _ _ _ hi => absurd hi (Nat.not_lt_zero _)⟩
  | succ n ih =>
    obtain ⟨m, hm, e⟩ := hl
    have hsize := legal_fbBytes_le h.cfgLegal
    rw [exec_fbWrite m (by omega)] at e
    obtain rfl := Host.Outcome.next.inj e
    exact (((ih (by omega) hm).withArgs _).storeFbByte hn).endCommand

/-! ### Reading back -/

/-- A region of the canvas that contains its first and its last pixel is the whole canvas. -/
theorem isCanvas_of_contains {s : State} (h : s.Sound)
    (hall : ∀ x y : Nat, x < s.cfg.width → y < s.cfg.height → s.dirty.contains x y) : isCanvas s.cfg s.dirty := by
  obtain ⟨hw, -⟩ := legal_width h.cfgLegal
  obtain ⟨-, hh, -⟩ := legal_height h.cfgLegal
  obtain ⟨hx0, -, hy0, -⟩ := hall 0 0 (by omega) (by omega)
  obtain ⟨-, hx1, -, hy1⟩ := hall (s.cfg.width - 1) (s.cfg.height - 1) (by omega) (by omega)
  rcases h.region with he | ⟨-, hxmax, -, hymax⟩
  · obtain ⟨hxMin, -, -, -⟩ := sentinel_toNat h.cfgLegal
    rw [he, hxMin] at hx0
    omega
  · unfold isCanvas
    omega

/-- A pixel is ink exactly if it lies in the canvas and its bit is set (40_driver.md R132). -/
theorem pbGet_eq_true_iff {c : Config} {fb : Memory} {x y : Int} :
    pbGet c fb x y = true ↔
      inCanvas c x y ∧ (fb.read (pixIndex c x.toNat y.toNat)).getLsbD (pixBit y.toNat) = true := by
  unfold pbGet
  split
  · next hxy => exact (and_iff_right hxy).symm
  · next hxy => exact iff_of_false Bool.false_ne_true fun h => hxy h.1

/-- Settles O56, by induction on the bytes loaded. -/
theorem snapshotRoundTrip : Obligations.SnapshotRoundTrip := by
  intro s u v h hl
  obtain ⟨hsound, hcfg, hbytes, hdirty⟩ := loaded_of_loads h le_rfl hl
  have hsize := legal_fbBytes_le h.cfgLegal
  rw [← hcfg] at hdirty hbytes hsize ⊢
  refine ⟨rfl, isCanvas_of_contains hsound fun x y hx hy => hdirty x y hx (pixIndex_lt hsound.cfgLegal hx hy),
    fun i hi => ⟨_, rfl, ?_⟩, fun args => ⟨_, rfl, ?_⟩⟩
  · have hindex : argU16 (withArg0 u (BitVec.ofNat 32 i)) 0 = i := by
      simpa [argU16, withArg0] using u16_ofNat (by omega : i < 65536)
    have hbyte : fbByte u i = v i := (if_pos hi).trans (hbytes i hi)
    rw [endCommand_result, hindex]
    exact congrArg (BitVec.zeroExtend 32) hbyte
  · have hpixel := pbGet_eq_true_iff (c := u.cfg) (fb := u.fb) (x := s16 args[0]) (y := s16 args[1])
    refine if_congr (hpixel.trans (and_congr_right fun hxy => ?_)) rfl rfl
    rw [hbytes _ (pixIndex_lt hsound.cfgLegal (by omega) (by omega))]
    rfl

end Sys2Proof.Machine

/-! ## Command words and their operands -/

namespace Sys2Proof

/-! ### Decoding -/

theorem decodeOpcode_opcode (i : Instr) : decodeOpcode i.opcode = some i := by
  cases i <;> rfl

/-- Each row of the opcode map names its command's own opcode (30_encoding.md R101). -/
theorem opcode_of_mem_opcodeTable : ∀ p ∈ opcodeTable, p.1 = p.2.opcode := by
  decide

theorem decodeOpcode_eq_some_iff {op : Byte} {i : Instr} : decodeOpcode op = some i ↔ op = i.opcode := by
  constructor
  · intro h
    obtain ⟨before, after, hrow, -⟩ := List.lookup_eq_some_iff.mp h
    exact opcode_of_mem_opcodeTable (op, i) (by simp [hrow])
  · rintro rfl
    exact decodeOpcode_opcode i

/-- The opcodes the map leaves out (30_encoding.md R102). -/
theorem decodeOpcode_eq_none_iff {op : Byte} : decodeOpcode op = none ↔
    op.toNat = 0 ∨ (0x08 ≤ op.toNat ∧ op.toNat ≤ 0x0F) ∨ (0x1D ≤ op.toNat ∧ op.toNat ≤ 0x1F) ∨ 0x22 ≤ op.toNat := by
  have hrows : decodeOpcode op = none ↔ ∀ n ∈ opcodeTable.map (·.1.toNat), op.toNat ≠ n := by
    simp only [decodeOpcode, List.lookup_eq_none_iff, List.forall_mem_map, bne_iff_ne, ne_eq, BitVec.toNat_inj]
  have hmap : opcodeTable.map (·.1.toNat) =
      [0x01, 0x02, 0x03, 0x04, 0x05, 0x06, 0x07, 0x10, 0x11, 0x12, 0x13, 0x14, 0x15, 0x16, 0x17, 0x18, 0x19, 0x1A, 0x1B,
       0x1C, 0x20, 0x21] := rfl
  simp only [hrows, hmap, List.forall_mem_cons, List.not_mem_nil, false_imp_iff, implies_true, and_true]
  omega

theorem toNat_opcodeOf (v : Word) : (opcodeOf v).toNat = v.toNat % 256 := BitVec.extractLsb'_toNat ..

theorem toNat_reservedOf (v : Word) : (reservedOf v).toNat = v.toNat / 256 := by
  have hlt := v.isLt
  rw [reservedOf, BitVec.extractLsb'_toNat, Nat.shiftRight_eq_div_pow]
  omega

theorem toNat_encode (i : Instr) : (encode i).toNat = i.opcode.toNat := BitVec.toNat_setWidth_of_le (by decide)

theorem reservedOf_eq_zero_iff {v : Word} : reservedOf v = 0 ↔ v.toNat < 256 := by
  rw [← BitVec.toNat_inj, toNat_reservedOf]
  exact Nat.div_eq_zero_iff_lt (by decide)

theorem eq_encode_iff {v : Word} {i : Instr} : v = encode i ↔ v.toNat < 256 ∧ opcodeOf v = i.opcode := by
  have hlt := i.opcode.isLt
  rw [← BitVec.toNat_inj, ← BitVec.toNat_inj, toNat_encode, toNat_opcodeOf]
  omega

/-- A reserved bit refuses the word, whatever its opcode (30_encoding.md R103). -/
theorem decode_of_le {v : Word} (h : 256 ≤ v.toNat) : decode v = .error .reservedBits :=
  if_pos (reservedOf_eq_zero_iff.not.mpr (Nat.not_lt.mpr h))

/-- A word whose reserved bits are clear means what its opcode means (30_encoding.md R102). -/
theorem decode_of_lt {v : Word} (h : v.toNat < 256) :
    decode v = (decodeOpcode (opcodeOf v)).elim (.error .illegalOpcode) .ok := by
  rw [decode, if_neg (not_not.mpr (reservedOf_eq_zero_iff.mpr h))]
  cases decodeOpcode (opcodeOf v) <;> rfl

theorem decode_eq_ok_iff {v : Word} {i : Instr} : decode v = .ok i ↔ v = encode i := by
  rw [eq_encode_iff]
  rcases Nat.lt_or_ge v.toNat 256 with h | h
  · rw [decode_of_lt h, and_iff_right h, ← decodeOpcode_eq_some_iff]
    cases decodeOpcode (opcodeOf v) <;> simp
  · rw [decode_of_le h]
    exact iff_of_false nofun fun hv => absurd hv.1 (Nat.not_lt.mpr h)

theorem decode_eq_reservedBits_iff {v : Word} : decode v = .error .reservedBits ↔ 256 ≤ v.toNat := by
  refine ⟨fun hv => not_lt.mp fun h => ?_, decode_of_le⟩
  rw [decode_of_lt h] at hv
  cases ho : decodeOpcode (opcodeOf v) <;> simp [ho] at hv

theorem decode_eq_illegalOpcode_iff {v : Word} :
    decode v = .error .illegalOpcode ↔ v.toNat < 256 ∧ decodeOpcode (opcodeOf v) = none := by
  rcases Nat.lt_or_ge v.toNat 256 with h | h
  · rw [decode_of_lt h, and_iff_right h]
    cases decodeOpcode (opcodeOf v) <;> simp
  · rw [decode_of_le h]
    exact iff_of_false nofun fun hv => absurd hv.1 (Nat.not_lt.mpr h)

/-- Settles O2: past 0xFF the reserved bits decide, below it the opcode map. -/
theorem decodeIsTheInverseOfEncode : Obligations.DecodeIsTheInverseOfEncode := by
  refine ⟨fun _ _ => decode_eq_ok_iff, fun _ => decode_eq_reservedBits_iff, fun v => ?_⟩
  rw [decode_eq_illegalOpcode_iff, decodeOpcode_eq_none_iff, toNat_opcodeOf]
  omega

/-- Settles O1: each word is its command's encoding. -/
theorem opcodeMapWordsDecode : Obligations.OpcodeMapWordsDecode :=
  ⟨decode_eq_ok_iff.mpr rfl, decode_eq_ok_iff.mpr rfl, decode_eq_ok_iff.mpr rfl, decode_eq_ok_iff.mpr rfl,
    decode_eq_ok_iff.mpr rfl, decode_eq_ok_iff.mpr rfl, decode_eq_ok_iff.mpr rfl, decode_eq_ok_iff.mpr rfl⟩

end Sys2Proof

namespace Sys2Proof.Machine

open Sys2Proof.Claims

/-! ### Operands as numbers -/

/-- 30_encoding.md R104. -/
theorem s16_eq (w : Word) : s16 w = if w.toNat % 65536 < 32768 then ((w.toNat % 65536 : Nat) : Int)
    else ((w.toNat % 65536 : Nat) : Int) - 65536 := by
  have hlow : (w.extractLsb' 0 16).toNat = w.toNat % 65536 := BitVec.extractLsb'_toNat ..
  rw [s16, BitVec.toInt_eq_toNat_cond, hlow]
  exact if_congr (by omega) rfl rfl

/-- 30_encoding.md R105. -/
theorem toNat_colourOf (w : Word) : (colourOf w).toNat = w.toNat % 16777216 := BitVec.extractLsb'_toNat ..

/-- 30_encoding.md R106, as are the two after it. -/
theorem u16_eq (w : Word) : u16 w = w.toNat % 65536 := BitVec.extractLsb'_toNat ..

theorem toNat_u8 (w : Word) : (u8 w).toNat = w.toNat % 256 := BitVec.extractLsb'_toNat ..

theorem selector_eq (w : Word) : selector w = decide (w.toNat % 2 = 1) := Nat.testBit_zero ..

/-! ### What a command reads of its registers -/

section

variable {i : Instr} {s : State} {args : Vector Word 8} {n : Fin 8}

theorem mod_eq_of_sameOperand {v w : Word} {kind : ArgKind} (hkind : (argKinds i).getD n.val .unread = kind)
    (h : sameOperand i n v w) : v.toNat % 2 ^ kind.width = w.toNat % 2 ^ kind.width :=
  hkind ▸ h

variable (h : ∀ n : Fin 8, sameOperand i n args[n] s.args[n])
include h

theorem argS16_eq_of_sameOperand (hkind : (argKinds i).getD n.val .unread = .s16) :
    argS16 { s with args := args } n = argS16 s n := by
  have hbits : args[n].toNat % 65536 = s.args[n].toNat % 65536 := mod_eq_of_sameOperand hkind (h n)
  rw [argS16, argS16, s16_eq, s16_eq, hbits]

theorem argColour_eq_of_sameOperand (hkind : (argKinds i).getD n.val .unread = .col) :
    argColour { s with args := args } n = argColour s n := by
  have hbits : args[n].toNat % 16777216 = s.args[n].toNat % 16777216 := mod_eq_of_sameOperand hkind (h n)
  exact BitVec.eq_of_toNat_eq (by rw [argColour, argColour, toNat_colourOf, toNat_colourOf, hbits])

theorem argU16_eq_of_sameOperand (hkind : (argKinds i).getD n.val .unread = .u16) :
    argU16 { s with args := args } n = argU16 s n := by
  have hbits : args[n].toNat % 65536 = s.args[n].toNat % 65536 := mod_eq_of_sameOperand hkind (h n)
  rw [argU16, argU16, u16_eq, u16_eq, hbits]

theorem argU8_eq_of_sameOperand (hkind : (argKinds i).getD n.val .unread = .u8) :
    argU8 { s with args := args } n = argU8 s n := by
  have hbits : args[n].toNat % 256 = s.args[n].toNat % 256 := mod_eq_of_sameOperand hkind (h n)
  exact BitVec.eq_of_toNat_eq (by rw [argU8, argU8, toNat_u8, toNat_u8, hbits])

theorem argBit_eq_of_sameOperand (hkind : (argKinds i).getD n.val .unread = .bit) :
    argBit { s with args := args } n = argBit s n := by
  have hbits : args[n].toNat % 2 = s.args[n].toNat % 2 := mod_eq_of_sameOperand hkind (h n)
  rw [argBit, argBit, selector_eq, selector_eq, hbits]

end

/-! ### What a command does with other register values, once its operands are read -/

section

variable (s : State) (args : Vector Word 8)

theorem pulsePin_withArgs : pulsePin { s with args := args } = { pulsePin s with args := args } := by
  unfold pulsePin
  dsimp only
  split <;> rfl

theorem storeFbByte_withArgs (j : Nat) (v : Byte) :
    storeFbByte j v { s with args := args } = { storeFbByte j v s with args := args } := by
  unfold storeFbByte
  dsimp only
  split <;> rfl

theorem txRaw_withArgs (sel : Bool) (off len : Nat) :
    txRaw sel off len { s with args := args } = { txRaw sel off len s with args := args } := by
  unfold txRaw
  dsimp only
  split
  · exact congrArg endCommand (latch_withArgs .argError s args)
  · split
    · rfl
    · exact transmit_withArgs .nothing [rawTransaction s sel off len] s args

theorem bitmapPoints_withArgs (x y w h : Int) (off : Nat) :
    bitmapPoints { s with args := args } x y w h off = bitmapPoints s x y w h off := rfl

end

/-- A command comes to the same whatever else its registers hold (30_encoding.md R107). -/
theorem exec_withArgs_of_sameOperand {i : Instr} {s t : State} {args : Vector Word 8}
    (h : ∀ n : Fin 8, sameOperand i n args[n] s.args[n]) (e : exec i s = .next t) :
    exec i { s with args := args } = .next { t with args := args } := by
  cases i <;> obtain rfl := Host.Outcome.next.inj e.symm
  case panelReset => rw [exec, execPanelReset, pulsePin_withArgs]; rfl
  case clear => rfl
  case refresh => rw [exec, execRefresh, refresh_withArgs]
  case getPixel => simp (disch := decide) only [exec, execGetPixel, argS16_eq_of_sameOperand h]; rfl
  case fbRead => simp (disch := decide) only [exec, execFbRead, argU16_eq_of_sameOperand h]; rfl
  case fbWrite =>
    simp (disch := decide) only [exec, execFbWrite, argU16_eq_of_sameOperand h, argU8_eq_of_sameOperand h,
      storeFbByte_withArgs]
    rfl
  case txRaw =>
    simp (disch := decide) only [exec, execTxRaw, argBit_eq_of_sameOperand h, argU16_eq_of_sameOperand h,
      txRaw_withArgs]
  case writeChar =>
    simp (disch := decide) only [exec, execWriteChar, argU8_eq_of_sameOperand h, writeChar_withArgs,
      commandEnd_withArgs]
  case writeString =>
    simp (disch := decide) only [exec, execWriteString, argU16_eq_of_sameOperand h, writeChars_withArgs,
      commandEnd_withArgs]
  all_goals
    simp (disch := decide) only [exec, execPixel, execLine, execVline, execHline, execRect, execFillRect, execRoundRect,
      execFillRoundRect, execCircle, execFillCircle, execTriangle, execFillTriangle, execBitmap,
      argS16_eq_of_sameOperand h, argColour_eq_of_sameOperand h, argU16_eq_of_sameOperand h, bitmapPoints_withArgs,
      draw_withArgs]

/-- Settles O54: an operand is a remainder of its register, and a command uses its registers through operands only. -/
theorem unusedArgumentBitsPlayNoPart : Obligations.UnusedArgumentBitsPlayNoPart :=
  ⟨fun s n => ⟨s16_eq s.args[n], u16_eq s.args[n], toNat_u8 s.args[n], toNat_colourOf s.args[n],
    (Bool.eq_iff_iff.mp (selector_eq s.args[n])).trans decide_eq_true_iff⟩,
   fun _ _ _ _ e h => exec_withArgs_of_sameOperand h e⟩

end Sys2Proof.Machine

/-! ## Running a command; colours, pixels and regions -/

namespace Sys2Proof.Machine

open Sys2Proof.Claims

/-- Settles O3. -/
theorem stepRunsTheDecodedCommand : Obligations.StepRunsTheDecodedCommand :=
  fun _ _ _ m es h hv => step_cmdWrite h hv m es

/-! ### Colours -/

/-- The three channels of a colour operand (30_encoding.md R105). -/
theorem toNat_channels (v : Word) :
    ((colourOf v).extractLsb' 16 8).toNat = v.toNat / 65536 % 256 ∧
      ((colourOf v).extractLsb' 8 8).toNat = v.toNat / 256 % 256 ∧
      ((colourOf v).extractLsb' 0 8).toNat = v.toNat % 256 := by
  simp only [BitVec.extractLsb'_toNat, toNat_colourOf, Nat.shiftRight_eq_div_pow]
  omega

/-- Settles O27: twice a sum is below 765 exactly if the sum is at most 382. -/
theorem inkIsASumOfAtMost382 : Obligations.InkIsASumOfAtMost382 := by
  intro v
  obtain ⟨hred, hgreen, hblue⟩ := toNat_channels v
  rw [inkOf, hred, hgreen, hblue, decide_eq_true_iff]
  omega

/-! ### Pixels -/

/-- Settles O28: off the canvas nothing is written and every pixel reads as background; on it `pbGet_pbSet` says it. -/
theorem pixelSetAndGetRoundTrip : Obligations.PixelSetAndGetRoundTrip := by
  intro c fb x y k h
  refine ⟨fun hxy => ?_, fun x' y' hne => ?_, fun hxy => ⟨pbSet_outside hxy k, pbGet_outside hxy⟩⟩
  · rw [pbGet_pbSet h hxy hxy, if_pos ⟨rfl, rfl⟩]
  · by_cases hxy' : inCanvas c x' y'
    · by_cases hxy : inCanvas c x y
      · rw [pbGet_pbSet h hxy hxy', if_neg hne]
      · rw [pbSet_outside hxy]
    · rw [pbGet_outside hxy', pbGet_outside hxy']

/-- Settles O23. -/
theorem getPixelReturnsTheStoredBit : Obligations.GetPixelReturnsTheStoredBit := by
  refine ⟨decode_eq_ok_iff.mpr rfl, fun s => ?_⟩
  have hresult := if_congr (pbGet_eq_true_iff (c := s.cfg) (fb := s.fb) (x := argS16 s 0) (y := argS16 s 1))
    (rfl : (0x000000 : Word) = 0x00000000) (rfl : (0xFFFFFF : Word) = 0x00FFFFFF)
  exact congrArg (fun v => Host.Outcome.next (endCommand { s with result := v })) hresult

/-! ### Widen -/

/-- Settles O29: no corner of a canvas rectangle is lost in 16 bits, and the sentinel's corners are past the canvas. -/
theorem widenCoversTheRectangle : Obligations.WidenCoversTheRectangle := by
  intro c r x0 y0 x1 y1 hc hx hy hx1 hy1
  obtain ⟨-, hw⟩ := legal_width hc
  obtain ⟨-, -, hh⟩ := legal_height hc
  have hxMax := widen_xMax r (x0 := x0) (y0 := y0) (y1 := y1) (by omega : x1 < 65536)
  have hyMax := widen_yMax r (x0 := x0) (y0 := y0) (x1 := x1) (by omega : y1 < 65536)
  refine ⟨widen_xMin .., widen_yMin .., hxMax, hyMax, fun ⟨h1, h2, h3, h4⟩ => ?_⟩
  rw [widen_xMin, widen_yMin, hxMax, hyMax]
  omega

/-- A region widened by a rectangle of the canvas grew by the pixels of the rectangle (40_driver.md R134). -/
theorem grew_widen {c : Config} (hc : c.legal = true) (r : Region) {x0 y0 x1 y1 : Nat} (hx : x0 ≤ x1) (hy : y0 ≤ y1)
    (hx1 : x1 < c.width) (hy1 : y1 < c.height) {shape : Int → Int → Prop}
    (h : ∀ x y, shape x y ↔ (x0 : Int) ≤ x ∧ x ≤ x1 ∧ (y0 : Int) ≤ y ∧ y ≤ y1) :
    Grew c r (r.widen x0 y0 x1 y1) shape := by
  obtain ⟨-, hw⟩ := legal_width hc
  obtain ⟨-, -, hh⟩ := legal_height hc
  have hfirst : inCanvas c x0 y0 ∧ shape x0 y0 := by rw [h]; omega
  have hlast : inCanvas c x1 y1 ∧ shape x1 y1 := by rw [h]; omega
  have hbound : ∀ {P : Prop} {Q : Int → Int → Prop},
      (P → ∀ x y, (x0 : Int) ≤ x ∧ x ≤ x1 ∧ (y0 : Int) ≤ y ∧ y ≤ y1 → Q x y) → (Q x0 y0 → Q x1 y1 → P) →
      (P ↔ ∀ x y, inCanvas c x y → shape x y → Q x y) := fun hQ hP =>
    ⟨fun p x y _ hs => hQ p x y ((h x y).mp hs), fun q => hP (q _ _ hfirst.1 hfirst.2) (q _ _ hlast.1 hlast.2)⟩
  constructor <;> intro n
  · rw [widen_xMin, Nat.le_min]
    exact and_congr_right' (hbound (by omega) (by omega))
  · rw [widen_yMin, Nat.le_min]
    exact and_congr_right' (hbound (by omega) (by omega))
  · rw [widen_xMax r (by omega), Nat.max_le]
    exact and_congr_right' (hbound (by omega) (by omega))
  · rw [widen_yMax r (by omega), Nat.max_le]
    exact and_congr_right' (hbound (by omega) (by omega))

end Sys2Proof.Machine

/-! ## Driver commands without a transaction -/

namespace Sys2Proof.Machine

open Sys2Proof.Claims

/-- The pulse as the pin record shows it, and the level it leaves (40_driver.md R141). -/
theorem pulsePin_eq {s : State} (hpin : s.panelRstN = true) :
    pulsePin s = { s with
      pinHistory := s.pinHistory ++ (if s.cfg.hasResetLine = true then [.low, .hold s.cfg.resetPulse, .high] else [])
      panelRstN := true } := by
  unfold pulsePin
  split
  · simp [drivePin, holdPin]
  · rw [List.append_nil, ← hpin]

/-- Settles O13. -/
theorem panelResetPulsesThePin : Obligations.PanelResetPulsesThePin :=
  ⟨decode_eq_ok_iff.mpr rfl, fun _ hpin => congrArg (fun u => Host.Outcome.next (endCommand u)) (pulsePin_eq hpin)⟩

theorem zeroExtend_fbByte (s : State) (i : Nat) : (fbByte s i).zeroExtend 32 =
    if i < s.cfg.width * s.cfg.height / 8 then BitVec.ofNat 32 (s.fb.read i).toNat else 0 := by
  rw [fbByte, apply_ite (BitVec.zeroExtend 32)]
  exact if_congr Iff.rfl (BitVec.ofNat_toNat 32 _).symm rfl

/-- Settles O24. -/
theorem fbReadReturnsTheByte : Obligations.FbReadReturnsTheByte :=
  ⟨decode_eq_ok_iff.mpr rfl, fun s =>
    congrArg (fun v => Host.Outcome.next (endCommand { s with result := v })) (zeroExtend_fbByte s _)⟩

/-- The region CLEAR leaves is the whole canvas, whatever it was (40_driver.md R142). -/
theorem isCanvas_clearFb {s : State} (h : s.Sound) : isCanvas s.cfg (clearFb s).dirty := by
  obtain ⟨-, hw⟩ := legal_width h.cfgLegal
  obtain ⟨-, -, hh⟩ := legal_height h.cfgLegal
  exact isCanvas_of_contains h.clearFb fun x y (hx : x < s.cfg.width) (hy : y < s.cfg.height) =>
    contains_widen (by omega) (by omega) (.inr (by omega))

/-- Settles O14: CLEAR leaves no byte listed, and an unlisted byte reads 0. -/
theorem clearZeroesAndDirtiesTheCanvas : Obligations.ClearZeroesAndDirtiesTheCanvas :=
  ⟨decode_eq_ok_iff.mpr rfl, fun _ h => ⟨_, rfl, rfl, fun _ => rfl, isCanvas_clearFb h⟩⟩

/-- The region grows by the 8 pixels of the byte stored (40_driver.md R145). -/
theorem grew_storeFbByte {s : State} (hc : s.cfg.legal = true) {i : Nat} (hi : i < s.cfg.fbBytes) (v : Byte) :
    Grew s.cfg s.dirty (storeFbByte i v s).dirty
      (fun x y => x = ((i % s.cfg.width : Nat) : Int) ∧ y / 8 = ((i / s.cfg.width : Nat) : Int)) := by
  obtain ⟨hx, hy⟩ := index_in_canvas hc hi
  rw [storeFbByte, if_pos hi]
  exact grew_widen hc s.dirty le_rfl (Nat.le_add_right _ 7) hx hy fun x y => by omega

/-- Settles O25. -/
theorem fbWriteStoresOneByte : Obligations.FbWriteStoresOneByte := by
  refine ⟨decode_eq_ok_iff.mpr rfl, fun s h => ⟨_, rfl, ?_, fun hi => ⟨fun j => ?_, ?_⟩, fun hi => ?_⟩⟩
  · unfold storeFbByte
    split <;> rfl
  · rw [endCommand_fb, storeFbByte_fb hi, Memory.read_write h.fbForm]
    exact if_congr eq_comm rfl rfl
  · exact grew_storeFbByte h.cfgLegal hi (argU8 s 1)
  · have hkept : storeFbByte (argU16 s 0) (argU8 s 1) s = s := if_neg (Nat.not_lt.mpr hi)
    rw [hkept]
    exact ⟨rfl, rfl⟩

end Sys2Proof.Machine

/-! ## Commands that transmit -/

namespace Sys2Proof.Machine

open Sys2Proof.Claims

/-! ### The error latch and one transaction -/

theorem latch_eq_latched (e : ErrorCode) (s : State) : latch e s = latched e.code s := by
  unfold latch latched
  split
  · next he => rw [← he]
  · rfl

/-- A checked range of the source buffer is read as it stands (20_memory.md R73, 40_driver.md R146). -/
theorem rawTransaction_eq {s : State} {off len : Nat} (h : off + len ≤ s.cfg.srcbufSize) (sel : Bool) :
    rawTransaction s sel off len =
      ⟨if sel = true then .data else .command, (List.range len).map fun k => s.srcbuf.read (off + k)⟩ := by
  refine congrArg (TxRequest.mk _) (List.map_congr_left fun k hk => if_pos ?_)
  have := List.mem_range.mp hk
  omega

/-- Settles O26: the checks first, then the three ways one transaction can go. -/
theorem txRawSendsOneTransaction : Obligations.TxRawSendsOneTransaction := by
  refine ⟨decode_eq_ok_iff.mpr rfl, fun s => ?_⟩
  intro off len bad sel bytes
  have hexec : exec .txRaw s = .next (txRaw (argBit s 0) off len s) := rfl
  refine ⟨fun hbad => ?_, fun hok hlen => ?_, fun hok hlen => ?_⟩
  · rw [hexec, txRaw, if_pos hbad, raiseError_eq, latch_eq_latched]
    rfl
  · rw [hexec, txRaw, if_neg hok, if_pos hlen]
    rfl
  · have hraw : rawTransaction s (argBit s 0) off len = ⟨sel, bytes⟩ := rawTransaction_eq (by omega) _
    rw [hexec, txRaw, if_neg hok, if_neg (Nat.ne_of_gt hlen), hraw]
    refine ⟨fun as has => ?_, fun as has => ?_, fun hnone => ?_⟩
    · rw [transmit_of_all_true .nothing [⟨sel, bytes⟩] s has]
      rfl
    · have hfail := transmit_of_false .nothing [] ⟨sel, bytes⟩ [] s has
      rw [List.nil_append] at hfail
      rw [hfail, raiseError_eq, latch_eq_latched]
      rfl
    · rw [transmit, hnone]

/-! ### Refreshes that go through -/

/-- Settles O15. -/
theorem refreshOfAnEmptyRegionSendsNothing : Obligations.RefreshOfAnEmptyRegionSendsNothing :=
  fun _ hempty => congrArg Host.Outcome.next (if_pos (decide_eq_true hempty))

/-- Settles O17: all succeed, and then the region is the sentinel. -/
theorem refreshSucceedsAndEmptiesTheRegion : Obligations.RefreshSucceedsAndEmptiesTheRegion := by
  refine ⟨decode_eq_ok_iff.mpr rfl, fun s as h hne has => ?_⟩
  have hrefresh : refresh s = transmit .clearRegion (refreshPlan s) s := if_neg (Bool.eq_false_iff.mp hne)
  rw [exec, execRefresh, hrefresh, transmit_of_all_true _ _ _ has]
  exact ⟨_, rfl, sentinel_toNat h.cfgLegal, rfl⟩

/-! ### The plan of a refresh -/

/-- A region that is not empty lies in the canvas (10_state.md R47). -/
theorem dirty_inside {s : State} (h : s.Sound) (hne : s.dirty.isEmpty = false) : s.dirty.inside s.cfg := by
  refine h.region.resolve_left fun he => ?_
  rw [he, isEmpty_sentinel h.cfgLegal] at hne
  cases hne

/-- The box a refresh sends lies in the canvas. -/
theorem refreshBox_inside {s : State} (h : s.Sound) (hne : s.dirty.isEmpty = false) : (refreshBox s).inside s.cfg := by
  unfold refreshBox
  split
  · exact dirty_inside h hne
  · exact canvas_inside h.cfgLegal

theorem boxOf_eq {s : State} (hc : s.cfg.legal = true) :
    boxOf s = ((refreshBox s).xMin.toNat, (refreshBox s).yMin.toNat, (refreshBox s).xMax.toNat,
      (refreshBox s).yMax.toNat) := by
  obtain ⟨h1, h2, h3, h4⟩ := canvas_toNat hc
  unfold boxOf refreshBox
  split
  · rfl
  · rw [h1, h2, h3, h4]

/-- `blocks` are `bytes` in order, cut every `n` bytes; the last block may be shorter (40_driver.md R138). -/
structure CutInto (n : Nat) (bytes : List Byte) (blocks : List (List Byte)) : Prop where
  flatten : blocks.flatten = bytes
  full : ∀ b ∈ blocks.dropLast, b.length = n
  sized : ∀ b ∈ blocks, 1 ≤ b.length ∧ b.length ≤ n

theorem cutInto_nil (n : Nat) : CutInto n [] [] := ⟨rfl, by simp, by simp⟩

/-- One more block in front, a full one unless it is the last. -/
theorem CutInto.cons {n : Nat} {bytes b : List Byte} {blocks : List (List Byte)} (h : CutInto n bytes blocks)
    (hb : 1 ≤ b.length ∧ b.length ≤ n) (hfull : bytes ≠ [] → b.length = n) : CutInto n (b ++ bytes) (b :: blocks) where
  flatten := by rw [List.flatten_cons, h.flatten]
  full := by
    cases blocks with
    | nil => simp
    | cons b' bs =>
      have hne : bytes ≠ [] := by
        rintro rfl
        have hlen := h.sized b' List.mem_cons_self
        have hnil := List.flatten_eq_nil_iff.mp h.flatten b' List.mem_cons_self
        simp [hnil] at hlen
      rw [List.dropLast_cons_cons]
      exact List.forall_mem_cons.mpr ⟨hfull hne, h.full⟩
  sized := List.forall_mem_cons.mpr ⟨hb, h.sized⟩

/-- The framebuffer bytes of one band, `n` of them from column `col` on (20_memory.md R72). -/
def bandBytes (c : Config) (fb : Memory) (band col n : Nat) : List Byte :=
  (List.range n).map (fun k => fb.read (band * c.width + col + k))

theorem bandBytes_add (c : Config) (fb : Memory) (band col m n : Nat) :
    bandBytes c fb band col (m + n) = bandBytes c fb band col m ++ bandBytes c fb band (col + m) n := by
  simp [bandBytes, List.range_add, Function.comp_def, Nat.add_assoc]

theorem length_bandBytes (c : Config) (fb : Memory) (band col n : Nat) : (bandBytes c fb band col n).length = n := by
  rw [bandBytes, List.length_map, List.length_range]

/-- Where the fuel suffices, the data transactions of a band cut its bytes from `col` on (40_driver.md R138). -/
theorem dataBlocks_cut {c : Config} (hc : c.legal = true) (fb : Memory) (band x1 : Nat) {fuel col : Nat}
    (hfuel : x1 + 1 - col ≤ fuel) :
    ∃ blocks : List (List Byte), dataBlocks c fb band x1 fuel col = blocks.map (fun b => ⟨.data, b⟩) ∧
      CutInto c.blockSize (bandBytes c fb band col (x1 + 1 - col)) blocks := by
  obtain ⟨hblock, -⟩ := legal_block hc
  have hnone : ∀ {col}, x1 + 1 - col = 0 → CutInto c.blockSize (bandBytes c fb band col (x1 + 1 - col)) [] := fun h =>
    h ▸ cutInto_nil _
  induction fuel generalizing col with
  | zero => exact ⟨[], rfl, hnone (Nat.le_zero.mp hfuel)⟩
  | succ fuel ih =>
    by_cases hcol : col ≤ x1
    · rw [dataBlocks, if_pos hcol]
      generalize hn : min c.blockSize (x1 - col + 1) = n
      obtain ⟨blocks, hmap, hcut⟩ := ih (col := col + n) (by omega)
      have hlen := length_bandBytes c fb band col n
      refine ⟨bandBytes c fb band col n :: blocks, congrArg (List.cons _) hmap, ?_⟩
      rw [show x1 + 1 - col = n + (x1 + 1 - (col + n)) by omega, bandBytes_add]
      refine hcut.cons (by omega) fun hmore => ?_
      have hrest := List.length_pos_iff.mpr hmore
      rw [length_bandBytes] at hrest
      omega
    · exact ⟨[], by rw [dataBlocks, if_neg hcol]; rfl, hnone (by omega)⟩

theorem bandPlan_bandTransactions {c : Config} (hc : c.legal = true) (fb : Memory) {x0 x1 : Nat} (hx : x0 ≤ x1)
    (band : Nat) : BandPlan c fb x0 x1 band (bandTransactions c fb x0 x1 band) := by
  obtain ⟨blocks, hmap, hcut⟩ := dataBlocks_cut hc fb band x1 (le_refl (x1 + 1 - x0))
  rw [Nat.sub_add_comm hx] at hcut
  exact ⟨blocks, congrArg (List.cons _) hmap, hcut.flatten, hcut.full, hcut.sized⟩

/-- Settles O16. -/
theorem refreshPlansTheBoxBandByBand : Obligations.RefreshPlansTheBoxBandByBand := by
  intro s h hne
  obtain ⟨hx, -, hy, -⟩ := refreshBox_inside h hne
  have hbands := Nat.div_le_div_right (c := 8) hy
  rw [boxOf_eq h.cfgLegal]
  refine ⟨_, List.flatMap_def .., ?_, fun k hk => ?_⟩
  · rw [List.length_map, List.length_range]
    exact Nat.sub_add_comm hbands
  · rw [List.getElem_map, List.getElem_range]
    exact bandPlan_bandTransactions h.cfgLegal s.fb hx _

end Sys2Proof.Machine

/-! ## AUTO_REFRESH -/

namespace Sys2Proof.Machine

/-! ### What CTRL plays no part in -/

section

variable (s : State) (c : Ctrl)

theorem argS16_withCtrl (n : Fin 8) : argS16 { s with ctrl := c } n = argS16 s n := rfl

theorem argColour_withCtrl (n : Fin 8) : argColour { s with ctrl := c } n = argColour s n := rfl

theorem argU16_withCtrl (n : Fin 8) : argU16 { s with ctrl := c } n = argU16 s n := rfl

theorem bitmapPoints_withCtrl (x y w h : Int) (off : Nat) :
    bitmapPoints { s with ctrl := c } x y w h off = bitmapPoints s x y w h off := rfl

theorem latch_withCtrl (e : ErrorCode) : latch e { s with ctrl := c } = { latch e s with ctrl := c } := by
  unfold latch
  dsimp only
  split <;> rfl

theorem pulsePin_withCtrl : pulsePin { s with ctrl := c } = { pulsePin s with ctrl := c } := by
  unfold pulsePin
  dsimp only
  split <;> rfl

theorem storeFbByte_withCtrl (j : Nat) (v : Byte) :
    storeFbByte j v { s with ctrl := c } = { storeFbByte j v s with ctrl := c } := by
  unfold storeFbByte
  dsimp only
  split <;> rfl

end

theorem transmit_withCtrl (after : TxThen) (ts : List TxRequest) (s : State) (c : Ctrl) :
    transmit after ts { s with ctrl := c } = { transmit after ts s with ctrl := c } := by
  induction ts generalizing s with
  | nil => cases after <;> rfl
  | cons t ts ih =>
    match ha : s.answers with
    | [] => simp only [transmit, ha]
    | true :: as =>
      simp only [transmit, ha]
      exact ih { s with answers := as, history := s.history ++ [answered true t] }
    | false :: as =>
      simp only [transmit, ha]
      exact congrArg endCommand
        (latch_withCtrl { s with answers := as, history := s.history ++ [answered false t] } c .transportError)

theorem txRaw_withCtrl (s : State) (c : Ctrl) (sel : Bool) (off len : Nat) :
    txRaw sel off len { s with ctrl := c } = { txRaw sel off len s with ctrl := c } := by
  unfold txRaw
  dsimp only
  split
  · exact congrArg endCommand (latch_withCtrl s c .argError)
  · split
    · rfl
    · exact transmit_withCtrl .nothing [rawTransaction s sel off len] s c

/-- A refresh reads PARTIAL_UPDATE only (40_driver.md R137). -/
theorem refresh_withCtrl (s : State) {c : Ctrl} (hc : c.partialUpdate = s.ctrl.partialUpdate) :
    refresh { s with ctrl := c } = { refresh s with ctrl := c } := by
  have hplan : refreshPlan { s with ctrl := c } = refreshPlan s := by
    simp only [refreshPlan, refreshBox, hc]
  unfold refresh
  rw [hplan]
  dsimp only
  split
  · rfl
  · exact transmit_withCtrl .clearRegion (refreshPlan s) s c

/-- A character reads TEXT_WRAP only (44_bitmap_text.md R264). -/
theorem writeChar_withCtrl (ch : Byte) (s : State) {c : Ctrl} (hc : c.textWrap = s.ctrl.textWrap) :
    writeChar ch { s with ctrl := c } = { writeChar ch s with ctrl := c } := by
  unfold writeChar drawChar advance
  simp only [plotAll_eq, hc]
  split
  · rfl
  · split
    · rfl
    · split <;> rfl

theorem writeChar_ctrl (ch : Byte) (s : State) : (writeChar ch s).ctrl = s.ctrl := by
  obtain ⟨ps, cx, cy, h⟩ := writeChar_drawn ch s
  rw [h]
  rfl

theorem writeChars_withCtrl (n i : Nat) (s : State) {c : Ctrl} (hc : c.textWrap = s.ctrl.textWrap) :
    writeChars n i { s with ctrl := c } = { writeChars n i s with ctrl := c } := by
  induction n generalizing i s with
  | zero => rfl
  | succ n ih =>
    have hchar := writeChar_withCtrl (src s i) s hc
    exact (congrArg (writeChars n (i + 1)) hchar).trans
      (ih (i + 1) (writeChar (src s i) s) (hc.trans (congrArg _ (writeChar_ctrl _ s).symm)))

/-! ### Commands -/

/-- A command that is not a drawing command does not read AUTO_REFRESH or TEXT_WRAP (40_driver.md R140). -/
theorem exec_withCtrl_of_not_drawing {i : Instr} (hi : i.isDrawing = false) {s t : State} {c : Ctrl}
    (hc : c.partialUpdate = s.ctrl.partialUpdate) (e : exec i s = .next t) :
    exec i { s with ctrl := c } = .next { t with ctrl := c } := by
  cases i <;> obtain rfl := Host.Outcome.next.inj e.symm
  case panelReset => exact congrArg (fun u => Host.Outcome.next (endCommand u)) (pulsePin_withCtrl s c)
  case clear | getPixel | fbRead => rfl
  case refresh => exact congrArg Host.Outcome.next (refresh_withCtrl s hc)
  case fbWrite => exact congrArg (fun u => Host.Outcome.next (endCommand u)) (storeFbByte_withCtrl s c _ _)
  case txRaw => exact congrArg Host.Outcome.next (txRaw_withCtrl s c _ _ _)
  all_goals cases hi

/-- A drawing command reads AUTO_REFRESH in CommandEnd only (40_driver.md R140). -/
theorem exec_withCtrl_of_drawing {i : Instr} (hi : i.isDrawing = true) (s : State) :
    ∃ u : State, ∀ c : Ctrl, c.textWrap = s.ctrl.textWrap →
      exec i { s with ctrl := c } = .next (commandEnd { u with ctrl := c }) := by
  cases i with
  | panelReset | clear | refresh | getPixel | fbRead | fbWrite | txRaw => cases hi
  | writeChar =>
    exact ⟨writeChar (argU8 s 0) s, fun _ hc =>
      congrArg (fun u => Host.Outcome.next (commandEnd u)) (writeChar_withCtrl _ s hc)⟩
  | writeString =>
    exact ⟨writeChars (argU16 s 1) (argU16 s 0) s, fun _ hc =>
      congrArg (fun u => Host.Outcome.next (commandEnd u)) (writeChars_withCtrl _ _ s hc)⟩
  | _ =>
    simp only [exec, execPixel, execLine, execVline, execHline, execRect, execFillRect, execRoundRect,
      execFillRoundRect, execCircle, execFillCircle, execTriangle, execFillTriangle, execBitmap, argS16_withCtrl,
      argColour_withCtrl, argU16_withCtrl, bitmapPoints_withCtrl, draw_eq]
    exact ⟨drawn _ s.cursorX s.cursorY s, fun _ _ => rfl⟩

/-- Settles O45: a drawing command comes to one state before CommandEnd, whatever AUTO_REFRESH is. -/
theorem drawingCommandsRefreshOnceAtTheEnd : Obligations.DrawingCommandsRefreshOnceAtTheEnd := by
  intro i s t hauto e
  refine ⟨fun hi => ?_, fun hi => ?_⟩
  · obtain ⟨u, hu⟩ := exec_withCtrl_of_drawing hi s
    have hoff := hu { s.ctrl with autoRefresh := false } rfl
    obtain rfl : endCommand { u with ctrl := { s.ctrl with autoRefresh := false } } = t :=
      Host.Outcome.next.inj (hoff.symm.trans e)
    exact (exec_commandEnd (hu s.ctrl rfl)).2 hauto
  · exact exec_withCtrl_of_not_drawing (s := { s with ctrl := { s.ctrl with autoRefresh := false } }) hi rfl e

end Sys2Proof.Machine

/-! ## The panel -/

namespace Sys2Proof.Machine

open Sys2Proof.Claims

/-- A panel of R148's assumption: page, column pointer, display RAM. -/
abbrev Panel : Type := Nat × Nat × (Nat → Nat → Byte)

/-! ### Selecting a band and a column -/

/-- The default bounds the rows by 128 and the columns the panel is sent by 256 (00_scope.md R6). -/
theorem legal_pageAddressing {c : Config} (h : c.legal = true) (hsel : c.selectBytes = .pageAddressing) :
    c.width + c.colOffset ≤ 256 ∧ c.height ≤ 128 := by
  simp only [Config.legal, Bool.and_eq_true, Config.widthOk, Config.heightOk, hsel, decide_eq_true_eq] at h
  omega

/-- A nibble below a multiple of 16: the word is their sum. -/
theorem nibble_or {a b : Nat} (hb : b < 16) : 16 * a ||| b = 16 * a + b :=
  (Nat.two_pow_add_eq_or_of_lt (i := 4) hb a).symm

/-- Settles O22: each command byte is an opcode in the high nibble over a value in the low one. -/
theorem defaultSelectBytes : Obligations.DefaultSelectBytes := by
  intro c band col hsel hband hcol
  have hnibble : ∀ n : Nat, n &&& 15 = n % 16 := fun n => Nat.and_two_pow_sub_one_eq_mod n 4
  have hpage := nibble_or (a := 11) (b := band) (by omega)
  have hhigh := nibble_or (a := 1) (b := col / 16) (by omega)
  rw [selectBytesOf, hsel]
  simp only [List.map_cons, List.map_nil, BitVec.toNat_or, BitVec.toNat_and, BitVec.toNat_ushiftRight,
    BitVec.toNat_ofNat, Nat.mod_eq_of_lt (by omega : band < 2 ^ 8), Nat.mod_eq_of_lt (by omega : col < 2 ^ 8),
    Nat.shiftRight_eq_div_pow]
  show [176 ||| band, 0 ||| (col &&& 15), 16 ||| (col / 16 &&& 15)] = _
  rw [hnibble, hnibble, Nat.zero_or, Nat.mod_eq_of_lt (by omega : col / 16 < 16), hpage, hhigh]

/-- R139's bytes set the page and both nibbles of the column pointer. -/
theorem panel_select {bytes : List Byte} {band col : Nat} (hband : band ≤ 15) (hcol : col ≤ 255)
    (h : bytes.map BitVec.toNat = [0xB0 + band, col % 16, 0x10 + col / 16]) (p : Panel) :
    bytes.foldl (panelByte .command) p = (band, col, p.2.2) := by
  obtain ⟨b1, _, rfl, h1, h⟩ := List.map_eq_cons_iff.mp h
  obtain ⟨b2, _, rfl, h2, h⟩ := List.map_eq_cons_iff.mp h
  obtain ⟨b3, _, rfl, h3, h⟩ := List.map_eq_cons_iff.mp h
  obtain rfl := List.map_eq_nil_iff.mp h
  have hpage : ∀ q : Panel, panelByte .command q b1 = (band, q.2) := fun q => by
    rw [panelByte, if_pos (by omega), h1, Nat.add_sub_cancel_left]
  have hlow : ∀ q : Panel, panelByte .command q b2 = (q.1, q.2.1 / 16 * 16 + col % 16, q.2.2) := fun q => by
    rw [panelByte, if_neg (by omega), if_pos (by omega), h2]
  have hhigh : ∀ q : Panel, panelByte .command q b3 = (q.1, col / 16 * 16 + q.2.1 % 16, q.2.2) := fun q => by
    rw [panelByte, if_neg (by omega), if_neg (by omega), if_pos (by omega), h3, Nat.add_sub_cancel_left]
  have hcol' : col / 16 * 16 + (p.2.1 / 16 * 16 + col % 16) % 16 = col := by omega
  simp only [List.foldl_cons, List.foldl_nil, hpage, hlow, hhigh, hcol']

/-! ### Writing the bytes of a band -/

/-- Data bytes land at consecutive columns of the page selected. -/
theorem panel_data (f : Nat → Byte) (n : Nat) (p : Panel) :
    ((List.range n).map f).foldl (panelByte .data) p = (p.1, p.2.1 + n, fun page col =>
      if page = p.1 ∧ p.2.1 ≤ col ∧ col < p.2.1 + n then f (col - p.2.1) else p.2.2 page col) := by
  induction n with
  | zero =>
    refine Prod.ext rfl (Prod.ext rfl (funext fun page => funext fun col => (if_neg ?_).symm))
    omega
  | succ n ih =>
    rw [List.range_succ, List.map_append, List.foldl_append, ih]
    refine Prod.ext rfl (Prod.ext rfl (funext fun page => funext fun col => ?_))
    by_cases hnew : page = p.1 ∧ col = p.2.1 + n
    · obtain ⟨rfl, rfl⟩ := hnew
      simp [panelByte]
    · exact (if_neg hnew).trans (if_congr (by omega) rfl rfl)

/-- The transactions of a band put its bytes into the panel's RAM and nothing else. -/
theorem panel_bandPlan {c : Config} (hc : c.legal = true) (hsel : c.selectBytes = .pageAddressing) {fb : Memory}
    {x0 x1 band : Nat} {ts : List TxRequest} (h : BandPlan c fb x0 x1 band ts) (hx : x0 ≤ x1) (hx1 : x1 < c.width)
    (hband : band < c.height / 8) (p : Panel) (b x : Nat) :
    (panelAfter p ts).2.2 b (x + c.colOffset) =
      if b = band ∧ x0 ≤ x ∧ x ≤ x1 then fb.read (band * c.width + x) else p.2.2 b (x + c.colOffset) := by
  obtain ⟨hcols, hrows⟩ := legal_pageAddressing hc hsel
  obtain ⟨blocks, rfl, hflat, -⟩ := h
  have hselect := panel_select (by omega) (by omega)
    (defaultSelectBytes c band (x0 + c.colOffset) hsel (by omega) (by omega)) p
  have hdata : ∀ q, panelAfter q (blocks.map fun b => ⟨.data, b⟩) = blocks.flatten.foldl (panelByte .data) q := by
    intro q
    rw [List.foldl_flatten, panelAfter, List.foldl_map]
  have hsent : panelAfter p (⟨.command, selectBytesOf c band (x0 + c.colOffset)⟩ :: blocks.map fun b => ⟨.data, b⟩) =
      blocks.flatten.foldl (panelByte .data) (band, x0 + c.colOffset, p.2.2) := by
    rw [← hselect, ← hdata]
    rfl
  rw [hsent, hflat, panel_data]
  by_cases hin : b = band ∧ x0 ≤ x ∧ x ≤ x1
  · have hbyte : band * c.width + x0 + (x + c.colOffset - (x0 + c.colOffset)) = band * c.width + x := by omega
    exact (if_pos (by dsimp only; omega)).trans ((congrArg fb.read hbyte).trans (if_pos hin).symm)
  · exact (if_neg (by dsimp only; omega)).trans (if_neg hin).symm

/-- The bands of a refresh, one after the other. -/
theorem panel_bands {c : Config} (hc : c.legal = true) (hsel : c.selectBytes = .pageAddressing) (fb : Memory)
    {x0 x1 band0 : Nat} (hx : x0 ≤ x1) (hx1 : x1 < c.width) {n : Nat} (hn : band0 + n ≤ c.height / 8)
    (p : Panel) (b x : Nat) :
    (panelAfter p ((List.range n).flatMap fun k => bandTransactions c fb x0 x1 (band0 + k))).2.2 b (x + c.colOffset) =
      if band0 ≤ b ∧ b < band0 + n ∧ x0 ≤ x ∧ x ≤ x1 then fb.read (b * c.width + x) else p.2.2 b (x + c.colOffset) := by
  induction n with
  | zero => exact (if_neg (by omega)).symm
  | succ n ih =>
    have hlast := panel_bandPlan hc hsel (bandPlan_bandTransactions hc fb hx (band0 + n)) hx hx1 (by omega)
    rw [List.range_succ, List.flatMap_append, List.flatMap_singleton, panelAfter, List.foldl_append, ← panelAfter,
      ← panelAfter, hlast, ih (by omega)]
    by_cases hin : b = band0 + n ∧ x0 ≤ x ∧ x ≤ x1
    · rw [if_pos hin, if_pos (by omega), hin.1]
    · rw [if_neg hin]
      exact if_congr (by omega) rfl rfl

/-- After a refresh the panel shows the framebuffer inside the box sent, and outside what it showed (R148). -/
theorem panel_refresh {s : State} (h : s.Sound) (hsel : s.cfg.selectBytes = .pageAddressing)
    (hne : s.dirty.isEmpty = false) (p : Panel) (b x : Nat) :
    (panelAfter p (refreshPlan s)).2.2 b (x + s.cfg.colOffset) =
      if (refreshBox s).yMin.toNat / 8 ≤ b ∧ b ≤ (refreshBox s).yMax.toNat / 8 ∧ (refreshBox s).xMin.toNat ≤ x ∧
        x ≤ (refreshBox s).xMax.toNat
      then s.fb.read (b * s.cfg.width + x) else p.2.2 b (x + s.cfg.colOffset) := by
  obtain ⟨hx, hx1, hy, hy1⟩ := refreshBox_inside h hne
  have hbands := Nat.div_le_div_right (c := 8) hy
  obtain ⟨h8, -, -⟩ := legal_height h.cfgLegal
  rw [refreshPlan, panel_bands h.cfgLegal hsel s.fb hx hx1 (by omega)]
  exact if_congr (by omega) rfl rfl

/-- In either mode the box sent covers the dirty box (40_driver.md R137). -/
theorem dirty_in_refreshBox {s : State} (h : s.Sound) (hne : s.dirty.isEmpty = false) :
    (refreshBox s).xMin.toNat ≤ s.dirty.xMin.toNat ∧ (refreshBox s).yMin.toNat ≤ s.dirty.yMin.toNat ∧
      s.dirty.xMax.toNat ≤ (refreshBox s).xMax.toNat ∧ s.dirty.yMax.toNat ≤ (refreshBox s).yMax.toNat := by
  obtain ⟨-, hxMax, -, hyMax⟩ := dirty_inside h hne
  obtain ⟨h1, h2, h3, h4⟩ := canvas_toNat h.cfgLegal
  unfold refreshBox
  split <;> omega

/-- A panel that shows the framebuffer outside the dirty box shows all of it after a refresh (40_driver.md R148). -/
theorem panel_shows_refresh {s : State} (h : s.Sound) (hsel : s.cfg.selectBytes = .pageAddressing)
    (hne : s.dirty.isEmpty = false) (p : Panel)
    (hp : ∀ b x, b < s.cfg.height / 8 → x < s.cfg.width →
      ¬ (s.dirty.yMin.toNat / 8 ≤ b ∧ b ≤ s.dirty.yMax.toNat / 8 ∧ s.dirty.xMin.toNat ≤ x ∧ x ≤ s.dirty.xMax.toNat) →
      p.2.2 b (x + s.cfg.colOffset) = s.fb.read (b * s.cfg.width + x))
    {b x : Nat} (hb : b < s.cfg.height / 8) (hx : x < s.cfg.width) :
    (panelAfter p (refreshPlan s)).2.2 b (x + s.cfg.colOffset) = s.fb.read (b * s.cfg.width + x) := by
  obtain ⟨hx0, hy0, hx1, hy1⟩ := dirty_in_refreshBox h hne
  rw [panel_refresh h hsel hne p b x]
  split
  · rfl
  · exact hp b x hb hx (by omega)

/-- Settles O21: the mode chooses the box, and either box covers the dirty one. -/
theorem partialAndFullModesGiveTheSamePanel : Obligations.PartialAndFullModesGiveTheSamePanel :=
  fun s p mode h hsel hne hp _ _ =>
    panel_shows_refresh (s := { s with ctrl := { s.ctrl with partialUpdate := mode } }) { h with } hsel hne p hp

end Sys2Proof.Machine

/-! ## The points of a line -/

namespace Sys2Proof.Machine

open Sys2Proof.Claims

/-! ### The accumulator in closed form (41_lines_rects.md R181) -/

/-- How far the minor coordinate of a line of extents `D` and `d` has moved after `k` steps of the major axis. -/
def minorSteps (D d k : Int) : Int := (k * d + D - 1 - D / 2) / D

/-- What DrawLine's `err` holds after `k` steps. -/
def lineError (D d k : Int) : Int := D / 2 - k * d + minorSteps D d k * D

/-- The quotient is the one that keeps the accumulator in 0 .. D − 1. -/
theorem minorSteps_eq_iff {D : Int} (hD : 0 < D) {d k m : Int} :
    minorSteps D d k = m ↔ 0 ≤ D / 2 - k * d + m * D ∧ D / 2 - k * d + m * D < D := by
  rw [minorSteps, Int.ediv_eq_iff_of_pos hD]
  omega

theorem lineError_bounds {D : Int} (hD : 0 < D) (d k : Int) : 0 ≤ lineError D d k ∧ lineError D d k < D :=
  (minorSteps_eq_iff hD).mp rfl

theorem minorSteps_zero {D : Int} (hD : 0 ≤ D) (d : Int) : minorSteps D d 0 = 0 := by
  obtain rfl | hD := hD.eq_or_lt
  · simp [minorSteps]
  · rw [minorSteps_eq_iff hD]
    omega

theorem minorSteps_self {D d : Int} (hd : 0 ≤ d) (hdD : d ≤ D) : minorSteps D d D = d := by
  obtain rfl | hD := (hd.trans hdD).eq_or_lt
  · simp [minorSteps, le_antisymm hdD hd]
  · rw [minorSteps_eq_iff hD, mul_comm d D]
    omega

theorem minorSteps_mono {D d j k : Int} (hD : 0 ≤ D) (hd : 0 ≤ d) (hjk : j ≤ k) :
    minorSteps D d j ≤ minorSteps D d k := by
  obtain rfl | hD := hD.eq_or_lt
  · simp [minorSteps]
  · have := mul_le_mul_of_nonneg_right hjk hd
    exact Int.ediv_le_ediv hD (by omega)

theorem minorSteps_bounds {D d k : Int} (hd : 0 ≤ d) (hdD : d ≤ D) (h0 : 0 ≤ k) (hk : k ≤ D) :
    0 ≤ minorSteps D d k ∧ minorSteps D d k ≤ d := by
  have hD := hd.trans hdD
  have h := minorSteps_mono hD hd h0
  have h' := minorSteps_mono hD hd hk
  rw [minorSteps_zero hD] at h
  rw [minorSteps_self hd hdD] at h'
  exact ⟨h, h'⟩

/-- One turn of the loop, its minor coordinate. -/
theorem minorSteps_succ {D d : Int} (hD : 0 < D) (hd : 0 ≤ d) (hdD : d ≤ D) (k : Int) :
    minorSteps D d (k + 1) = if lineError D d k - d < 0 then minorSteps D d k + 1 else minorSteps D d k := by
  have hb := lineError_bounds hD d k
  rw [minorSteps_eq_iff hD]
  split <;> simp only [lineError, add_mul, one_mul] at * <;> omega

/-- One turn of the loop, its accumulator. -/
theorem lineError_succ {D d : Int} (hD : 0 < D) (hd : 0 ≤ d) (hdD : d ≤ D) (k : Int) :
    lineError D d (k + 1) = if lineError D d k - d < 0 then lineError D d k - d + D else lineError D d k - d := by
  rw [lineError, minorSteps_succ hD hd hdD]
  split <;> rw [lineError] <;> ring

/-- The minor coordinate stays within half a pixel of the exact `k * d / D`. -/
theorem two_mul_abs_minorSteps_le {D d : Int} (hd : 0 ≤ d) (hdD : d ≤ D) (k : Int) :
    2 * |k * d - minorSteps D d k * D| ≤ D := by
  obtain rfl | hD := (hd.trans hdD).eq_or_lt
  · simp [le_antisymm hdD hd]
  · obtain ⟨h0, h1⟩ := lineError_bounds hD d k
    rw [lineError] at h0 h1
    have : |k * d - minorSteps D d k * D| ≤ D / 2 := abs_le.mpr (by omega)
    omega

/-! ### The loop as a list of its points -/

/-- The point with its coordinates exchanged. -/
def Point.transpose (p : Point) : Point := ⟨p.y, p.x⟩

theorem transpose_involutive : Function.Involutive Point.transpose := fun _ => rfl

/-- Which way the minor coordinate moves. -/
def slopeSign (b0 b1 : Int) : Int := if b0 < b1 then 1 else -1

theorem abs_slopeSign (b0 b1 : Int) : |slopeSign b0 b1| = 1 := by
  unfold slopeSign
  split <;> rfl

theorem slopeSign_mul_abs (b0 b1 : Int) : slopeSign b0 b1 * |b1 - b0| = b1 - b0 := by
  unfold slopeSign
  split
  · rw [abs_of_pos (by omega), one_mul]
  · rw [abs_of_nonpos (by omega)]
    ring

/-- A move of at most |b1 − b0| towards b1 does not leave the interval. -/
theorem add_slopeSign_mul_between {b0 b1 m : Int} (h0 : 0 ≤ m) (h1 : m ≤ |b1 - b0|) :
    min b0 b1 ≤ b0 + slopeSign b0 b1 * m ∧ b0 + slopeSign b0 b1 * m ≤ max b0 b1 := by
  unfold slopeSign
  split
  · rw [abs_of_pos (by omega)] at h1
    omega
  · rw [abs_of_nonpos (by omega)] at h1
    omega

/-- The point of step `k` of the line from (a0, b0) to (a1, b1), a the major axis. -/
def slopePoint (a0 b0 a1 b1 k : Int) : Point :=
  ⟨a0 + k, b0 + slopeSign b0 b1 * minorSteps (a1 - a0) |b1 - b0| k⟩

theorem lineLoop_true (D d s : Int) (n : Nat) (x y e : Int) :
    lineLoop true D d s n x y e = (lineLoop false D d s n x y e).map Point.transpose := by
  induction n generalizing x y e with
  | zero => rfl
  | succ n ih =>
    simp only [lineLoop, if_true, List.map_cons]
    split <;> rw [ih] <;> rfl

theorem lineOrdered_true (a0 b0 a1 b1 : Int) :
    lineOrdered true a0 b0 a1 b1 = (lineOrdered false a0 b0 a1 b1).map Point.transpose := by
  unfold lineOrdered
  split <;> exact lineLoop_true ..

/-- The loop's invariant: after `k` steps it holds the closed forms. -/
theorem lineLoop_eq_map {D d : Int} (hD : 0 < D) (hd : 0 ≤ d) (hdD : d ≤ D) (s x y : Int) (n : Nat) (k : Int) :
    lineLoop false D d s n (x + k) (y + s * minorSteps D d k) (lineError D d k) =
      (List.range n).map (fun (j : Nat) => ⟨x + (k + j), y + s * minorSteps D d (k + j)⟩) := by
  induction n generalizing k with
  | zero => rfl
  | succ n ih =>
    have hnext : (if lineError D d k - d < 0 then
          lineLoop false D d s n (x + k + 1) (y + s * minorSteps D d k + s) (lineError D d k - d + D)
        else lineLoop false D d s n (x + k + 1) (y + s * minorSteps D d k) (lineError D d k - d)) =
        lineLoop false D d s n (x + (k + 1)) (y + s * minorSteps D d (k + 1)) (lineError D d (k + 1)) := by
      rw [lineError_succ hD hd hdD, minorSteps_succ hD hd hdD]
      split <;> congr 1 <;> ring
    simp only [lineLoop, hnext, ih, List.range_succ_eq_map, List.map_cons, List.map_map, Nat.cast_zero, add_zero]
    simp [Function.comp_def, add_assoc, add_comm (1 : Int)]

theorem lineSwapped_eq_map {a0 b0 a1 b1 : Int} (ha : a0 ≤ a1) (hb : |b1 - b0| ≤ a1 - a0) :
    lineSwapped false a0 b0 a1 b1 =
      (List.range ((a1 - a0).toNat + 1)).map (fun (k : Nat) => slopePoint a0 b0 a1 b1 k) := by
  have hm := minorSteps_zero (sub_nonneg.mpr ha) |b1 - b0|
  obtain rfl | hlt := ha.eq_or_lt
  · simp [lineSwapped, lineLoop, slopePoint, minorSteps]
  · have he : Int.tdiv (a1 - a0) 2 = lineError (a1 - a0) |b1 - b0| 0 := by
      rw [lineError, hm, Int.tdiv_eq_ediv_of_nonneg (by omega)]
      ring
    have h := lineLoop_eq_map (by omega : 0 < a1 - a0) (abs_nonneg _) hb (slopeSign b0 b1) a0 b0
      ((a1 - a0).toNat + 1) 0
    rw [hm, ← he, mul_zero, add_zero, add_zero] at h
    rw [lineSwapped, Int.natCast_natAbs, (by omega : (a1 - a0 + 1).toNat = (a1 - a0).toNat + 1)]
    simp only [zero_add] at h
    exact h

/-- DrawLine of a line whose major axis is y is DrawLine of its mirror image. -/
theorem linePoints_of_lt {x0 y0 x1 y1 : Int} (h : |x1 - x0| < |y1 - y0|) :
    linePoints x0 y0 x1 y1 = (linePoints y0 x0 y1 x1).map Point.transpose := by
  rw [Int.abs_eq_natAbs, Int.abs_eq_natAbs, Nat.cast_lt] at h
  rw [linePoints, linePoints, if_pos h, if_neg h.not_gt, lineOrdered_true]

theorem linePoints_of_le {x0 y0 x1 y1 : Int} (h : |y1 - y0| ≤ |x1 - x0|) :
    linePoints x0 y0 x1 y1 = lineOrdered false x0 y0 x1 y1 := by
  rw [Int.abs_eq_natAbs, Int.abs_eq_natAbs, Nat.cast_le] at h
  rw [linePoints, if_neg h.not_gt]

/-! ### The set of a line's points -/

theorem mem_lineSwapped {a0 b0 a1 b1 : Int} (ha : a0 ≤ a1) (hb : |b1 - b0| ≤ a1 - a0) {a b : Int} :
    ⟨a, b⟩ ∈ lineSwapped false a0 b0 a1 b1 ↔ onSlope a0 b0 a1 b1 a b := by
  simp only [lineSwapped_eq_map ha hb, List.mem_map, List.mem_range, slopePoint, Point.mk.injEq]
  constructor
  · rintro ⟨k, hk, rfl, rfl⟩
    refine ⟨by omega, by omega, ?_⟩
    rw [add_sub_cancel_left]
    rfl
  · rintro ⟨h0, h1, rfl⟩
    refine ⟨(a - a0).toNat, by omega, by omega, ?_⟩
    rw [Int.toNat_of_nonneg (by omega)]
    rfl

theorem mem_lineOrdered {a0 b0 a1 b1 : Int} (h : |b1 - b0| ≤ |a1 - a0|) {a b : Int} :
    ⟨a, b⟩ ∈ lineOrdered false a0 b0 a1 b1 ↔ onMajor a0 b0 a1 b1 a b := by
  unfold lineOrdered onMajor
  split
  · next ha =>
    rw [abs_sub_comm b1, abs_sub_comm a1, abs_of_pos (sub_pos.mpr ha)] at h
    exact mem_lineSwapped ha.le h
  · next ha =>
    rw [abs_of_nonneg (sub_nonneg.mpr (not_lt.mp ha))] at h
    exact mem_lineSwapped (not_lt.mp ha) h

/-- DrawLine plots the pixels of the closed form. -/
theorem mem_linePoints {x0 y0 x1 y1 x y : Int} : ⟨x, y⟩ ∈ linePoints x0 y0 x1 y1 ↔ onLine x0 y0 x1 y1 x y := by
  unfold onLine
  split
  · next h =>
    rw [linePoints_of_lt h, List.mem_map_of_involutive transpose_involutive, linePoints_of_le h.le]
    exact mem_lineOrdered h.le
  · next h =>
    rw [linePoints_of_le (not_lt.mp h)]
    exact mem_lineOrdered (not_lt.mp h)

/-! ### The geometry of a line -/

/-- The points `ps` trace the segment from (x0, y0) to (x1, y1), as R181 says of DrawLine. -/
structure Traces (x0 y0 x1 y1 : Int) (ps : List Point) : Prop where
  length_eq  : ps.length = (max |x1 - x0| |y1 - y0|).toNat + 1
  start_mem  : ⟨x0, y0⟩ ∈ ps
  finish_mem : ⟨x1, y1⟩ ∈ ps
  near       : ∀ p ∈ ps, 2 * |(p.x - x0) * (y1 - y0) - (p.y - y0) * (x1 - x0)| ≤ max |x1 - x0| |y1 - y0| ∧
    min x0 x1 ≤ p.x ∧ p.x ≤ max x0 x1 ∧ min y0 y1 ≤ p.y ∧ p.y ≤ max y0 y1
  chain      : ps.IsChain (fun p q => |q.x - p.x| ≤ 1 ∧ |q.y - p.y| ≤ 1 ∧ (q.x ≠ p.x ∨ q.y ≠ p.y))

/-- Tracing a segment does not depend on which endpoint is named first. -/
theorem Traces.swap {x0 y0 x1 y1 : Int} {ps : List Point} (h : Traces x0 y0 x1 y1 ps) : Traces x1 y1 x0 y0 ps where
  length_eq := by rw [h.length_eq, abs_sub_comm x1, abs_sub_comm y1]
  start_mem := h.finish_mem
  finish_mem := h.start_mem
  near := fun p hp => by
    obtain ⟨hd, hx0, hx1, hy0, hy1⟩ := h.near p hp
    have he : (p.x - x1) * (y0 - y1) - (p.y - y1) * (x0 - x1) =
        -((p.x - x0) * (y1 - y0) - (p.y - y0) * (x1 - x0)) := by ring
    rw [he, abs_neg, abs_sub_comm x0, abs_sub_comm y0, min_comm x1, max_comm x1, min_comm y1, max_comm y1]
    exact ⟨hd, hx0, hx1, hy0, hy1⟩
  chain := h.chain

/-- The mirror image of a trace. -/
theorem Traces.transpose {x0 y0 x1 y1 : Int} {ps : List Point} (h : Traces x0 y0 x1 y1 ps) :
    Traces y0 x0 y1 x1 (ps.map Point.transpose) where
  length_eq := by rw [List.length_map, h.length_eq, max_comm]
  start_mem := List.mem_map_of_mem h.start_mem
  finish_mem := List.mem_map_of_mem h.finish_mem
  near := List.forall_mem_map.mpr fun p hp => by
    obtain ⟨hd, hx0, hx1, hy0, hy1⟩ := h.near p hp
    rw [abs_sub_comm, max_comm |y1 - y0|]
    exact ⟨hd, hy0, hy1, hx0, hx1⟩
  chain := (List.isChain_map _).mpr (h.chain.imp fun _ _ ⟨hx, hy, hne⟩ => ⟨hy, hx, hne.symm⟩)

/-- A line of at most one minor step per major step, from its left endpoint, traces its segment. -/
theorem traces_lineSwapped {a0 b0 a1 b1 : Int} (ha : a0 ≤ a1) (hb : |b1 - b0| ≤ a1 - a0) :
    Traces a0 b0 a1 b1 (lineSwapped false a0 b0 a1 b1) := by
  have hD := sub_nonneg.mpr ha
  have hd := abs_nonneg (b1 - b0)
  have hs := slopeSign_mul_abs b0 b1
  have hmax : max |a1 - a0| |b1 - b0| = a1 - a0 := by rw [abs_of_nonneg hD, max_eq_left hb]
  rw [lineSwapped_eq_map ha hb]
  constructor
  case length_eq => rw [List.length_map, List.length_range, hmax]
  case start_mem =>
    refine List.mem_map.mpr ⟨0, by simp, ?_⟩
    simp [slopePoint, minorSteps_zero hD]
  case finish_mem =>
    refine List.mem_map.mpr ⟨(a1 - a0).toNat, by simp, ?_⟩
    simp [slopePoint, Int.toNat_of_nonneg hD, minorSteps_self hd hb, hs]
  case near =>
    refine List.forall_mem_map.mpr fun k hk => ?_
    rw [List.mem_range] at hk
    obtain ⟨h0, h1⟩ := minorSteps_bounds hd hb (Int.natCast_nonneg k) (by omega)
    have hcross : (a0 + k - a0) * (b1 - b0) -
        (b0 + slopeSign b0 b1 * minorSteps (a1 - a0) |b1 - b0| k - b0) * (a1 - a0) =
        slopeSign b0 b1 * (k * |b1 - b0| - minorSteps (a1 - a0) |b1 - b0| k * (a1 - a0)) := by
      linear_combination (-(k : Int)) * hs
    simp only [slopePoint, hmax, hcross, abs_mul, abs_slopeSign, one_mul]
    exact ⟨two_mul_abs_minorSteps_le hd hb k, by omega, by omega, add_slopeSign_mul_between h0 h1⟩
  case chain =>
    refine (List.isChain_map _).mpr ((List.isChain_range_succ _ _).mpr fun k hk => ?_)
    have hm := minorSteps_succ (by omega) hd hb k
    have hstep : minorSteps (a1 - a0) |b1 - b0| (k + 1) - minorSteps (a1 - a0) |b1 - b0| k ≤ 1 ∧
        0 ≤ minorSteps (a1 - a0) |b1 - b0| (k + 1) - minorSteps (a1 - a0) |b1 - b0| k := by
      split at hm <;> omega
    simp only [slopePoint, Nat.succ_eq_add_one, Nat.cast_add, Nat.cast_one, add_sub_add_left_eq_sub, ← mul_sub, abs_mul,
      abs_slopeSign, one_mul, add_sub_cancel_left, abs_one, abs_of_nonneg hstep.2]
    exact ⟨le_rfl, hstep.1, .inl (by omega)⟩

theorem traces_lineOrdered {a0 b0 a1 b1 : Int} (h : |b1 - b0| ≤ |a1 - a0|) :
    Traces a0 b0 a1 b1 (lineOrdered false a0 b0 a1 b1) := by
  unfold lineOrdered
  split
  · next ha =>
    rw [abs_sub_comm b1, abs_sub_comm a1, abs_of_pos (sub_pos.mpr ha)] at h
    exact (traces_lineSwapped ha.le h).swap
  · next ha =>
    rw [abs_of_nonneg (sub_nonneg.mpr (not_lt.mp ha))] at h
    exact traces_lineSwapped (not_lt.mp ha) h

theorem traces_linePoints (x0 y0 x1 y1 : Int) : Traces x0 y0 x1 y1 (linePoints x0 y0 x1 y1) := by
  obtain h | h := lt_or_ge |x1 - x0| |y1 - y0|
  · rw [linePoints_of_lt h, linePoints_of_le h.le]
    exact (traces_lineOrdered h.le).transpose
  · rw [linePoints_of_le h]
    exact traces_lineOrdered h

/-- The second swap of DrawLine makes the endpoints' order immaterial; where it does not swap, they are one point. -/
theorem lineOrdered_comm {a0 b0 a1 b1 : Int} (h : |b1 - b0| ≤ |a1 - a0|) :
    lineOrdered false a1 b1 a0 b0 = lineOrdered false a0 b0 a1 b1 := by
  obtain hlt | rfl | hgt := lt_trichotomy a0 a1
  · rw [lineOrdered, if_pos hlt, lineOrdered, if_neg hlt.not_gt]
  · rw [sub_self, abs_zero, abs_nonpos_iff, sub_eq_zero] at h
    rw [h]
  · rw [lineOrdered, if_neg hgt.not_gt, lineOrdered, if_pos hgt]

/-- A line and its reverse are the same sequence of Plots. -/
theorem linePoints_comm (x0 y0 x1 y1 : Int) : linePoints x1 y1 x0 y0 = linePoints x0 y0 x1 y1 := by
  obtain h | h := lt_or_ge |x1 - x0| |y1 - y0|
  · rw [linePoints_of_lt h, linePoints_of_lt (by rwa [abs_sub_comm x0, abs_sub_comm y0]), linePoints_of_le h.le,
      linePoints_of_le (by rw [abs_sub_comm x0, abs_sub_comm y0]; exact h.le), lineOrdered_comm h.le]
  · rw [linePoints_of_le h, linePoints_of_le (by rwa [abs_sub_comm x0, abs_sub_comm y0]), lineOrdered_comm h]

/-- Settles O46. -/
theorem lineGeometry : Obligations.LineGeometry := by
  intro x0 y0 x1 y1
  obtain ⟨hlength, hstart, hfinish, hnear, hchain⟩ := traces_linePoints x0 y0 x1 y1
  exact ⟨hlength, hstart, hfinish, hnear, hchain, fun p => by rw [linePoints_comm]⟩

end Sys2Proof.Machine

/-! ## Lines and rectangles -/

namespace Sys2Proof.Machine

open Sys2Proof.Claims

/-- The outline is where the rectangle meets its first and last column and row. -/
theorem mem_rectPoints {x y w h : Int} {p : Point} :
    p ∈ rectPoints x y w h ↔ x ≤ p.x ∧ p.x < x + w ∧ y ≤ p.y ∧ p.y < y + h ∧
      (p.x = x ∨ p.x = x + w - 1 ∨ p.y = y ∨ p.y = y + h - 1) := by
  unfold rectPoints
  split
  · simp only [List.not_mem_nil, false_iff]
    omega
  · simp only [List.mem_append, mem_hrun, mem_vrun]
    omega

/-- Settles O30. -/
theorem pixelDrawsOnePixel : Obligations.PixelDrawsOnePixel :=
  ⟨decode_eq_ok_iff.mpr rfl, fun _ h => draws_of_points h rfl fun _ _ _ => by
    rw [List.mem_singleton, Point.mk.injEq]⟩

/-- Settles O31. -/
theorem lineDrawsTheLine : Obligations.LineDrawsTheLine :=
  ⟨decode_eq_ok_iff.mpr rfl, fun _ h => draws_of_points h rfl fun _ _ _ => mem_linePoints.symm⟩

/-- Settles O32. -/
theorem vlineDrawsTheRun : Obligations.VlineDrawsTheRun :=
  ⟨decode_eq_ok_iff.mpr rfl, fun _ h => draws_of_points h rfl fun x y _ => (mem_vrun (p := ⟨x, y⟩)).symm⟩

/-- Settles O33. -/
theorem hlineDrawsTheRun : Obligations.HlineDrawsTheRun :=
  ⟨decode_eq_ok_iff.mpr rfl, fun _ h => draws_of_points h rfl fun x y _ => (mem_hrun (p := ⟨x, y⟩)).symm⟩

/-- Settles O34. -/
theorem rectDrawsTheOutline : Obligations.RectDrawsTheOutline :=
  ⟨decode_eq_ok_iff.mpr rfl, fun _ h => draws_of_points h rfl fun x y _ => (mem_rectPoints (p := ⟨x, y⟩)).symm⟩

/-- Settles O35. -/
theorem fillRectDrawsTheRectangle : Obligations.FillRectDrawsTheRectangle :=
  ⟨decode_eq_ok_iff.mpr rfl, fun _ h => draws_of_points h rfl fun x y _ => (mem_fillRectPoints (p := ⟨x, y⟩)).symm⟩

end Sys2Proof.Machine

/-! ## Circles and round rectangles -/

namespace Sys2Proof.Machine

open Sys2Proof.Claims

/-! ### The accumulators in closed form (42_circles.md R210) -/

/-- What R210's `f` holds at (x, y): the sign says on which side of the circle (x + 1, y − 1/2) lies. -/
def circleError (r x y : Int) : Int := (x + 1) * (x + 1) + y * y - y - r * r

/-- The y of the step after (x, y). -/
def nextY (r x y : Int) : Int := if 0 ≤ circleError r x y then y - 1 else y

/-- The loop from (x, y), its accumulators in closed form. -/
def stepsFrom (r : Int) (n : Nat) (x y : Int) : List (Int × Int) :=
  circleLoop n (circleError r x y) (2 * x + 1) (-2 * y) x y

theorem circleSteps_eq (r : Int) : circleSteps r = stepsFrom r r.toNat 0 r := by
  rw [circleSteps, stepsFrom]
  congr 1
  rw [circleError]
  ring

/-- What a turn of the loop that keeps y adds to `f`. -/
theorem circleError_across (r x y : Int) : circleError r (x + 1) y = circleError r x y + (2 * x + 1 + 2) := by
  simp only [circleError]
  ring

/-- What a turn of the loop that lowers y adds to `f`. -/
theorem circleError_down (r x y : Int) :
    circleError r (x + 1) (y - 1) = circleError r x y + (-2 * y + 2) + (2 * x + 1 + 2) := by
  simp only [circleError]
  ring

/-- One turn of the loop keeps the closed forms. -/
theorem stepsFrom_succ (r : Int) (n : Nat) (x y : Int) : stepsFrom r (n + 1) x y =
    if x < y then (x + 1, nextY r x y) :: stepsFrom r n (x + 1) (nextY r x y) else [] := by
  have hddx : 2 * (x + 1) + 1 = 2 * x + 1 + 2 := by ring
  have hddy : -2 * (y - 1) = -2 * y + 2 := by ring
  simp only [stepsFrom, circleLoop, nextY, ge_iff_le, decide_eq_true_eq]
  split
  · split
    · rw [circleError_down, hddx, hddy]
    · rw [circleError_across, hddx]
  · rfl

theorem nextY_cases (r x y : Int) :
    0 ≤ circleError r x y ∧ nextY r x y = y - 1 ∨ circleError r x y < 0 ∧ nextY r x y = y := by
  rw [nextY]
  split <;> omega

/-! ### The geometry of the steps -/

theorem length_stepsFrom_le (r : Int) (n : Nat) (x y : Int) : (stepsFrom r n x y).length ≤ n := by
  induction n generalizing x y with
  | zero => exact le_rfl
  | succ n ih =>
    rw [stepsFrom_succ]
    split
    · exact Nat.succ_le_succ (ih ..)
    · exact Nat.zero_le _

theorem fst_stepsFrom (r : Int) (n : Nat) (x y : Int) : (stepsFrom r n x y).map Prod.fst =
    (List.range (stepsFrom r n x y).length).map (fun (k : Nat) => x + k + 1) := by
  induction n generalizing x y with
  | zero => rfl
  | succ n ih =>
    rw [stepsFrom_succ]
    split
    · rw [List.map_cons, ih, List.length_cons, List.range_succ_eq_map, List.map_cons, List.map_map]
      simp [Function.comp_def, add_assoc, add_comm (1 : Int)]
    · rfl

theorem isChain_stepsFrom (r : Int) (n : Nat) (x y : Int) :
    ((x, y) :: stepsFrom r n x y).IsChain (fun p q => p.1 < p.2 ∧ (q.2 = p.2 ∨ q.2 = p.2 - 1)) := by
  induction n generalizing x y with
  | zero => exact .singleton _
  | succ n ih =>
    rw [stepsFrom_succ]
    split
    · next hxy => exact .cons_cons ⟨hxy, by have := nextY_cases r x y; omega⟩ (ih ..)
    · exact .singleton _

/-- Each turn brings y − x closer to 0, so y − x turns reach it. -/
theorem getLast_stepsFrom {r : Int} {n : Nat} {x y : Int} (hn : y - x ≤ n) {q : Int × Int}
    (hq : ((x, y) :: stepsFrom r n x y).getLast? = some q) : q.2 ≤ q.1 := by
  induction n generalizing x y with
  | zero =>
    obtain rfl : (x, y) = q := Option.some.inj hq
    omega
  | succ n ih =>
    rw [stepsFrom_succ] at hq
    split at hq
    · rw [List.getLast?_cons_cons] at hq
      exact ih (by have := nextY_cases r x y; omega) hq
    · obtain rfl : (x, y) = q := Option.some.inj hq
      exact not_lt.mp ‹_›

/-- (x, y) lies in the quadrant, within half a pixel of the circle of radius r. That the inner bound is strict until the
loop ends is what carries the bound over a step down. -/
structure NearCircle (r x y : Int) : Prop where
  x_bounds : 0 ≤ x ∧ x ≤ r
  y_bounds : 0 ≤ y ∧ y ≤ r
  inner    : x * x + y * y - y ≤ r * r
  outer    : r * r ≤ x * x + y * y + y
  strict   : x < y → x * x + y * y - y < r * r

theorem nearCircle_start {r : Int} (hr : 0 ≤ r) : NearCircle r 0 r := by
  constructor <;> omega

theorem NearCircle.next {r x y : Int} (h : NearCircle r x y) (hxy : x < y) : NearCircle r (x + 1) (nextY r x y) := by
  obtain ⟨hx, hy, -, houter, hstrict⟩ := h
  have hlt := hstrict hxy
  have hsquare : (x + 1) * (x + 1) = x * x + 2 * x + 1 := by ring
  obtain ⟨hf, he⟩ | ⟨hf, he⟩ := nextY_cases r x y <;> rw [circleError] at hf <;> rw [he]
  · have hdown : (y - 1) * (y - 1) = y * y - 2 * y + 1 := by ring
    constructor <;> omega
  · constructor <;> omega

theorem nearCircle_of_mem_stepsFrom {r : Int} {n : Nat} {x y : Int} (h : NearCircle r x y) {q : Int × Int}
    (hq : q ∈ stepsFrom r n x y) : NearCircle r q.1 q.2 := by
  induction n generalizing x y with
  | zero => exact absurd hq List.not_mem_nil
  | succ n ih =>
    rw [stepsFrom_succ] at hq
    split at hq
    · next hxy =>
      obtain rfl | hq := List.mem_cons.mp hq
      · exact h.next hxy
      · exact ih (h.next hxy) hq
    · exact absurd hq List.not_mem_nil

theorem circleSteps_of_nonpos {r : Int} (hr : r ≤ 0) : circleSteps r = [] := by
  rw [circleSteps, Int.toNat_of_nonpos hr, circleLoop]

theorem nearCircle_of_mem_circleSteps {r : Int} {q : Int × Int} (hq : q ∈ circleSteps r) : NearCircle r q.1 q.2 := by
  obtain hr | hr := le_total r 0
  · rw [circleSteps_of_nonpos hr] at hq
    exact absurd hq List.not_mem_nil
  · rw [circleSteps_eq] at hq
    exact nearCircle_of_mem_stepsFrom (nearCircle_start hr) hq

/-- Settles O47. -/
theorem circleStepsFollowTheCircle : Obligations.CircleStepsFollowTheCircle := by
  intro r hr
  refine ⟨?_, ?_, ?_, ?_, fun q hq => ?_⟩
  · rw [circleSteps_eq]
    exact length_stepsFrom_le ..
  · rw [circleSteps_eq, fst_stepsFrom]
    simp only [zero_add]
  · rw [circleSteps_eq]
    exact isChain_stepsFrom ..
  · rw [circleSteps_eq]
    exact fun q => getLast_stepsFrom (by omega)
  · obtain ⟨-, hy, hinner, houter, -⟩ := nearCircle_of_mem_circleSteps hq
    exact ⟨hy.1, hinner, houter⟩

/-! ### The sets of points of the arcs -/

theorem stepOf_comm {r a b : Int} : stepOf r a b ↔ stepOf r b a := or_comm

theorem stepOf_bounds {r a b : Int} (h : stepOf r a b) : 0 ≤ a ∧ a ≤ r ∧ 0 ≤ b ∧ b ≤ r := by
  obtain h | h := h
  all_goals
    obtain ⟨hx, hy, -, -, -⟩ := nearCircle_of_mem_circleSteps h
    omega

theorem not_stepOf_of_nonpos {r a b : Int} (hr : r ≤ 0) : ¬ stepOf r a b := by
  rw [stepOf, circleSteps_of_nonpos hr]
  simp

/-- What is drawn for each step and for its mirror image is drawn for each of `stepOf`. -/
theorem mem_flatMap_circleSteps {r : Int} {f : Int × Int → List Point} {p : Point} {P : Int → Int → Prop}
    (h : ∀ a b, 0 ≤ a → 0 ≤ b → (p ∈ f (a, b) ↔ P a b ∨ P b a)) :
    p ∈ (circleSteps r).flatMap f ↔ ∃ a b, stepOf r a b ∧ P a b := by
  have hmem : ∀ a b, (a, b) ∈ circleSteps r → (p ∈ f (a, b) ↔ P a b ∨ P b a) := fun a b hq =>
    have hnear := nearCircle_of_mem_circleSteps hq
    h a b hnear.x_bounds.1 hnear.y_bounds.1
  rw [List.mem_flatMap]
  constructor
  · rintro ⟨⟨a, b⟩, hq, hp⟩
    obtain hp | hp := (hmem a b hq).mp hp
    · exact ⟨a, b, .inl hq, hp⟩
    · exact ⟨b, a, .inr hq, hp⟩
  · rintro ⟨a, b, hq | hq, hp⟩
    · exact ⟨(a, b), hq, (hmem a b hq).mpr (.inl hp)⟩
    · exact ⟨(b, a), hq, (hmem b a hq).mpr (.inr hp)⟩

theorem mem_ifBit {b : Bool} {ps : List Point} {p : Point} : p ∈ ifBit b ps ↔ b = true ∧ p ∈ ps := by
  cases b <;> simp [ifBit]

/-- The four masks of R212. -/
theorem mem_arcPoints {x0 y0 r : Int} {m : BitVec 4} {p : Point} : p ∈ arcPoints x0 y0 r m ↔
    ∃ a b, stepOf r a b ∧
      (m.getLsbD 2 = true ∧ p.x = x0 + a ∧ p.y = y0 + b ∨ m.getLsbD 1 = true ∧ p.x = x0 + a ∧ p.y = y0 - b ∨
       m.getLsbD 3 = true ∧ p.x = x0 - a ∧ p.y = y0 + b ∨ m.getLsbD 0 = true ∧ p.x = x0 - a ∧ p.y = y0 - b) := by
  refine mem_flatMap_circleSteps fun a b _ _ => ?_
  obtain ⟨x, y⟩ := p
  simp only [List.mem_append, mem_ifBit, List.mem_cons, List.not_mem_nil, or_false, Point.mk.injEq, and_or_left]
  exact iff_of_eq (by ac_rfl)

/-- The two sides of R213. -/
theorem mem_fillArcPoints {x0 y0 r d : Int} {m : BitVec 2} {p : Point} : p ∈ fillArcPoints x0 y0 r m d ↔
    ∃ a b, stepOf r a b ∧ (m.getLsbD 0 = true ∧ p.x = x0 + a ∨ m.getLsbD 1 = true ∧ p.x = x0 - a) ∧
      y0 - b ≤ p.y ∧ p.y ≤ y0 + b + d := by
  refine mem_flatMap_circleSteps fun a b _ _ => ?_
  have hrun : ∀ c : Int, p.y < y0 - c + (2 * c + 1 + d) ↔ p.y ≤ y0 + c + d := by omega
  simp only [List.mem_append, mem_ifBit, mem_vrun, hrun, and_or_left, or_and_right, and_assoc]
  exact iff_of_eq (by ac_rfl)

/-! ### Circles -/

theorem abs_sub_eq_iff {a : Int} (ha : 0 ≤ a) (v v0 : Int) : |v - v0| = a ↔ v = v0 + a ∨ v = v0 - a := by
  rw [abs_eq ha]
  omega

theorem mem_circlePoints {x0 y0 r : Int} {p : Point} : p ∈ circlePoints x0 y0 r ↔ onCircle x0 y0 r p.x p.y := by
  unfold circlePoints onCircle
  split
  · simp only [List.not_mem_nil, false_iff]
    omega
  · next hr =>
    rw [and_iff_right (not_lt.mp hr), List.mem_append, ← or_assoc, mem_flatMap_circleSteps
      (P := fun a b => |p.x - x0| = a ∧ |p.y - y0| = b) fun a b ha hb => ?steps]
    case steps =>
      obtain ⟨x, y⟩ := p
      simp only [List.mem_cons, List.not_mem_nil, or_false, Point.mk.injEq, abs_sub_eq_iff ha, abs_sub_eq_iff hb,
        and_or_left, or_and_right]
      exact iff_of_eq (by ac_rfl)
    refine or_congr ?_ (by simp)
    obtain ⟨x, y⟩ := p
    simp only [List.mem_cons, List.not_mem_nil, or_false, Point.mk.injEq, abs_sub_eq_iff le_rfl,
      abs_sub_eq_iff (not_lt.mp hr)]
    omega

theorem mem_fillCirclePoints {x0 y0 r : Int} {p : Point} :
    p ∈ fillCirclePoints x0 y0 r ↔ inDisc x0 y0 r p.x p.y := by
  unfold fillCirclePoints inDisc
  split
  · simp only [List.not_mem_nil, false_iff]
    omega
  · next hr =>
    rw [and_iff_right (not_lt.mp hr), List.mem_append, mem_vrun, mem_fillArcPoints]
    refine or_congr (by rw [abs_le]; omega) ?_
    constructor
    · rintro ⟨a, b, hstep, hx, hy⟩
      refine ⟨b, ?_, abs_le.mpr (by omega)⟩
      rwa [(abs_sub_eq_iff (stepOf_bounds hstep).1 ..).mpr (hx.imp And.right And.right)]
    · rintro ⟨b, hstep, hy⟩
      rw [abs_le] at hy
      have hx := (abs_sub_eq_iff (stepOf_bounds hstep).1 ..).mp rfl
      exact ⟨_, b, hstep, hx.imp (.intro rfl) (.intro rfl), by omega, by omega⟩

/-- Settles O38. -/
theorem circleDrawsTheOutline : Obligations.CircleDrawsTheOutline :=
  ⟨decode_eq_ok_iff.mpr rfl, fun _ h => draws_of_points h rfl fun x y _ => (mem_circlePoints (p := ⟨x, y⟩)).symm⟩

/-- Settles O39. -/
theorem fillCircleDrawsTheDisc : Obligations.FillCircleDrawsTheDisc :=
  ⟨decode_eq_ok_iff.mpr rfl, fun _ h => draws_of_points h rfl fun x y _ => (mem_fillCirclePoints (p := ⟨x, y⟩)).symm⟩

/-- Settles O48: both shapes depend on a pixel's distances to the centre's column and row only. -/
theorem circleSymmetry : Obligations.CircleSymmetry := by
  intro x0 y0 r dx dy
  simp only [mem_circlePoints, mem_fillCirclePoints, onCircle, inDisc, add_sub_cancel_left, sub_sub_cancel_left, abs_neg]
  refine ⟨fun h => ⟨h, h, ?_⟩, fun h => ⟨?_, h⟩⟩
  · rw [stepOf_comm]
    tauto
  · rwa [sub_eq_self, ← add_eq_left]

/-! ### Round rectangles -/

theorem mem_roundOutline {x y w h r : Int} (hw : 0 < w) (hh : 0 < h) {p : Point} :
    p ∈ roundOutline x y w h r ↔ onRoundRect x y w h r p.x p.y := by
  have hcorners : (p ∈ arcPoints (x + r) (y + r) r 1 ∨ p ∈ arcPoints (x + w - r - 1) (y + r) r 2 ∨
      p ∈ arcPoints (x + w - r - 1) (y + h - r - 1) r 4 ∨ p ∈ arcPoints (x + r) (y + h - r - 1) r 8) ↔
      ∃ a b, stepOf r a b ∧ (p.x = x + r - a ∨ p.x = x + w - r - 1 + a) ∧
        (p.y = y + r - b ∨ p.y = y + h - r - 1 + b) := by
    simp only [mem_arcPoints, ← exists_or, ← and_or_left]
    refine exists_congr fun a => exists_congr fun b => and_congr_right fun _ => ?_
    simp +decide only [true_and, false_and, or_false, false_or, and_or_left, or_and_right]
    exact iff_of_eq (by ac_rfl)
  have hrows : (p ∈ hrun (x + r) y (w - 2 * r) ∨ p ∈ hrun (x + r) (y + h - 1) (w - 2 * r)) ↔
      x + r ≤ p.x ∧ p.x ≤ x + w - r - 1 ∧ (p.y = y ∨ p.y = y + h - 1) := by
    rw [mem_hrun, mem_hrun]
    omega
  have hcols : (p ∈ vrun x (y + r) (h - 2 * r) ∨ p ∈ vrun (x + w - 1) (y + r) (h - 2 * r)) ↔
      y + r ≤ p.y ∧ p.y ≤ y + h - r - 1 ∧ (p.x = x ∨ p.x = x + w - 1) := by
    rw [mem_vrun, mem_vrun]
    omega
  rw [onRoundRect, and_iff_right hw, and_iff_right hh, ← hrows, ← hcols, ← hcorners]
  simp only [roundOutline, List.mem_append, or_assoc]

theorem mem_roundFill {x y w h r : Int} (hw : 0 < w) (hh : 0 < h) {p : Point} :
    p ∈ roundFill x y w h r ↔ inRoundRect x y w h r p.x p.y := by
  rw [inRoundRect, and_iff_right hw, and_iff_right hh, roundFill, List.mem_append, List.mem_append, or_assoc,
    mem_fillRectPoints]
  refine or_congr (by omega) ?_
  simp only [mem_fillArcPoints, ← exists_or, ← and_or_left]
  refine exists_congr fun a => exists_congr fun b => and_congr_right fun _ => ?_
  simp +decide only [true_and, false_and, or_false, false_or]
  omega

theorem mem_roundRectPoints {x y w h r : Int} {p : Point} :
    p ∈ roundRectPoints x y w h r ↔ onRoundRect x y w h (roundRadius w h r) p.x p.y := by
  unfold roundRectPoints
  split
  · simp only [List.not_mem_nil, onRoundRect, false_iff]
    omega
  · exact mem_roundOutline (by omega) (by omega)

theorem mem_fillRoundRectPoints {x y w h r : Int} {p : Point} :
    p ∈ fillRoundRectPoints x y w h r ↔ inRoundRect x y w h (roundRadius w h r) p.x p.y := by
  unfold fillRoundRectPoints
  split
  · simp only [List.not_mem_nil, inRoundRect, false_iff]
    omega
  · exact mem_roundFill (by omega) (by omega)

/-- Settles O36. -/
theorem roundRectDrawsTheOutline : Obligations.RoundRectDrawsTheOutline :=
  ⟨decode_eq_ok_iff.mpr rfl, fun _ h => draws_of_points h rfl fun x y _ => (mem_roundRectPoints (p := ⟨x, y⟩)).symm⟩

/-- Settles O37. -/
theorem fillRoundRectDrawsTheShape : Obligations.FillRoundRectDrawsTheShape :=
  ⟨decode_eq_ok_iff.mpr rfl, fun _ h => draws_of_points h rfl fun x y _ => (mem_fillRoundRectPoints (p := ⟨x, y⟩)).symm⟩

theorem roundRadius_of_nonpos {w h r : Int} (hr : r ≤ 0) : roundRadius w h r = 0 :=
  max_eq_left (min_le_of_left_le hr)

/-- R215: after the clamp 0 ≤ r and 2r ≤ min(w, h). -/
theorem roundRadius_bounds {w h : Int} (hw : 0 < w) (hh : 0 < h) (r : Int) :
    0 ≤ roundRadius w h r ∧ 2 * roundRadius w h r ≤ w ∧ 2 * roundRadius w h r ≤ h := by
  rw [roundRadius, Int.tdiv_eq_ediv_of_nonneg (by omega)]
  omega

theorem onRoundRect_zero {x0 y0 w h x y : Int} : onRoundRect x0 y0 w h 0 x y ↔
    x0 ≤ x ∧ x < x0 + w ∧ y0 ≤ y ∧ y < y0 + h ∧ (x = x0 ∨ x = x0 + w - 1 ∨ y = y0 ∨ y = y0 + h - 1) := by
  simp only [onRoundRect, not_stepOf_of_nonpos le_rfl, false_and, exists_false, or_false]
  omega

theorem inRoundRect_zero {x0 y0 w h x y : Int} : inRoundRect x0 y0 w h 0 x y ↔
    x0 ≤ x ∧ x < x0 + w ∧ y0 ≤ y ∧ y < y0 + h := by
  simp only [inRoundRect, not_stepOf_of_nonpos le_rfl, false_and, exists_false, or_false]
  omega

section
variable {x0 y0 w h r x y : Int}

/-- With a clamped radius the arcs reach no further than the rectangle's edges. -/
theorem inside_of_onRoundRect (hp : onRoundRect x0 y0 w h (roundRadius w h r) x y) :
    x0 ≤ x ∧ x < x0 + w ∧ y0 ≤ y ∧ y < y0 + h := by
  obtain ⟨hw, hh, hp⟩ := hp
  have hr := roundRadius_bounds hw hh r
  obtain hp | hp | ⟨a, b, hstep, hp⟩ := hp
  · omega
  · omega
  · have hb := stepOf_bounds hstep
    omega

theorem inside_of_inRoundRect (hp : inRoundRect x0 y0 w h (roundRadius w h r) x y) :
    x0 ≤ x ∧ x < x0 + w ∧ y0 ≤ y ∧ y < y0 + h := by
  obtain ⟨hw, hh, hp⟩ := hp
  have hr := roundRadius_bounds hw hh r
  obtain hp | ⟨a, b, hstep, hp⟩ := hp
  · omega
  · have hb := stepOf_bounds hstep
    omega

end

/-- Settles O49. -/
theorem roundRectanglesStayInTheRectangle : Obligations.RoundRectanglesStayInTheRectangle := by
  intro x y w h r
  refine ⟨fun hr p => ?_, fun p hp => ?_⟩
  · rw [mem_roundRectPoints, mem_fillRoundRectPoints, roundRadius_of_nonpos hr, mem_rectPoints, mem_fillRectPoints]
    exact ⟨onRoundRect_zero, inRoundRect_zero⟩
  · rw [mem_roundRectPoints, mem_fillRoundRectPoints] at hp
    exact hp.elim inside_of_onRoundRect inside_of_inRoundRect

end Sys2Proof.Machine

/-! ## Triangles -/

namespace Sys2Proof.Machine

open Sys2Proof.Claims

/-- Settles O40. -/
theorem triangleDrawsThreeLines : Obligations.TriangleDrawsThreeLines :=
  ⟨decode_eq_ok_iff.mpr rfl, fun _ h => draws_of_points h rfl fun _ _ _ => by
    simp only [trianglePoints, List.mem_append, mem_linePoints, or_assoc]⟩

/-! ### The row loop in closed form (43_triangles.md R242 to R245) -/

theorem mem_spanPoints {a b y : Int} {p : Point} : p ∈ spanPoints a b y ↔ p.y = y ∧ between a b p.x := by
  unfold spanPoints between
  split <;> rw [mem_hrun] <;> omega

/-- The span of R242 reaches from the smallest to the largest x. -/
theorem mem_flatSpan {p0 p1 p2 p : Point} : p ∈ flatSpan p0 p1 p2 ↔
    p.y = p0.y ∧ min p0.x (min p1.x p2.x) ≤ p.x ∧ p.x ≤ max p0.x (max p1.x p2.x) := by
  have hstretch : ∀ (ab : Int × Int) (x : Int), ab.1 ≤ ab.2 → stretch ab x = (min ab.1 x, max ab.2 x) := by
    intro ab x hab
    unfold stretch
    split_ifs <;> ext <;> dsimp only <;> omega
  rw [flatSpan, hstretch (p0.x, p0.x) _ le_rfl, hstretch _ _ (by dsimp only; omega), mem_hrun]
  dsimp only
  omega

/-- The loop between the edges p-q and u-v: its accumulators in row `y` are dx · (y − the edge's first row). -/
theorem mem_triRows {p q u v w : Point} {n : Nat} {y : Int} :
    w ∈ triRows p.x (q.x - p.x) (q.y - p.y) u.x (v.x - u.x) (v.y - u.y) n y
      ((q.x - p.x) * (y - p.y)) ((v.x - u.x) * (y - u.y)) ↔
    y ≤ w.y ∧ w.y < y + n ∧ between (intercept p q w.y) (intercept u v w.y) w.x := by
  induction n generalizing y with
  | zero =>
    simp only [triRows, List.not_mem_nil, false_iff]
    omega
  | succ n ih =>
    have hnext : ∀ d y0 : Int, d * (y - y0) + d = d * (y + 1 - y0) := fun d y0 => by ring
    simp only [triRows, List.mem_append, mem_spanPoints, hnext, ih]
    constructor
    · rintro (⟨rfl, hx⟩ | ⟨h0, h1, hx⟩)
      · rw [mul_comm (q.x - p.x), mul_comm (v.x - u.x)] at hx
        exact ⟨le_rfl, by omega, hx⟩
      · exact ⟨by omega, by omega, hx⟩
    · rintro ⟨h0, h1, hx⟩
      obtain rfl | h0 := h0.eq_or_lt
      · rw [mul_comm (q.x - p.x), mul_comm (v.x - u.x)]
        exact .inl ⟨rfl, hx⟩
      · exact .inr ⟨by omega, by omega, hx⟩

/-- The rows above p1, and its own where no lower sub-triangle follows (R243). -/
theorem mem_upperRows {p0 p1 p2 p : Point} (h01 : p0.y ≤ p1.y) (h12 : p1.y ≤ p2.y) : p ∈ upperRows p0 p1 p2 ↔
    p0.y ≤ p.y ∧ p.y ≤ p2.y ∧ (p.y < p1.y ∨ p1.y = p2.y) ∧
      between (intercept p0 p1 p.y) (intercept p0 p2 p.y) p.x := by
  have h := mem_triRows (p := p0) (q := p1) (u := p0) (v := p2) (w := p)
    (n := (lastUpper p1 p2 - p0.y + 1).toNat) (y := p0.y)
  rw [sub_self, mul_zero, mul_zero] at h
  rw [upperRows, h]
  simp only [← and_assoc]
  refine and_congr_left' ?_
  unfold lastUpper
  split <;> omega

/-- The rows the upper sub-triangle leaves. -/
theorem mem_lowerRows {p0 p1 p2 p : Point} (h01 : p0.y ≤ p1.y) (h12 : p1.y ≤ p2.y) : p ∈ lowerRows p0 p1 p2 ↔
    p0.y ≤ p.y ∧ p.y ≤ p2.y ∧ ¬ (p.y < p1.y ∨ p1.y = p2.y) ∧
      between (intercept p1 p2 p.y) (intercept p0 p2 p.y) p.x := by
  rw [lowerRows, mem_triRows]
  simp only [← and_assoc]
  refine and_congr_left' ?_
  unfold lastUpper
  split <;> omega

theorem mem_fillSorted {p0 p1 p2 p : Point} (h01 : p0.y ≤ p1.y) (h12 : p1.y ≤ p2.y) :
    p ∈ fillSorted p0 p1 p2 ↔ inTriangle p0 p1 p2 p.x p.y := by
  unfold fillSorted inTriangle
  split
  · rw [mem_flatSpan]
    omega
  · rw [List.mem_append, mem_upperRows h01 h12, mem_lowerRows h01 h12, ite_prop_iff_or, and_or_left, and_or_left]

/-! ### The row's span, whatever the order of the vertices -/

/-- `a` is where row `y` meets a vertex or an edge (a vertex being an edge to itself). -/
def meetsRow (vs : List Point) (y a : Int) : Prop :=
  ∃ p ∈ vs, ∃ q ∈ vs, p.y ≤ y ∧ y ≤ q.y ∧ a = intercept p q y

/-- (x, y) lies between two such places. -/
def inRowSpan (vs : List Point) (x y : Int) : Prop :=
  ∃ a b, meetsRow vs y a ∧ meetsRow vs y b ∧ a ≤ x ∧ x ≤ b

theorem inRowSpan_congr {vs ws : List Point} (h : vs.Perm ws) (x y : Int) :
    inRowSpan vs x y ↔ inRowSpan ws x y := by
  simp only [inRowSpan, meetsRow, h.mem_iff]

theorem intercept_first (p q : Point) : intercept p q p.y = p.x := by
  rw [intercept, sub_self, zero_mul, Int.zero_tdiv, add_zero]

theorem intercept_last {p q : Point} (h : p.y < q.y) : intercept p q q.y = q.x := by
  rw [intercept, Int.mul_tdiv_cancel_left _ (sub_pos.mpr h).ne', add_sub_cancel]

/-- An edge stays between its ends (R248): its dividend goes from 0 to dy · dx. -/
theorem between_intercept {p q : Point} {y : Int} (h0 : p.y ≤ y) (h1 : y ≤ q.y) :
    between p.x q.x (intercept p q y) := by
  obtain h | h := (h0.trans h1).eq_or_lt
  · obtain rfl : y = p.y := by omega
    rw [intercept_first, between]
    omega
  · have hD := sub_pos.mpr h
    have hk := sub_nonneg.mpr h0
    have hkD := sub_le_sub_right h1 p.y
    have hlast := Int.mul_tdiv_cancel_left (q.x - p.x) hD.ne'
    rw [between, intercept]
    obtain hd | hd := le_total 0 (q.x - p.x)
    · have := Int.tdiv_nonneg (mul_nonneg hk hd) hD.le
      have := Int.tdiv_le_tdiv hD (mul_le_mul_of_nonneg_right hkD hd)
      omega
    · have hle := Int.tdiv_le_tdiv hD (mul_nonpos_of_nonneg_of_nonpos hk hd)
      have := Int.tdiv_le_tdiv hD (mul_le_mul_of_nonpos_right hkD hd)
      rw [Int.zero_tdiv] at hle
      omega

section
variable {vs : List Point} {p q : Point}

theorem meetsRow_intercept {y : Int} (hp : p ∈ vs) (hq : q ∈ vs) (h0 : p.y ≤ y) (h1 : y ≤ q.y) :
    meetsRow vs y (intercept p q y) := ⟨p, hp, q, hq, h0, h1, rfl⟩

theorem meetsRow_vertex (hp : p ∈ vs) : meetsRow vs p.y p.x :=
  ⟨p, hp, p, hp, le_rfl, le_rfl, (intercept_first p p).symm⟩

/-- A row meets a vertex, or an edge strictly between its ends. -/
theorem meetsRow_cases {y a : Int} (h : meetsRow vs y a) : (∃ p ∈ vs, y = p.y ∧ a = p.x) ∨
    ∃ p ∈ vs, ∃ q ∈ vs, p.y < y ∧ y < q.y ∧ a = intercept p q y := by
  obtain ⟨p, hp, q, hq, h0, h1, rfl⟩ := h
  obtain rfl | h0 := h0.eq_or_lt
  · exact .inl ⟨p, hp, rfl, intercept_first p q⟩
  obtain rfl | h1 := h1.eq_or_lt
  · exact .inl ⟨q, hq, rfl, intercept_last h0⟩
  · exact .inr ⟨p, hp, q, hq, h0, h1, rfl⟩

end

theorem mem_triple {p0 p1 p2 p : Point} : p ∈ [p0, p1, p2] ↔ p = p0 ∨ p = p1 ∨ p = p2 := by
  simp only [List.mem_cons, List.not_mem_nil, or_false]

section
variable {p0 p1 p2 : Point}

theorem meetsRow_iff_of_flat (h1 : p1.y = p0.y) (h2 : p2.y = p0.y) {y a : Int} :
    meetsRow [p0, p1, p2] y a ↔ y = p0.y ∧ (a = p0.x ∨ a = p1.x ∨ a = p2.x) := by
  have hflat : ∀ p ∈ [p0, p1, p2], p.y = p0.y := by simp [h1, h2]
  constructor
  · intro h
    obtain ⟨p, hp, rfl, rfl⟩ | ⟨p, hp, q, hq, hpy, hqy, -⟩ := meetsRow_cases h
    · exact ⟨hflat p hp, (mem_triple.mp hp).imp (congrArg _) (.imp (congrArg _) (congrArg _))⟩
    · have := hflat p hp
      have := hflat q hq
      omega
  · rintro ⟨rfl, rfl | rfl | rfl⟩
    · exact meetsRow_vertex (by simp)
    · exact h1 ▸ meetsRow_vertex (by simp)
    · exact h2 ▸ meetsRow_vertex (by simp)

/-- The x in row `y` of the edge that runs from p0 over p1 to p2. -/
def bentIntercept (p0 p1 p2 : Point) (y : Int) : Int :=
  if y < p1.y ∨ p1.y = p2.y then intercept p0 p1 y else intercept p1 p2 y

theorem inTriangle_iff_of_lt (h02 : p0.y < p2.y) {x y : Int} : inTriangle p0 p1 p2 x y ↔
    p0.y ≤ y ∧ y ≤ p2.y ∧ between (bentIntercept p0 p1 p2 y) (intercept p0 p2 y) x := by
  unfold inTriangle bentIntercept
  rw [if_neg h02.ne]
  split <;> rfl

/-- The two places where a row meets the outline. Where the row is a vertex's, the edges that end there agree. -/
theorem meetsRow_iff_of_lt (h01 : p0.y ≤ p1.y) (h12 : p1.y ≤ p2.y) (h02 : p0.y < p2.y) {y a : Int} :
    meetsRow [p0, p1, p2] y a ↔
      p0.y ≤ y ∧ y ≤ p2.y ∧ (a = bentIntercept p0 p1 p2 y ∨ a = intercept p0 p2 y) := by
  unfold bentIntercept
  constructor
  · intro h
    obtain ⟨p, hp, rfl, rfl⟩ | ⟨p, hp, q, hq, hpy, hqy, rfl⟩ := meetsRow_cases h
    · obtain rfl | rfl | rfl := mem_triple.mp hp
      · exact ⟨le_rfl, h02.le, .inr (intercept_first ..).symm⟩
      · refine ⟨h01, h12, .inl ?_⟩
        split
        · exact (intercept_last (by omega)).symm
        · exact (intercept_first ..).symm
      · exact ⟨h02.le, le_rfl, .inr (intercept_last h02).symm⟩
    · obtain rfl | rfl | rfl := mem_triple.mp hp
      · obtain rfl | rfl | rfl := mem_triple.mp hq
        · omega
        · exact ⟨hpy.le, by omega, .inl (if_pos (.inl hqy)).symm⟩
        · exact ⟨hpy.le, hqy.le, .inr rfl⟩
      · obtain rfl | rfl | rfl := mem_triple.mp hq
        · omega
        · omega
        · exact ⟨by omega, hqy.le, .inl (if_neg (by omega)).symm⟩
      · obtain rfl | rfl | rfl := mem_triple.mp hq <;> omega
  · rintro ⟨h0, h1, rfl | rfl⟩
    · split
      · exact meetsRow_intercept (by simp) (by simp) h0 (by omega)
      · exact meetsRow_intercept (by simp) (by simp) (by omega) h1
    · exact meetsRow_intercept (by simp) (by simp) h0 h1

/-- The two ends of a row's span are the least and the greatest place where the row meets the outline. -/
theorem inTriangle_iff_inRowSpan (h01 : p0.y ≤ p1.y) (h12 : p1.y ≤ p2.y) (x y : Int) :
    inTriangle p0 p1 p2 x y ↔ inRowSpan [p0, p1, p2] x y := by
  unfold inRowSpan
  obtain hflat | hlt := (h01.trans h12).eq_or_lt
  · simp only [meetsRow_iff_of_flat (by omega : p1.y = p0.y) hflat.symm]
    rw [inTriangle, if_pos hflat]
    constructor
    · exact fun _ => ⟨min p0.x (min p1.x p2.x), max p0.x (max p1.x p2.x), by omega⟩
    · rintro ⟨a, b, ha, hb, hx⟩
      omega
  · simp only [meetsRow_iff_of_lt h01 h12 hlt]
    rw [inTriangle_iff_of_lt hlt, between]
    constructor
    · exact fun _ => ⟨min (bentIntercept p0 p1 p2 y) (intercept p0 p2 y),
        max (bentIntercept p0 p1 p2 y) (intercept p0 p2 y), by omega⟩
    · rintro ⟨a, b, ha, hb, hx⟩
      omega

end

/-! ### The sort (R241) -/

theorem swapIf_perm (p q : Point) : [(swapIf p q).1, (swapIf p q).2].Perm [p, q] := by
  unfold swapIf
  split
  · exact .swap ..
  · exact .refl _

theorem swapIf_y (p q : Point) : (swapIf p q).1.y = min p.y q.y ∧ (swapIf p q).2.y = max p.y q.y := by
  unfold swapIf
  split <;> dsimp only <;> omega

theorem sortVertices_perm (p0 p1 p2 : Point) :
    [(sortVertices p0 p1 p2).1, (sortVertices p0 p1 p2).2.1, (sortVertices p0 p1 p2).2.2].Perm [p0, p1, p2] :=
  ((swapIf_perm ..).append_right [_]).trans (((swapIf_perm ..).cons _).trans ((swapIf_perm p0 p1).append_right [p2]))

theorem sortVertices_sorted (p0 p1 p2 : Point) :
    (sortVertices p0 p1 p2).1.y ≤ (sortVertices p0 p1 p2).2.1.y ∧
    (sortVertices p0 p1 p2).2.1.y ≤ (sortVertices p0 p1 p2).2.2.y := by
  simp only [sortVertices, swapIf_y]
  omega

theorem mem_fillTrianglePoints {x0 y0 x1 y1 x2 y2 : Int} {p : Point} :
    p ∈ fillTrianglePoints x0 y0 x1 y1 x2 y2 ↔ inRowSpan [⟨x0, y0⟩, ⟨x1, y1⟩, ⟨x2, y2⟩] p.x p.y := by
  obtain ⟨h01, h12⟩ := sortVertices_sorted ⟨x0, y0⟩ ⟨x1, y1⟩ ⟨x2, y2⟩
  rw [fillTrianglePoints, mem_fillSorted h01 h12, inTriangle_iff_inRowSpan h01 h12,
    inRowSpan_congr (sortVertices_perm ..)]

/-- Settles O41. -/
theorem fillTriangleDrawsOneSpanPerRow : Obligations.FillTriangleDrawsOneSpanPerRow :=
  ⟨decode_eq_ok_iff.mpr rfl, fun _ _ _ _ h hperm h01 h12 => draws_of_points h rfl fun _ _ _ => by
    rw [mem_fillTrianglePoints, inTriangle_iff_inRowSpan h01 h12, inRowSpan_congr hperm]⟩

/-! ### Containment (R246, R248) -/

section
variable {vs : List Point} {x y : Int}

/-- What bounds the vertices bounds the shape. -/
theorem inRowSpan_bounds {xmin xmax ymin ymax : Int}
    (hvs : ∀ v ∈ vs, xmin ≤ v.x ∧ v.x ≤ xmax ∧ ymin ≤ v.y ∧ v.y ≤ ymax) (h : inRowSpan vs x y) :
    xmin ≤ x ∧ x ≤ xmax ∧ ymin ≤ y ∧ y ≤ ymax := by
  have hmeets : ∀ a, meetsRow vs y a → xmin ≤ a ∧ a ≤ xmax ∧ ymin ≤ y ∧ y ≤ ymax := by
    rintro a ⟨p, hp, q, hq, h0, h1, rfl⟩
    have hi := between_intercept h0 h1
    have := hvs p hp
    have := hvs q hq
    rw [between] at hi
    omega
  obtain ⟨a, b, ha, hb, hax, hxb⟩ := h
  have := hmeets a ha
  have := hmeets b hb
  omega

theorem exists_inRowSpan (h0 : ∃ p ∈ vs, p.y ≤ y) (h1 : ∃ q ∈ vs, y ≤ q.y) : ∃ x, inRowSpan vs x y := by
  obtain ⟨p, hp, h0⟩ := h0
  obtain ⟨q, hq, h1⟩ := h1
  have h := meetsRow_intercept hp hq h0 h1
  exact ⟨_, _, _, h, h, le_rfl, le_rfl⟩

theorem inRowSpan_of_le {a b : Int} (ha : inRowSpan vs a y) (hb : inRowSpan vs b y) (h0 : a ≤ x) (h1 : x ≤ b) :
    inRowSpan vs x y := by
  obtain ⟨a', -, ha', -, hle, -⟩ := ha
  obtain ⟨-, b', -, hb', -, hge⟩ := hb
  exact ⟨a', b', ha', hb', hle.trans h0, h1.trans hge⟩

theorem inRowSpan_vertex {p : Point} (hp : p ∈ vs) : inRowSpan vs p.x p.y :=
  ⟨_, _, meetsRow_vertex hp, meetsRow_vertex hp, le_rfl, le_rfl⟩

end

/-- Settles O50: a row of the box lies between the rows of two vertices, so it meets their edge. -/
theorem filledTriangleContainment : Obligations.FilledTriangleContainment := by
  intro x0 y0 x1 y1 x2 y2
  simp only [mem_fillTrianglePoints]
  refine ⟨fun p => inRowSpan_bounds ?_, fun y h0 h1 => exists_inRowSpan ?_ ?_, fun _ _ _ _ => inRowSpan_of_le,
    inRowSpan_vertex (p := ⟨x0, y0⟩) ?_, inRowSpan_vertex (p := ⟨x1, y1⟩) ?_, inRowSpan_vertex (p := ⟨x2, y2⟩) ?_⟩
  · intro v hv
    obtain rfl | rfl | rfl := mem_triple.mp hv <;> dsimp only <;> omega
  · simpa [min_le_iff] using h0
  · simpa [le_max_iff] using h1
  all_goals simp

end Sys2Proof.Machine

/-! ## Bitmaps -/

namespace Sys2Proof.Machine

open Sys2Proof.Claims

/-- A source byte past SRCBUF_SIZE has no set bit (20_memory.md R73). -/
theorem getLsbD_src_iff {s : State} {i j : Nat} :
    (src s i).getLsbD j = true ↔ i < s.cfg.srcbufSize ∧ (s.srcbuf.read i).getLsbD j = true := by
  unfold src
  split
  · next hi => rw [and_iff_right hi]
  · next hi => simp [hi]

theorem mem_bitmapPoints {s : State} {x y w h : Int} {off : Nat} {p : Point} :
    p ∈ bitmapPoints s x y w h off ↔ inBitmap s x y w h off p.x p.y := by
  unfold bitmapPoints inBitmap
  split
  · simp only [List.not_mem_nil, false_iff]
    omega
  · simp only [List.mem_flatMap, List.mem_range, List.mem_ite_nil_right, List.mem_singleton, getLsbD_src_iff]
    constructor
    · rintro ⟨j, hj, i, hi, hbit, rfl⟩
      dsimp only
      refine ⟨by omega, by omega, by omega, by omega, ?_⟩
      simpa using hbit
    · rintro ⟨hx0, hx1, hy0, hy1, hbit⟩
      refine ⟨(p.y - y).toNat, by omega, (p.x - x).toNat, by omega, hbit, ?_⟩
      rw [Int.toNat_sub_of_le hx0, Int.toNat_sub_of_le hy0, add_sub_cancel, add_sub_cancel]

/-- Settles O42: the offset of a plotted pixel in the bitmap is its column and row there. -/
theorem bitmapDrawsTheSetBits : Obligations.BitmapDrawsTheSetBits :=
  ⟨decode_eq_ok_iff.mpr rfl, fun _ h => draws_of_points h rfl fun x y _ => (mem_bitmapPoints (p := ⟨x, y⟩)).symm⟩

end Sys2Proof.Machine

/-! ## Text -/

namespace Sys2Proof.Machine

open Sys2Proof.Claims

/-! ### The pixels of a glyph cell -/

theorem textScale_pos {s : State} (h : s.textScale ≠ 0) : 0 < s.textScale.toNat :=
  Nat.pos_of_ne_zero fun h0 => h (BitVec.eq_of_toNat_eq h0)

/-- The spacing column is blank (44_bitmap_text.md R261). -/
theorem getLsbD_columnBits_iff {c : Config} {ch k j : Nat} :
    (columnBits c ch k).getLsbD j = true ↔ k < 5 ∧ (glyph c ch k).getLsbD j = true := by
  unfold columnBits
  split
  · next hk => rw [and_iff_right hk]
  · next hk => simp [hk]

/-- The colour in which a cell pixel of the given bit is plotted, where it is plotted (R262). -/
def cellColour (ink bg : Colour) (lit : Bool) : Option Colour :=
  if lit then some ink else if bg ≠ ink then some bg else none

theorem exists_cellColour_iff {ink bg : Colour} {lit k : Bool} :
    (∃ col, cellColour ink bg lit = some col ∧ inkOf col = k) ↔
      if lit = true then k = inkOf ink else bg ≠ ink ∧ k = inkOf bg := by
  unfold cellColour
  split
  · simp [eq_comm]
  · split
    · next hne => simp [hne, eq_comm]
    · next heq => simp [heq]

section

variable {sc : Nat} (hsc : 0 < sc)
include hsc

/-- The block of cell pixel (k, j) holds the points whose offset falls in it (R263). -/
theorem mem_cellPoints {x y : Int} {k j : Nat} {p : Point} :
    p ∈ cellPoints x y k j sc ↔ (p.x - x) / sc = k ∧ (p.y - y) / sc = j := by
  unfold cellPoints
  split
  · next hone =>
    subst hone
    obtain ⟨px, py⟩ := p
    simp only [List.mem_singleton, Point.mk.injEq, Nat.cast_one, Int.ediv_one]
    omega
  · have hsc' : (0 : Int) < sc := by omega
    rw [mem_fillRectPoints, Int.ediv_eq_iff_of_pos hsc', Int.ediv_eq_iff_of_pos hsc']
    omega

variable {c : Config} {ink bg : Colour} {x y : Int} {ch : Nat} {p : Pixel}

theorem mem_cellPixels {k j : Nat} : p ∈ cellPixels c ink bg sc x y ch k j ↔
    ((p.pos.x - x) / sc = k ∧ (p.pos.y - y) / sc = j) ∧
      cellColour ink bg ((columnBits c ch k).getLsbD j) = some p.c := by
  obtain ⟨pos, col⟩ := p
  unfold cellPixels cellColour paint
  rw [← mem_cellPoints hsc]
  split
  · simp
  · split <;> simp

/-- DrawChar plots the points of the 6 by 8 cell, each in the colour of its cell pixel (R262). -/
theorem mem_charPixels : p ∈ charPixels c ink bg sc x y ch ↔
    0 ≤ p.pos.x - x ∧ p.pos.x - x < 6 * sc ∧ 0 ≤ p.pos.y - y ∧ p.pos.y - y < 8 * sc ∧
      cellColour ink bg ((columnBits c ch ((p.pos.x - x) / sc).toNat).getLsbD ((p.pos.y - y) / sc).toNat) =
        some p.c := by
  have hsc' : (0 : Int) < sc := Nat.cast_pos.mpr hsc
  rw [← Int.ediv_nonneg_iff_of_pos hsc', ← Int.ediv_nonneg_iff_of_pos (a := p.pos.y - y) hsc',
    ← Int.ediv_lt_iff_lt_mul hsc', ← Int.ediv_lt_iff_lt_mul (a := p.pos.y - y) hsc']
  simp only [charPixels, List.mem_flatMap, List.mem_range, mem_cellPixels hsc]
  generalize (p.pos.x - x) / (sc : Int) = k
  generalize (p.pos.y - y) / (sc : Int) = j
  constructor
  · rintro ⟨k, hk, j, hj, ⟨rfl, rfl⟩, hcol⟩
    exact ⟨by omega, by omega, by omega, by omega, hcol⟩
  · rintro ⟨hk0, hk1, hj0, hj1, hcol⟩
    exact ⟨k.toNat, by omega, j.toNat, by omega, ⟨by omega, by omega⟩, hcol⟩

end

/-! ### One character -/

/-- The cursor after a glyph does not depend on the glyph (R264). -/
theorem advance_eq {ch : Byte} (hnl : ch ≠ 0x0A) (hcr : ch ≠ 0x0D) (s : State) :
    advance s = { s with cursorX := (cursorAfter s ch).1, cursorY := (cursorAfter s ch).2 } := by
  unfold advance cursorAfter wrap16
  simp only [if_neg hnl, if_neg hcr]
  split <;> rfl

/-- The Plots of WriteChar(ch): none for a newline or a carriage return (R264). -/
def writtenPixels (s : State) (ch : Byte) : List Pixel :=
  if ch = 0x0A ∨ ch = 0x0D then []
  else charPixels s.cfg s.textInk s.textBg s.textScale.toNat s.cursorX.toInt s.cursorY.toInt ch.toNat

/-- WriteChar is its Plots and its cursor (R264). -/
theorem writeChar_eq_drawn (ch : Byte) (s : State) :
    writeChar ch s = drawn (writtenPixels s ch) (cursorAfter s ch).1 (cursorAfter s ch).2 s := by
  unfold writeChar writtenPixels
  by_cases hnl : ch = 0x0A
  · rw [if_pos hnl, if_pos (.inl hnl), cursorAfter, if_pos hnl]
    rfl
  by_cases hcr : ch = 0x0D
  · rw [if_neg hnl, if_pos hcr, if_pos (.inr hcr), cursorAfter, if_neg hnl, if_pos hcr]
    rfl
  rw [if_neg hnl, if_neg hcr, if_neg (not_or.mpr ⟨hnl, hcr⟩), advance_eq hnl hcr, drawChar, plotAll_eq]
  rfl

theorem mem_writtenPixels {s : State} {ch : Byte} {p : Pixel} : p ∈ writtenPixels s ch ↔ ch ≠ 0x0A ∧ ch ≠ 0x0D ∧
    p ∈ charPixels s.cfg s.textInk s.textBg s.textScale.toNat s.cursorX.toInt s.cursorY.toInt ch.toNat := by
  rw [writtenPixels, List.mem_ite_nil_left, not_or, and_assoc]

/-- The pixels written, each in the bit value of its colour. -/
theorem paintsChar_iff {s : State} (hsc : s.textScale ≠ 0) {ch : Byte} {x y : Int} {k : Bool} :
    paintsChar s ch x y k ↔ ∃ p ∈ writtenPixels s ch, p.pos = ⟨x, y⟩ ∧ inkOf p.c = k := by
  have hcolour : (∃ p ∈ writtenPixels s ch, p.pos = ⟨x, y⟩ ∧ inkOf p.c = k) ↔
      ∃ col, ⟨⟨x, y⟩, col⟩ ∈ writtenPixels s ch ∧ inkOf col = k :=
    ⟨fun ⟨⟨_, col⟩, hp, hpos, hk⟩ => ⟨col, hpos ▸ hp, hk⟩, fun ⟨_, hp, hk⟩ => ⟨_, hp, rfl, hk⟩⟩
  rw [hcolour]
  simp only [mem_writtenPixels, mem_charPixels (textScale_pos hsc), and_assoc, exists_and_left,
    exists_cellColour_iff, getLsbD_columnBits_iff, Int.toNat_lt' (by decide : 0 < 5)]
  rfl

theorem colour_eq_of_mem_writtenPixels {s : State} (hsc : s.textScale ≠ 0) {ch : Byte} {p q : Pixel}
    (hp : p ∈ writtenPixels s ch) (hq : q ∈ writtenPixels s ch) (hpos : p.pos = q.pos) : p.c = q.c := by
  rw [mem_writtenPixels, mem_charPixels (textScale_pos hsc)] at hp hq
  obtain ⟨-, -, -, -, -, -, hp⟩ := hp
  obtain ⟨-, -, -, -, -, -, hq⟩ := hq
  rw [hpos] at hp
  exact Option.some.inj (hp.symm.trans hq)

/-- WRITE_CHAR is WriteChar of its operand, then CommandEnd (R265). -/
theorem exec_writeChar_eq (s : State) : exec .writeChar s = .next (commandEnd
    (drawn (writtenPixels s (argU8 s 0)) (cursorAfter s (argU8 s 0)).1 (cursorAfter s (argU8 s 0)).2 s)) := by
  rw [exec, execWriteChar, writeChar_eq_drawn]

/-- Settles O43: all Plots of one point are in the one colour of its cell pixel. -/
theorem writeCharDrawsTheCell : Obligations.WriteCharDrawsTheCell := by
  refine ⟨decode_eq_ok_iff.mpr rfl, fun s h => ?_⟩
  obtain ⟨hoff, hon⟩ := exec_commandEnd (exec_writeChar_eq s)
  exact ⟨_, rfl, painted_drawn h _ _ _ (fun _ _ _ _ => paintsChar_iff h.scale)
    (fun _ hp _ hq => congrArg inkOf ∘ colour_eq_of_mem_writtenPixels h.scale hp hq), hoff, hon⟩

/-! ### A string -/

/-- Characters leave the argument registers, CTRL and the source buffer as they are (R266). -/
theorem writeChars_frame (n i : Nat) (s : State) :
    (writeChars n i s).args = s.args ∧ (writeChars n i s).ctrl = s.ctrl ∧ src (writeChars n i s) = src s := by
  obtain ⟨ps, cx, cy, h⟩ := writeChars_drawn n i s
  rw [h]
  exact ⟨rfl, rfl, rfl⟩

/-- The last code of a string is written after the others (R266). -/
theorem writeChars_succ (n i : Nat) (s : State) :
    writeChars (n + 1) i s = writeChar (src s (i + n)) (writeChars n i s) := by
  induction n generalizing i s with
  | zero => rfl
  | succ n ih =>
    obtain ⟨-, -, hsrc⟩ := writeChars_frame 1 i s
    simp only [writeChars] at hsrc
    rw [writeChars, ih, hsrc, writeChars, add_right_comm, add_assoc]

theorem argU8_withArg0 (s : State) (ch : Byte) : argU8 (withArg0 s (ch.zeroExtend 32)) 0 = ch := by
  refine BitVec.eq_of_toNat_eq ?_
  have hlt : ch.toNat < 256 := ch.isLt
  rw [argU8, toNat_u8]
  simp [withArg0, hlt]

/-- In a block that is idle, with AUTO_REFRESH = 0, a WRITE_CHAR is the WriteChar of its operand (R265). -/
theorem exec_writeChar_withArg0 (ch : Byte) {s : State} (hauto : s.ctrl.autoRefresh = false) :
    exec .writeChar (withArg0 (endCommand s) (ch.zeroExtend 32)) =
      .next (withArg0 (endCommand (writeChar ch s)) (ch.zeroExtend 32)) := by
  have he := exec_writeChar_eq (withArg0 (endCommand s) (ch.zeroExtend 32))
  rw [argU8_withArg0] at he
  rw [(exec_commandEnd he).1 hauto, writeChar_eq_drawn]
  rfl

/-- `s` with AUTO_REFRESH = 0. -/
def refreshOff (s : State) : State := { s with ctrl := { s.ctrl with autoRefresh := false } }

theorem refreshOff_of_off {s : State} (hauto : s.ctrl.autoRefresh = false) : refreshOff s = s := by
  rw [refreshOff, ← hauto]

/-- Settles O44: the states between the characters are those of the WriteChars, ended. -/
theorem writeStringWritesItsCharacters : Obligations.WriteStringWritesItsCharacters := by
  refine ⟨decode_eq_ok_iff.mpr rfl, fun s => ?_⟩
  intro off code
  have hframe (k : Nat) := writeChars_frame k off (refreshOff s)
  obtain ⟨hoff, hon⟩ := exec_commandEnd (i := .writeString) (s := s) (u := writeChars (argU16 s 1) off s) rfl
  obtain ⟨-, hctrl, -⟩ := writeChars_frame (argU16 s 1) off s
  rw [hctrl] at hoff hon
  refine ⟨fun k => endCommand (writeChars k off (refreshOff s)), rfl, fun k => ⟨?_, (hframe (k + 1)).1⟩, fun hauto => ?_,
    fun hauto => ?_⟩
  · obtain ⟨-, hctrl, -⟩ := hframe k
    beta_reduce
    rw [writeChars_succ]
    exact exec_writeChar_withArg0 (code k) (congrArg Ctrl.autoRefresh hctrl)
  · rw [hoff hauto, refreshOff_of_off hauto]
  · rw [hon hauto]
    exact congrArg (fun u => exec .refresh (endCommand u)) (writeChars_withCtrl _ off (refreshOff s) (c := s.ctrl) rfl)

end Sys2Proof.Machine

/-! ## Errors (60_exceptions.md) -/

namespace Sys2Proof.Machine

open Sys2Proof.Claims

/-! ### The latch plays no part in a command (60_exceptions.md R301) -/

/-- `s` with other values of ERR and ERR_CODE. -/
def State.withLatch (s : State) (e : Bool) (code : BitVec 4) : State := { s with err := e, errCode := code }

/-- The two states differ in ERR and ERR_CODE only. -/
def SameButLatch (s s' : State) : Prop := ∃ e code, s' = s.withLatch e code

section

variable (s : State) (e : Bool) (code : BitVec 4)

theorem pulsePin_withLatch : pulsePin (s.withLatch e code) = (pulsePin s).withLatch e code := by
  unfold pulsePin State.withLatch
  split <;> rfl

theorem storeFbByte_withLatch (i : Nat) (v : Byte) :
    storeFbByte i v (s.withLatch e code) = (storeFbByte i v s).withLatch e code := by
  unfold storeFbByte State.withLatch
  split <;> rfl

theorem writeChar_withLatch (ch : Byte) : writeChar ch (s.withLatch e code) = (writeChar ch s).withLatch e code := by
  rw [writeChar_eq_drawn, writeChar_eq_drawn]
  rfl

theorem writeChars_withLatch (n i : Nat) :
    writeChars n i (s.withLatch e code) = (writeChars n i s).withLatch e code := by
  induction n generalizing i s with
  | zero => rfl
  | succ n ih => exact (congrArg (writeChars n (i + 1)) (writeChar_withLatch s e code (src s i))).trans (ih _ _)

theorem endCommand_sameButLatch : SameButLatch (endCommand s) (endCommand (s.withLatch e code)) := ⟨e, code, rfl⟩

/-- Latch sets ERR whatever it was, and what it does to ERR_CODE is no part of the rest (60_exceptions.md R292). -/
theorem raiseError_sameButLatch (err : ErrorCode) :
    SameButLatch (raiseError err s) (raiseError err (s.withLatch e code)) := by
  refine ⟨true, if e then code else err.code, ?_⟩
  rw [raiseError_eq, raiseError_eq, latch_eq_latched, latch_eq_latched]
  rfl

theorem transmit_sameButLatch (after : TxThen) (ts : List TxRequest) :
    SameButLatch (transmit after ts s) (transmit after ts (s.withLatch e code)) := by
  induction ts generalizing s with
  | nil => cases after <;> exact ⟨e, code, rfl⟩
  | cons t ts ih =>
    have ha : (s.withLatch e code).answers = s.answers := rfl
    simp only [transmit, ha]
    match s.answers with
    | [] => exact ⟨e, code, rfl⟩
    | true :: as => exact ih { s with answers := as, history := s.history ++ [answered true t] }
    | false :: as =>
      exact raiseError_sameButLatch { s with answers := as, history := s.history ++ [answered false t] } e code _

theorem refresh_sameButLatch : SameButLatch (refresh s) (refresh (s.withLatch e code)) := by
  have hempty : (s.withLatch e code).dirty.isEmpty = s.dirty.isEmpty := rfl
  unfold refresh
  rw [hempty]
  split
  · exact endCommand_sameButLatch s e code
  · exact transmit_sameButLatch s e code .clearRegion (refreshPlan s)

theorem commandEnd_sameButLatch : SameButLatch (commandEnd s) (commandEnd (s.withLatch e code)) := by
  have hauto : (s.withLatch e code).ctrl = s.ctrl := rfl
  unfold commandEnd
  rw [hauto]
  split
  · exact refresh_sameButLatch s e code
  · exact endCommand_sameButLatch s e code

theorem draw_sameButLatch (ps : List Pixel) : SameButLatch (draw ps s) (draw ps (s.withLatch e code)) := by
  rw [draw_eq, draw_eq]
  exact commandEnd_sameButLatch (drawn ps s.cursorX s.cursorY s) e code

theorem txRaw_sameButLatch (sel : Bool) (off len : Nat) :
    SameButLatch (txRaw sel off len s) (txRaw sel off len (s.withLatch e code)) := by
  have hcfg : (s.withLatch e code).cfg = s.cfg := rfl
  unfold txRaw
  rw [hcfg]
  split
  · exact raiseError_sameButLatch s e code .argError
  · split
    · exact endCommand_sameButLatch s e code
    · exact transmit_sameButLatch s e code .nothing [rawTransaction s sel off len]

end

/-- A command goes the same way whatever is latched: its operands, its body and its transactions are the same. -/
theorem exec_sameButLatch {i : Instr} {s t : State} (h : exec i s = .next t) (e : Bool) (code : BitVec 4) :
    ∃ t', exec i (s.withLatch e code) = .next t' ∧ SameButLatch t t' := by
  refine (exec_next i (s.withLatch e code)).imp fun t' h' => ⟨h', ?_⟩
  cases i <;> obtain rfl := Host.Outcome.next.inj h.symm <;> obtain rfl := Host.Outcome.next.inj h'.symm
  case panelReset =>
    rw [pulsePin_withLatch]
    exact endCommand_sameButLatch (pulsePin s) e code
  case clear => exact endCommand_sameButLatch (clearFb s) e code
  case refresh => exact refresh_sameButLatch s e code
  case getPixel | fbRead => exact ⟨e, code, rfl⟩
  case fbWrite =>
    rw [storeFbByte_withLatch]
    exact endCommand_sameButLatch (storeFbByte _ _ s) e code
  case txRaw => exact txRaw_sameButLatch s e code _ _ _
  case writeChar =>
    rw [writeChar_withLatch]
    exact commandEnd_sameButLatch (writeChar _ s) e code
  case writeString =>
    rw [writeChars_withLatch]
    exact commandEnd_sameButLatch (writeChars _ _ s) e code
  all_goals exact draw_sameButLatch s e code _

/-- Settles O53: whatever is latched, the two runs end in states that differ in the latch only. -/
theorem errorsDoNotBlock : Obligations.ErrorsDoNotBlock := by
  intro i s t e code h
  obtain ⟨t', h', e', code', rfl⟩ := exec_sameButLatch h e code
  exact ⟨e', code', h'⟩

/-! ### A transport failure -/

/-- Settles O18: the transaction answered false is where the refresh stops, and its plan's rest is not issued. -/
theorem refreshStopsAtTheFirstFailure : Obligations.RefreshStopsAtTheFirstFailure := by
  intro s pre post r as hne hplan has
  have hrefresh : refresh s = transmit .clearRegion (refreshPlan s) s := if_neg (Bool.eq_false_iff.mp hne)
  rw [exec, execRefresh, hrefresh, hplan, transmit_of_false _ _ _ _ _ has, raiseError_eq, latch_eq_latched]
  rfl

/-! ### Writes while BUSY (60_exceptions.md R295) -/

/-- A write while BUSY of a location of the block other than STATUS. -/
theorem writeBusy_overrun {r : HostReg} (hstatus : r ≠ .status) (hout : r ≠ .outside) (v : Word) (s : State) :
    writeBusy v s r = latch .overrun s := by
  cases r with
  | status => exact absurd rfl hstatus
  | outside => exact absurd rfl hout
  | _ => rfl

/-- STATUS is the word at offset 4. -/
theorem hostReg_status {c : Config} {off : Nat} (h : off / 4 = 1) : hostReg c off = .status := by
  rw [hostReg, h]
  rfl

/-- An offset of the block outside the word of STATUS leads to another location of the block (20_memory.md R75). -/
theorem hostReg_ne_status_and_ne_outside {c : Config} {off : Nat} (hword : off / 4 ≠ 1)
    (hoff : off < 0x1000 + 4 * c.srcbufSize) : hostReg c off ≠ .status ∧ hostReg c off ≠ .outside := by
  rcases hostReg_cases c off with ⟨p, hp, hpoff, e⟩ | ⟨e, -⟩ <;> rw [e]
  · have hlisted : ∀ p ∈ registerMap, p.2 ≠ .outside ∧ (p.2 = .status → p.1 = 4) := by decide
    obtain ⟨hout, hstatus⟩ := hlisted p hp
    exact ⟨fun h => hword (by have := hstatus h; omega), hout⟩
  · unfold windowReg
    split
    · exact ⟨nofun, nofun⟩
    · split
      · exact ⟨nofun, nofun⟩
      · rw [if_pos (by omega)]
        exact ⟨nofun, nofun⟩

/-- No access starts a command while BUSY. -/
theorem startedBy_of_busy {s : State} (hb : s.busy = true) (a : Access) : startedBy a s = none := by
  cases a with
  | read off => rfl
  | write off v => exact if_neg fun h => h.2.1 hb

/-- Settles O5: while BUSY an offset's location decides what a write does, and no access starts a command. -/
theorem writeWhileBusyIsAnOverrun : Obligations.WriteWhileBusyIsAnOverrun := by
  intro s hr hb
  have hwrite (off : Nat) (v : Word) : access (.write off v) s = writeBusy v s (hostReg s.cfg off) := by
    rw [access_write, if_pos hr, if_pos hb]
  refine ⟨fun off v hword hoff => ?_, fun off v hword => ?_, rfl, fun _ _ => rfl,
    fun h a es => step_access h.toSound (startedBy_of_busy hb a) es⟩
  · obtain ⟨hstatus, hout⟩ := hostReg_ne_status_and_ne_outside hword hoff
    rw [hwrite, writeBusy_overrun hstatus hout, latch_eq_latched]
    rfl
  · rw [hwrite, hostReg_status hword, writeBusy_status]
    rfl

/-! ### Clearing the latch, and words that are no command -/

/-- Settles O6: out of reset a write to STATUS does the same BUSY or idle. -/
theorem statusWriteClearsTheError : Obligations.StatusWriteClearsTheError := by
  intro s v es h hr
  have hstatus : hostReg s.cfg 0x004 = .status := rfl
  have hcmd : hostReg s.cfg 0x004 ≠ .cmd := nofun
  rw [step_access h.toSound (startedBy_write_of_ne_cmd hcmd v), access_write, if_pos hr, hstatus,
    writeBusy_status, writeIdle_status, ite_self]
  rfl

/-- The words that are no command (30_encoding.md R102, R103). -/
theorem decode_eq_error {v : Word} (h : v.toNat = 0x00 ∨ (0x08 ≤ v.toNat ∧ v.toNat ≤ 0x0F) ∨
    (0x1D ≤ v.toNat ∧ v.toNat ≤ 0x1F) ∨ 0x22 ≤ v.toNat) : ∃ e, decode v = .error e := by
  obtain ⟨-, hreserved, hillegal⟩ := decodeIsTheInverseOfEncode
  by_cases hv : 256 ≤ v.toNat
  · exact ⟨_, (hreserved v).mpr hv⟩
  · exact ⟨_, (hillegal v).mpr (by omega)⟩

/-- Such a word starts no command. -/
theorem startedBy_of_decode_error {v : Word} {e : DecodeError} (he : decode v = .error e) (off : Nat) (s : State) :
    startedBy (.write off v) s = none := by
  simp [startedBy, he]

/-- Written to CMD in an idle block, such a word latches ILLEGAL_COMMAND (60_exceptions.md R291). -/
theorem writeIdle_cmd_of_decode_error {v : Word} {e : DecodeError} (he : decode v = .error e) (s : State) :
    writeIdle v s .cmd = latch .illegalCommand s := by
  rw [writeIdle, he]

/-- Settles O4: the word decodes to an error, so the write only latches. -/
theorem illegalCommandOnlyLatches : Obligations.IllegalCommandOnlyLatches := by
  intro s v es ⟨hinv, hr, hb⟩ hv
  obtain ⟨e, he⟩ := decode_eq_error hv
  have hcmd : hostReg s.cfg 0x000 = .cmd := rfl
  rw [step_access hinv.toSound (startedBy_of_decode_error he _ s), access_write, if_pos hr,
    if_neg (Bool.eq_false_iff.mp hb), hcmd, writeIdle_cmd_of_decode_error he, latch_eq_latched]
  rfl

/-! ### Nothing stops (60_exceptions.md R299) -/

theorem exec_cfg {i : Instr} {s t : State} (h : exec i s = .next t) : t.cfg = s.cfg := by
  obtain ⟨-, -, -, -, -, -, hcfg, -⟩ := commandsLeaveTheHostsRegisters i s t h
  exact hcfg

theorem HostSide.cfg {s t : State} (h : HostSide s t) : t.cfg = s.cfg := by
  rw [h.eq]

theorem EndsIn.cfg {codes : BitVec 4 → Prop} {u t : State} (h : EndsIn codes u t) : t.cfg = u.cfg := by
  rw [h.frame]

/-- A host access has a next state, whether it starts a command or not. -/
theorem runHost_next (a : Access) (m : List Access) (s : State) : ∃ t, runHost a m s = .next t ∧ t.cfg = s.cfg := by
  cases hs : startedBy a s with
  | none =>
    exact ⟨_, runHost_access hs, (access_hostSide a s).cfg⟩
  | some i =>
    obtain ⟨t, ht⟩ := exec_next i (accesses m (startCommand s))
    have hmeanwhile := (accesses_busySide (startCommand_busy s) m).hostSide.cfg
    exact ⟨t, (runHost_command hs).trans ht, (exec_cfg ht).trans hmeanwhile⟩

theorem runTransport_cfg (ok : Bool) (s : State) : (runTransport ok s).cfg = s.cfg := by
  unfold runTransport
  split
  · rfl
  · exact (transmit_endsIn (codes := fun _ => True) trivial _ _).cfg

/-- Every event has a next state, and none changes the parameters (00_scope.md R6). -/
theorem runEvent_next (ev : Event) (s : State) : ∃ t, runEvent ev s = .next t ∧ t.cfg = s.cfg := by
  cases ev with
  | host a m => exact runHost_next a m s
  | transport ok => exact ⟨_, rfl, runTransport_cfg ok s⟩
  | rstLow => exact ⟨_, rfl, rfl⟩
  | rstHigh =>
    refine ⟨_, rfl, ?_⟩
    unfold rstRises
    split <;> rfl

/-- From the invariant a step has a next state, which meets it again. -/
theorem State.Inv.step_next {s : State} (h : s.Inv) : ∃ t, Machine.step s = .next t ∧ t.Inv ∧ t.cfg = s.cfg := by
  have hnext : ∃ t, Machine.step s = .next t ∧ t.cfg = s.cfg := by
    rw [step_eq_runNext h.toSound, runNext]
    split
    · exact ⟨s, rfl, rfl⟩
    · exact runEvent_next _ _
  exact hnext.imp fun _ ⟨ht, hcfg⟩ => ⟨ht, h.step ht, hcfg⟩

/-- Settles O12, by induction on the number of steps. -/
theorem soundMachinesNeverStop : Obligations.SoundMachinesNeverStop := by
  intro s n h
  induction n generalizing s with
  | zero => exact ⟨s, rfl, h, rfl⟩
  | succ n ih =>
    obtain ⟨u, hu, huInv, huCfg⟩ := h.step_next
    rw [run_succ hu]
    exact (ih u huInv).imp fun _ ⟨ht, htInv, htCfg⟩ => ⟨ht, htInv, htCfg.trans huCfg⟩

end Sys2Proof.Machine

/-! ## Reset, waiting and reads while BUSY (70_reset_and_hazards.md) -/

namespace Sys2Proof.Machine

open Sys2Proof.Claims

/-! ### The reset input (R320) -/

/-- While `rst_n` is low no transaction is outstanding. -/
theorem State.Inv.inflight_of_reset {s : State} (h : s.Inv) (hr : s.rstN = false) : s.inflight = none :=
  Option.not_isSome_iff_eq_none.mp (Bool.eq_false_iff.mp (h.waiting.symm.trans (h.inReset hr)))

/-- While `rst_n` is low no access starts a command. -/
theorem startedBy_of_reset {s : State} (hr : s.rstN = false) (a : Access) : startedBy a s = none := by
  cases a with
  | read off => rfl
  | write off v => exact if_neg fun h => Bool.eq_false_iff.mp hr h.1

/-- While `rst_n` is low a host write is ignored. -/
theorem access_write_of_reset {s : State} (hr : s.rstN = false) (off : Nat) (v : Word) :
    access (.write off v) s = s :=
  (access_write off v s).trans (if_neg (Bool.eq_false_iff.mp hr))

theorem rstRises_of_reset {s : State} (hr : s.rstN = false) :
    rstRises s = { State.resetWith s.cfg with
      events := s.events, answers := s.answers, readLog := s.readLog, freeCount := s.freeCount } :=
  if_neg (Bool.eq_false_iff.mp hr)

/-- Settles O8, event by event. -/
theorem resetAbandonsAndRestores : Obligations.ResetAbandonsAndRestores := by
  intro s es h
  refine ⟨⟨_, step_event h.toSound .rstLow es, rfl, rfl, rfl, rfl, rfl⟩,
    fun hr => ⟨fun off v => ?_, fun ok => ?_, ?_⟩⟩
  · rw [step_access h.toSound (startedBy_of_reset hr _), access_write_of_reset (s := { s with events := es }) hr]
  · rw [step_event h.toSound, runEvent, runTransport_none (s := { s with events := es }) (h.inflight_of_reset hr)]
  · rw [step_event h.toSound, runEvent, rstRises_of_reset (s := { s with events := es }) hr]

/-! ### Waiting for the transport (R327) -/

/-- Whatever the host does, a command that runs goes on waiting, and no transaction is issued or answered. -/
theorem step_access_of_busy {s : State} (h : s.Sound) (hb : s.busy = true) (a : Access) (es : List Event) :
    ∃ u, step (asked s a es) = .next u ∧ u.busy = true ∧ u.inflight = s.inflight ∧ u.history = s.history := by
  have hside := (access_busySide (s := { s with events := es }) hb a).eq
  refine ⟨_, step_access h (startedBy_of_busy hb a) es, ?_⟩
  rw [hside]
  exact ⟨hb, rfl, rfl⟩

/-- Settles O19: the refresh stops at the transaction without an answer, in a sound BUSY state. -/
theorem refreshWaitsForTheTransport : Obligations.RefreshWaitsForTheTransport := by
  intro s pre post r h hr hne hplan hanswers
  have hrefresh : refresh s = transmit .clearRegion (refreshPlan s) s := if_neg (Bool.eq_false_iff.mp hne)
  have hwaits : refresh s = { s with
      history := s.history ++ pre.map (fun r => ⟨r.sel, r.bytes, true⟩)
      answers := [], busy := true, inflight := some ⟨r :: post, .clearRegion⟩ } := by
    rw [hrefresh, hplan]
    exact transmit_of_none .clearRegion pre r post s hanswers
  have hbusy : (refresh s).busy = true := by rw [hwaits]
  exact ⟨refresh s, rfl, hwaits, step_access_of_busy (h.refresh hr).toSound hbusy⟩

/-! ### Reads while BUSY (R325) -/

/-- The offsets of RESULT, the cursor and the DIRTY registers. -/
theorem inFlux_hostReg (c : Config) {off : Nat} (h : off ∈ [0x008, 0x020, 0x024, 0x040, 0x044, 0x048, 0x04C]) :
    inFlux (hostReg c off) = true := by
  fin_cases h <;> rfl

/-- A read of a register in flux returns a free value. -/
theorem access_read_inFlux {s : State} (hb : s.busy = true) {off : Nat} (hflux : inFlux (hostReg s.cfg off) = true) :
    access (.read off) s =
      { gotBack s s.events off (Config.freeWord s.freeCount) with freeCount := s.freeCount + 1 } := by
  have hfree : readIsFree s (hostReg s.cfg off) = true := by simp [readIsFree, hb, hflux]
  exact if_pos hfree

/-- A read of a location of the block that no command changes returns its stored value, out of reset, BUSY or idle. -/
theorem access_read_stored {s : State} (r : HostReg) (hrst : s.rstN = true) {off : Nat} {v : Word}
    (hr : hostReg s.cfg off = r) (hout : r ≠ .outside) (hflux : inFlux r = false) (hv : storedValue s r = v) :
    access (.read off) s = gotBack s s.events off v := by
  have hfree : readIsFree s (hostReg s.cfg off) = false := by simp [readIsFree, hrst, hr, hout, hflux]
  subst hr hv
  exact if_neg (Bool.eq_false_iff.mp hfree)

/-- STATUS.BUSY is bit 0 of STATUS (10_state.md R34). -/
theorem statusNumber_mod_two (s : State) : statusNumber s % 2 = bit s.busy := by
  have hbusy := bit_le_one s.busy
  unfold statusNumber
  omega

/-- Settles O60: while BUSY a read is free exactly where its location is in flux. -/
theorem readsWhileBusy : Obligations.ReadsWhileBusy := by
  intro s h hrst hb
  have hw := zeroExtend_half (lt_of_le_of_lt (legal_width h.cfgLegal).2 (by decide))
  have hh := zeroExtend_half (legal_height h.cfgLegal).2.2
  have hext : ∀ {w : Nat} (x : BitVec w), x.zeroExtend 32 = BitVec.ofNat 32 x.toNat :=
    fun x => (BitVec.ofNat_toNat 32 x).symm
  refine ⟨fun off hoff => access_read_inFlux hb (inFlux_hostReg s.cfg hoff), ?_,
    (statusNumber_mod_two s).trans (congrArg bit hb),
    fun n => access_read_stored (.arg n) hrst (hostReg_arg s.cfg n) nofun rfl rfl,
    fun i hi => access_read_stored (.srcbuf i) hrst (hostReg_srcbufWindow hi) nofun rfl (hext _),
    fun off hoff => access_read_stored .reserved hrst (hostReg_reserved s.cfg (by omega)) nofun rfl rfl,
    fun hinv off es => step_access hinv.toSound rfl es⟩
  simp only [List.forall_mem_cons]
  exact ⟨access_read_stored .cmd hrst rfl nofun rfl rfl,
    access_read_stored .status hrst rfl nofun rfl (statusWord_eq s),
    access_read_stored .ctrl hrst rfl nofun rfl (ctrlWord_eq s.ctrl), access_read_stored .width hrst rfl nofun rfl hw,
    access_read_stored .height hrst rfl nofun rfl hh,
    access_read_stored .config hrst rfl nofun rfl (configWord_eq h.cfgLegal),
    access_read_stored .textInk hrst rfl nofun rfl (hext _), access_read_stored .textBg hrst rfl nofun rfl (hext _),
    access_read_stored .textScale hrst rfl nofun rfl (hext _), fun _ hp => absurd hp List.not_mem_nil⟩

end Sys2Proof.Machine
